-- ==== Sys2Proof/Word.lean ====
section
/-! DEFINITION. The bit vectors of the hardware: a data symbol, a count field, and the two widths of a port word. -/

namespace Sys2Proof

/-- A data symbol, `BYTE_W` = 8 bits, unsigned (R7, R11). -/
abbrev Byte := BitVec 8

/-- A count field or a 7-bit counter register, `CNT_W` = 7 bits, unsigned (R7, R24, R25, R31). -/
abbrev Count := BitVec 7

/-- What ports `ei`, `eo`, `di` carry at a transfer: bit 8 is `eos`, bits 7 to 0 are `data` (R91). -/
abbrev TokenWord := BitVec 9

/-- What port `do` carries at a transfer: bit 9 is `err`, bit 8 is `eos`, bits 7 to 0 are `data` (R91). -/
abbrev DoWord := BitVec 10

end Sys2Proof
end

