-- ==== Sys2Proof/Config.lean ====
section
/-! DEFINITION. The constants of the hardware (R7), the values the model names for registers the spec gives no reset
value (log entry 1), and the free values, which have no body (log entries 2 and 3). -/

namespace Sys2Proof

/-- `CAP`, the largest count the encoder emits (R7, R15, R126). -/
abbrev Config.cap : Nat := 127

/-- `RUN_MIN`, the smallest run the encoder emits as a run chunk (R7, R122). -/
abbrev Config.runMin : Nat := 2

/-- `LIT_MIN`, the smallest literal chunk the encoder emits (R7). -/
abbrev Config.litMin : Nat := 1

/-- `LITBUF_DEPTH`, the entries of the payload buffer (R7, R28). -/
abbrev Config.litBufDepth : Nat := 127

/-- The value the model names, at `State.reset`, for an 8-bit data register whose reset value the spec leaves
unspecified (R45). DESIGN CHOICE, unsafe: log entry 1. -/
def Config.resetByte : Byte := 0

/-- The same for a 7-bit data register (R45). DESIGN CHOICE, unsafe: log entry 1. -/
def Config.resetCount : Count := 0

/-- The value the model names, at `State.reset`, for every entry of the payload buffer (R45), and so what an address the
buffer's list does not hold reads as. DESIGN CHOICE, unsafe: log entries 1 and 4. -/
def Config.resetEntry : Byte := 0

/-- FREE VALUE: what a data register, or an entry of the payload buffer, holds after an edge with `rst = 1` (R311, `93_implementation_defined.md` U8).
The first argument is the state's free-value index, the second tells the registers apart. Log entry 2. -/
opaque Config.freeByte : Nat → Nat → Byte

/-- FREE VALUE: as `Config.freeByte`, for the 7-bit data registers. Log entry 2. -/
opaque Config.freeCount : Nat → Nat → Count

/-- FREE VALUE: the lines `eo_eos`, `eo_data` while `eo_valid = 0` (R172, `93_implementation_defined.md` U7), an unknown
function of the encoder's registers (R64). Log entry 3. -/
opaque Config.idleEo {Registers : Type} : Registers → TokenWord

/-- FREE VALUE: the lines `do_err`, `do_eos`, `do_data` while `do_valid = 0` (R234, U7), an unknown function of the
decoder's registers (R64). Log entry 3. -/
opaque Config.idleDo {Registers : Type} : Registers → DoWord

end Sys2Proof
end

