-- ==== Sys2Proof/Syntax.lean ====
section
/-! DEFINITION. The tokens of the ports and the instructions: one constructor of `Instr` per row of
spec/opcode_table.json. -/

namespace Sys2Proof

/-- The ports whose tokens have the 9-bit format TOKEN (R61, R91). Port `do` has the format TOKEN_DO and instructions
of its own. -/
inductive Port where
  /-- encoder input -/
  | ei
  /-- encoder output -/
  | eo
  /-- decoder input -/
  | di
deriving DecidableEq, Repr

/-- A token of port `ei`, `eo` or `di` (R14, R62). `END` carries no byte (`93_implementation_defined.md` U10). -/
inductive Token where
  /-- `BYTE(b)` -/
  | byte (b : Byte)
  /-- `END` -/
  | eom
deriving DecidableEq, Repr

/-- A token of port `do` (R62): `END` carries the `err` bit. -/
inductive DoToken where
  /-- `BYTE(b)` -/
  | byte (b : Byte)
  /-- `END(err)` -/
  | eom (err : Bool)
deriving DecidableEq, Repr

/-- The instructions. `lit` and `run` are the two chunk kinds (format CHUNK, executed by the decoder); the other four
are the transfer of one token on a port (formats TOKEN and TOKEN_DO). The port of a TOKEN row is an operand: the row
lists the ports, the 9 bits do not name one (R61, R90, R97). -/
inductive Instr where
  /-- `LIT count; p[0] ... p[count-1]` (R94, R194) -/
  | lit (count : Count) (payload : List Byte)
  /-- `RUN count, v` (R93, R193) -/
  | run (count : Count) (value : Byte)
  /-- `BYTE(b)` on port `ei`, `eo` or `di` (R62, R91) -/
  | byte (port : Port) (b : Byte)
  /-- `END` on port `ei`, `eo` or `di` (R62, R75, R91) -/
  | endMsg (port : Port)
  /-- `BYTE(b)` on port `do` (R62, R91) -/
  | byteDo (b : Byte)
  /-- `END(err)` on port `do` (R91, R233) -/
  | endDo (err : Bool)
deriving DecidableEq, Repr

/-- The instruction that is the transfer of token `t` on port `p`. -/
def Token.on (p : Port) : Token → Instr
  | .byte b => .byte p b
  | .eom => .endMsg p

/-- The instruction that is the transfer of a token on port `do`. -/
def DoToken.onDo : DoToken → Instr
  | .byte b => .byteDo b
  | .eom err => .endDo err

end Sys2Proof
end

