-- ==== Sys2Proof/Machine/State.lean ====
section
/-! DEFINITION. The state of CORE: the registers of the two units, the payload buffer, the ghost positions, and the
environment's side of the ports (what the host does next, what has been transferred to it). Plain data throughout. -/

namespace Sys2Proof.Machine

/-! ### The payload buffer as memory (R28, R80, R13) -/

/-- Bytes by address. The one addressed store of the hardware is the payload buffer, addresses 0 to 126. Every entry
holds a byte; an entry that is not listed holds `Config.resetEntry` (log entry 4). -/
abbrev Memory := List Host.Cell

/-- The canonical form: addresses strictly rising, all inside the buffer, and no entry listed with the byte that an
unlisted one holds. -/
abbrev Memory.wf (m : Memory) : Prop :=
  m.Pairwise (fun c d => c.1 < d.1) ∧ ∀ c ∈ m, c.1 < Config.litBufDepth ∧ c.2 ≠ Config.resetEntry

/-! ### The encoder (R22 to R29) -/

/-- The six values of `ephase` (R22). -/
inductive EPhase where
  /-- `E_COLLECT` -/
  | collect
  /-- `E_RUN_HDR` -/
  | runHdr
  /-- `E_RUN_VAL` -/
  | runVal
  /-- `E_LIT_HDR` -/
  | litHdr
  /-- `E_LIT_PAY` -/
  | litPay
  /-- `E_END` -/
  | endOut
deriving DecidableEq, Repr

/-- The registers of ENC (R22 to R29). -/
structure Encoder where
  /-- the phase (R22) -/
  ephase : EPhase
  /-- the candidate byte (R23) -/
  cur : Byte
  /-- how many equal bytes the candidate stands for (R24) -/
  cnt : Count
  /-- bytes held in the payload buffer (R25) -/
  litLen : Count
  /-- the payload buffer entry being put out (R26) -/
  litRd : Count
  /-- count of the run chunk being put out (R27) -/
  emCnt : Count
  /-- value of the run chunk being put out (R27) -/
  emVal : Byte
  /-- `END` has been taken and is still to be put out (R29) -/
  eosPend : Bool
  /-- the payload buffer, 127 bytes, every one of which holds a value (R28) -/
  litBuf : Memory
deriving DecidableEq, Repr

/-! ### The decoder (R30 to R34) -/

/-- The six values of `dphase` (R30). -/
inductive DPhase where
  /-- `D_HDR` -/
  | hdr
  /-- `D_RUN_VAL` -/
  | runVal
  /-- `D_RUN_OUT` -/
  | runOut
  /-- `D_LIT_IN` -/
  | litIn
  /-- `D_LIT_OUT` -/
  | litOut
  /-- `D_END` -/
  | endOut
deriving DecidableEq, Repr

/-- The registers of DEC (R30 to R34). -/
structure Decoder where
  /-- the phase (R30) -/
  dphase : DPhase
  /-- output bytes of the current chunk still to go (R31) -/
  dcount : Count
  /-- the run value, or the literal byte in flight (R32) -/
  dval : Byte
  /-- the `err` bit of the `END` about to be put out (R33) -/
  endErr : Bool
  /-- sticky: at least one MalformedStream since reset (R34) -/
  decFault : Bool
  /-- cause of the first MalformedStream since reset: 0 none, 1 TRUNC_RUN, 2 TRUNC_LIT (R34, R281) -/
  decFaultCode : BitVec 2
deriving DecidableEq, Repr

/-! ### The host (R10 agents, R61, R66) -/

/-- The input pins of CORE at one rising edge of `clk` (R61). -/
structure PinsIn where
  rst : Bool
  eiValid : Bool
  eiEos : Bool
  eiData : Byte
  eoReady : Bool
  diValid : Bool
  diEos : Bool
  diData : Byte
  doReady : Bool
deriving DecidableEq, Repr

/-- One thing the host does. `edge` is a rising edge of `clk` with given input pins; `loopEdge` is one while the host
has port `eo` wired to port `di`, so that the link's pins come from the units and not from the record (R78). `feedEnc`
and `feedDec` are a host that never stalls: it holds each word at the unit's input port until it is taken, and always
takes what the unit's output port offers; they end when the words are used up and the unit offers nothing. -/
inductive HostEvent where
  | edge (p : PinsIn)
  | loopEdge (p : PinsIn)
  | feedEnc (words : List TokenWord)
  | feedDec (words : List TokenWord)
deriving DecidableEq, Repr

/-- The environment's side: no register of the hardware (R46). `agenda` is what the host does next, the nearest first;
`eoOut` and `doOut` are the tokens transferred on the output ports so far, the first one first. `free` is the model's
own: the index at which the free values of Config are read, advanced by every step (log entry 2). -/
structure Env where
  agenda : List HostEvent
  eoOut : List Token
  doOut : List DoToken
  free : Nat
deriving DecidableEq, Repr

/-! ### The state of CORE -/

/-- The state of CORE (R20): ENC, DEC, the ghost positions `ENC.k`, `DEC.k` (R36), and the environment's side. -/
structure State where
  enc : Encoder
  dec : Decoder
  /-- `ENC.k`: `BYTE` tokens the encoder has taken in the current message (R36) -/
  encK : Nat
  /-- `DEC.k`: `BYTE` tokens the decoder has taken in the current message (R36) -/
  decK : Nat
  env : Env
deriving DecidableEq, Repr

/-- The encoder after reset (R45, R311). The registers the spec leaves unspecified hold the values log entry 1 names. -/
def Encoder.atReset : Encoder where
  ephase := .collect
  cur := Config.resetByte
  cnt := 0
  litLen := 0
  litRd := 0
  emCnt := Config.resetCount
  emVal := Config.resetByte
  eosPend := false
  litBuf := []

/-- The decoder after reset (R45, R311). The registers the spec leaves unspecified hold the values log entry 1 names. -/
def Decoder.atReset : Decoder where
  dphase := .hdr
  dcount := Config.resetCount
  dval := Config.resetByte
  endErr := false
  decFault := false
  decFaultCode := 0

/-- CORE right after reset (R45, R311): both units idle, nothing transferred yet, and a host that has nothing planned. -/
def State.reset : State where
  enc := Encoder.atReset
  dec := Decoder.atReset
  encK := 0
  decK := 0
  env := ⟨[], [], [], 0⟩

/-! ### How a step can stop -/

/-- Faults. The hardware's one exception, MalformedStream, is no fault of the model: it is taken, and the decoder goes
on (R285, R287). The one constructor stands for accesses R80 says never happen, and no state that meets R169 reaches
it. -/
inductive Fault where
  /-- Raised by a step rule that appends to the payload buffer when `lit_len` is 127, and by an output step in `E_LIT_PAY`
  with `lit_rd = 127`: entry 127 does not exist (R28, R80). Safe: the model stops. -/
  | bufferIndex
deriving DecidableEq, Repr

/-- Refusals. -/
inductive Refusal where
  /-- Raised by an arm of `exec` whose instruction has no meaning yet (there is none). Safe: the model stops. -/
  | notModelled (mnemonic : String)
  /-- Raised by a unit's step when no step rule applies, which R170 and R236 leave to states that R169 and R235 rule
  out. Safe, as R170 itself says: the model stops. -/
  | noStepRule
  /-- Raised by the transfer of a token on an output port that is offering a different token: at no clock edge does
  that transfer happen (R62, R63). Safe: the model stops. -/
  | notOffered
  /-- Raised by a chunk instruction when the decoder is not in phase `D_HDR`: a header is fetched at a chunk boundary
  only (R191), anywhere else the same bytes are payload. Safe: the model stops. -/
  | notAtChunkBoundary
  /-- Raised by `LIT` with a payload that has not `count` bytes: no encoding stands for such a term (R94). Safe: the
  model stops. -/
  | illFormed
deriving DecidableEq, Repr

end Sys2Proof.Machine
end

