-- ==== Sys2Proof/Machine/Flags.lean ====
section
/-! DEFINITION. The flag-like bits of the hardware (R38) and the comparisons the step rules make (R106). There are no
condition codes. -/

namespace Sys2Proof.Machine

/-- The causes of MalformedStream (R281). -/
inductive Cause where
  /-- code 1: `END` where the value byte of a run chunk was required -/
  | truncRun
  /-- code 2: `END` where a payload byte of a literal chunk was required -/
  | truncLit
deriving DecidableEq, Repr

/-- The cause codes of R281. -/
def causeCode : Cause → BitVec 2
  | .truncRun => 1
  | .truncLit => 2

/-- `dec_fault` and `dec_fault_code` on a MalformedStream: the flag is set, the code keeps the first cause (R34,
R285). -/
def recordFault (c : Cause) (d : Decoder) : Decoder :=
  { d with decFault := true, decFaultCode := if d.decFault then d.decFaultCode else causeCode c }

/-- Setting `end_err` (R33, R285). -/
def setEndErr (d : Decoder) : Decoder := { d with endErr := true }

/-- Clearing `end_err` (R33, R233). -/
def clearEndErr (d : Decoder) : Decoder := { d with endErr := false }

/-- Setting `eos_pend` (R29, R160 to R162). -/
def setEosPend (e : Encoder) : Encoder := { e with eosPend := true }

/-- Clearing `eos_pend` (R29, R168). -/
def clearEosPend (e : Encoder) : Encoder := { e with eosPend := false }

/-- `lit_rd + 1 < lit_len`, computed so that 126 + 1 does not wrap (R166, R106). -/
def morePayload (e : Encoder) : Bool := e.litRd.toNat + 1 < e.litLen.toNat

/-- `lit_rd + 1 = lit_len`, computed so that 126 + 1 does not wrap (R167, R106). -/
def lastPayload (e : Encoder) : Bool := e.litRd.toNat + 1 == e.litLen.toNat

end Sys2Proof.Machine
end

