-- ==== Sys2Proof/WellFormed.lean ====
section
/-! DEFINITION. Which terms of `Instr` stand for an instruction the encodings can hold. -/

namespace Sys2Proof

/-- A LIT chunk has exactly `count` payload bytes (R94); every other constructor admits every operand. -/
def Instr.wf : Instr → Bool
  | .lit count payload => payload.length == count.toNat
  | .run _ _ => true
  | .byte _ _ => true
  | .endMsg _ => true
  | .byteDo _ => true
  | .endDo _ => true

/-- `i` is well formed. -/
abbrev Instr.WellFormed (i : Instr) : Prop := i.wf = true

end Sys2Proof
end

