-- ==== Sys2Proof/Decode.lean ====
section
/-! DEFINITION. The encodings: header byte, port words, chunk bytes; the decoder, total, rejecting by name; the encoder
written from the same tables. -/

namespace Sys2Proof

/-! ### The header byte (R92, R95) -/

/-- The run flag `h[7]` (R92). -/
def headerFlag (h : Byte) : Bool := h.getLsbD 7

/-- The count operand `h & 0x7F` (R95, R192). -/
def headerCount (h : Byte) : Count := (h &&& 0x7F#8).setWidth 7

/-- The header of a run chunk, `0x80 | count` (R93, R95). -/
def runHeader (c : Count) : Byte := 0x80#8 ||| c.setWidth 8

/-- The header of a literal chunk, the count zero-extended to 8 bits (R94, R95). -/
def litHeader (c : Count) : Byte := c.setWidth 8

/-! ### The port words (R91, R62) -/

/-- The 9 lines `{eos, data}` as one word (R91). -/
def tokenLines (eos : Bool) (data : Byte) : TokenWord := BitVec.ofBool eos ++ data

/-- The `eos` line of a port word. -/
def lineEos (w : TokenWord) : Bool := w.getLsbD 8

/-- The `data` lines of a port word. -/
def lineData (w : TokenWord) : Byte := w.setWidth 8

/-- The token a 9-bit word stands for: total, and the data bits of `END` are ignored (R62, R91). -/
def wordToken (w : TokenWord) : Token := if lineEos w then .eom else .byte (lineData w)

/-- The word a token is driven as; `END` is driven with data 0x00 (R91, R172). -/
def tokenWord : Token → TokenWord
  | .byte b => tokenLines false b
  | .eom => tokenLines true 0

/-- The 10 lines `{err, eos, data}` of port `do` as one word (R91). -/
def doLines (err eos : Bool) (data : Byte) : DoWord := BitVec.ofBool err ++ tokenLines eos data

/-- The `err` line of a word of port `do`. -/
def lineErr (w : DoWord) : Bool := w.getLsbD 9

/-- The word a token of port `do` is driven as: `err` is 0 with `BYTE`, data is 0x00 with `END` (R91, R234). -/
def doTokenWord : DoToken → DoWord
  | .byte b => doLines false false b
  | .eom err => doLines err true 0

/-! ### The decoder -/

/-- Why bits are not an instruction. -/
inductive Reject where
  /-- no byte where a header is expected -/
  | emptyStream
  /-- the bytes end where the value byte of a run chunk is required (R101) -/
  | truncRun
  /-- the bytes end before all `count` payload bytes of a literal chunk (R101) -/
  | truncLit
  /-- bytes after the end of the one chunk asked for -/
  | trailingBytes
  /-- a word of port `do` with `err = 1` and `eos = 0`: `err` is defined for `END` only and driven 0 with `BYTE` (R91) -/
  | errOnByte
  /-- a word of port `do` with `eos = 1` and data other than 0x00, which the decoder never drives (R91, R234) -/
  | dataOnEndDo
deriving DecidableEq, Repr

/-- Reads one chunk from the front of a byte sequence and gives it with the rest (R96, R191 to R194). Every header
value is accepted (R97). -/
def decodeChunk : List Byte → Except Reject (Instr × List Byte)
  | [] => .error .emptyStream
  | h :: rest =>
    if headerFlag h then
      match rest with
      | [] => .error .truncRun
      | v :: more => .ok (.run (headerCount h) v, more)
    else if rest.length < (headerCount h).toNat then .error .truncLit
    else .ok (.lit (headerCount h) (rest.take (headerCount h).toNat), rest.drop (headerCount h).toNat)

/-- Reads the word of port `p`: every one of the 512 words is a token (R91). -/
def decodeToken (p : Port) (w : TokenWord) : Instr := (wordToken w).on p

/-- Reads a word of port `do` (R91, rows BYTE.do and END.do). -/
def decodeDo (w : DoWord) : Except Reject Instr :=
  if lineEos (w.setWidth 9) then
    if lineData (w.setWidth 9) = 0 then .ok (.endDo (lineErr w)) else .error .dataOnEndDo
  else if lineErr w then .error .errOnByte
  else .ok (.byteDo (lineData (w.setWidth 9)))

/-- The bits of one instruction, in the format and at the place where they stand (R90): the bytes of a chunk, the word
of a port of format TOKEN, the word of port `do`. -/
inductive Code where
  /-- format CHUNK -/
  | chunk (bytes : List Byte)
  /-- format TOKEN -/
  | token (port : Port) (w : TokenWord)
  /-- format TOKEN_DO -/
  | tokenDo (w : DoWord)
deriving DecidableEq, Repr

/-- The decoder, total on any bits. -/
def decode : Code → Except Reject Instr
  | .chunk bytes =>
    match decodeChunk bytes with
    | .error r => .error r
    | .ok (i, []) => .ok i
    | .ok (_, _ :: _) => .error .trailingBytes
  | .token p w => .ok (decodeToken p w)
  | .tokenDo w => decodeDo w

/-- The encoder: the bits of an instruction (R91, R93, R94). -/
def encode : Instr → Code
  | .lit count payload => .chunk (litHeader count :: payload)
  | .run count value => .chunk [runHeader count, value]
  | .byte p b => .token p (tokenWord (.byte b))
  | .endMsg p => .token p (tokenWord .eom)
  | .byteDo b => .tokenDo (doTokenWord (.byte b))
  | .endDo err => .tokenDo (doTokenWord (.eom err))

/-- The bytes of a chunk in stream order (R93, R94, R68); a token instruction has none. -/
def chunkBytes (i : Instr) : List Byte :=
  match encode i with
  | .chunk bytes => bytes
  | .token _ _ => []
  | .tokenDo _ => []

/-! ### The opcode table -/

/-- The three formats of the table (R90, R97). -/
inductive Format where
  | chunk
  | token
  | tokenDo
deriving DecidableEq, Repr

/-- A row of spec/opcode_table.json: format, width, match and mask on the word. -/
structure Row where
  format : Format
  width : Nat
  matchWord : Nat
  maskWord : Nat
deriving DecidableEq, Repr

/-- The table's row of each instruction (R97). -/
def rowOf : Instr → Row
  | .lit _ _ => ⟨.chunk, 8, 0x00, 0x80⟩
  | .run _ _ => ⟨.chunk, 8, 0x80, 0x80⟩
  | .byte _ _ => ⟨.token, 9, 0x000, 0x100⟩
  | .endMsg _ => ⟨.token, 9, 0x100, 0x100⟩
  | .byteDo _ => ⟨.tokenDo, 10, 0x000, 0x300⟩
  | .endDo _ => ⟨.tokenDo, 10, 0x100, 0x1FF⟩

/-- The word the table's match and mask speak of: the header byte of a chunk, the port word of a token. -/
def tableWord (i : Instr) : Nat :=
  match encode i with
  | .chunk [] => 0
  | .chunk (h :: _) => h.toNat
  | .token _ w => w.toNat
  | .tokenDo w => w.toNat

/-- The row's test on a word: the bits under the mask equal the match. -/
def Row.accepts (r : Row) (w : Nat) : Bool := w &&& r.maskWord == r.matchWord

/-- The result of a decoding as an option. -/
def decoded? : Except Reject Instr → Option Instr
  | .ok i => some i
  | .error _ => none

/-- The bytes of a chunk whose header is given and whose value and payload bytes are zeros. -/
def zeroChunk (h : Byte) : List Byte :=
  h :: List.replicate (if headerFlag h then 1 else (headerCount h).toNat) 0

/-- The instruction the decoder reads from a table word. 8 bits are a chunk's header byte, its value and payload bytes
being zeros; 9 bits are a TOKEN word and 10 bits a TOKEN_DO word. 16 bits, a word rounded up to whole bytes, are read as
a TOKEN word when bits 15 to 9 are 0 and as a TOKEN_DO word when bit 9 is set, because the table gives the rows of the
two token formats overlapping words and only the port tells them apart. A TOKEN word is taken at port `ei`, the first
port its row lists. Log entry 9. -/
def decodeTableWord (nbits w : Nat) : Option Instr :=
  if nbits = 8 ∧ w < 2 ^ 8 then
    decoded? (decode (.chunk (zeroChunk (BitVec.ofNat 8 w))))
  else if nbits = 9 ∧ w < 2 ^ 9 then some (decodeToken .ei (BitVec.ofNat 9 w))
  else if nbits = 10 ∧ w < 2 ^ 10 then decoded? (decodeDo (BitVec.ofNat 10 w))
  else if nbits = 16 ∧ w < 2 ^ 9 then some (decodeToken .ei (BitVec.ofNat 9 w))
  else if nbits = 16 ∧ w < 2 ^ 10 then decoded? (decodeDo (BitVec.ofNat 10 w))
  else none

end Sys2Proof
end

