-- ==== Sys2Proof/Machine/Operands.lean ====
section
/-! DEFINITION. Operand forms: the payload buffer read and written by index, the token a unit offers on its output port
(R172, R234), and the pins of CORE as a function of its registers (R61, R64). -/

namespace Sys2Proof.Machine

/-! ### The payload buffer (R13, R80) -/

/-- `lit_buf[a]`, for `a` inside the buffer: every entry holds a byte (log entry 4). -/
def Memory.read : Memory → Nat → Byte
  | [], _ => Config.resetEntry
  | (k, b) :: m, a => if k = a then b else Memory.read m a

/-- Lists the byte `b` at `a`, an address not yet listed, in front of the first higher one. -/
def Memory.insert : Memory → Nat → Byte → Memory
  | [], a, b => [(a, b)]
  | (k, c) :: m, a, b => if a < k then (a, b) :: (k, c) :: m else (k, c) :: Memory.insert m a b

/-- `lit_buf[a] <- b`, for `a` inside the buffer; keeps the canonical form. -/
def Memory.write (m : Memory) (a : Nat) (b : Byte) : Memory :=
  if b = Config.resetEntry then m.filter fun c => c.1 != a
  else Memory.insert (m.filter fun c => c.1 != a) a b

/-! ### The byte operand of a token -/

/-- The byte of a token, 0 for `END` (no step rule for `END` reads it). -/
def tokenByte : Token → Byte
  | .byte b => b
  | .eom => 0

/-! ### What a unit offers -/

/-- The byte on `eo_data` in an output phase that carries one (R172); `none` where `lit_rd` names an entry that does not
exist, which R26 and R40 rule out. -/
def Encoder.outByte (e : Encoder) : Option Byte :=
  match e.ephase with
  | .collect => none
  | .runHdr => some (runHeader e.emCnt)
  | .runVal => some e.emVal
  | .litHdr => some (litHeader e.litLen)
  | .litPay =>
    if e.litRd.toNat < Config.litBufDepth then some (Memory.read e.litBuf e.litRd.toNat) else none
  | .endOut => none

/-- The token offered on `eo` (R172): none in `E_COLLECT`, `END` in `E_END`, a byte in the other phases. -/
def Encoder.offer (e : Encoder) : Option Token :=
  match e.ephase with
  | .endOut => some .eom
  | .collect => none
  | .runHdr => e.outByte.map .byte
  | .runVal => e.outByte.map .byte
  | .litHdr => e.outByte.map .byte
  | .litPay => e.outByte.map .byte

/-- The token offered on `do` (R234). -/
def Decoder.offer (d : Decoder) : Option DoToken :=
  match d.dphase with
  | .hdr => none
  | .runVal => none
  | .litIn => none
  | .runOut => some (.byte d.dval)
  | .litOut => some (.byte d.dval)
  | .endOut => some (.eom d.endErr)

/-! ### The pins (R61, R64, R172, R234) -/

/-- `ei_ready` (R64). -/
def Encoder.inReady (e : Encoder) : Bool := e.ephase == .collect

/-- `eo_valid` (R64): the five phases other than `E_COLLECT`. -/
def Encoder.outValid (e : Encoder) : Bool := e.ephase != .collect

/-- `di_ready` (R64). -/
def Decoder.inReady (d : Decoder) : Bool :=
  d.dphase == .hdr || d.dphase == .runVal || d.dphase == .litIn

/-- `do_valid` (R64). -/
def Decoder.outValid (d : Decoder) : Bool :=
  d.dphase == .runOut || d.dphase == .litOut || d.dphase == .endOut

/-- The lines `{eo_eos, eo_data}`: the offered token, a free value when there is none (R172, log entry 3). -/
def State.eoLines (s : State) : TokenWord :=
  match s.enc.offer with
  | some t => tokenWord t
  | none => Config.idleEo s.enc

/-- The lines `{do_err, do_eos, do_data}`: the offered token, a free value when there is none (R234, log entry 3). -/
def State.doLines (s : State) : DoWord :=
  match s.dec.offer with
  | some t => doTokenWord t
  | none => Config.idleDo s.dec

/-- The output pins of CORE (R61). -/
structure PinsOut where
  eiReady : Bool
  eoValid : Bool
  eoEos : Bool
  eoData : Byte
  diReady : Bool
  doValid : Bool
  doEos : Bool
  doErr : Bool
  doData : Byte
  decFault : Bool
  decFaultCode : BitVec 2
deriving DecidableEq, Repr

/-- What CORE drives on its pins (R64, R172, R234, R35). -/
def State.pins (s : State) : PinsOut where
  eiReady := s.enc.inReady
  eoValid := s.enc.outValid
  eoEos := lineEos s.eoLines
  eoData := lineData s.eoLines
  diReady := s.dec.inReady
  doValid := s.dec.outValid
  doEos := lineEos (s.doLines.setWidth 9)
  doErr := lineErr s.doLines
  doData := lineData (s.doLines.setWidth 9)
  decFault := s.dec.decFault
  decFaultCode := s.dec.decFaultCode

end Sys2Proof.Machine
end

