-- ==== Sys2Proof/Machine/Ops.lean ====
section
/-! DEFINITION. The shared operations: sequencing of outcomes, the append to the payload buffer, taking the exception
MalformedStream and ending its message, the ghost positions, the record of transferred tokens, reset. -/

namespace Sys2Proof.Machine

/-- Does `f` after `o`, stopping where `o` stopped. -/
def andThen {α β : Type} (o : Host.Outcome α Fault Refusal) (f : α → Host.Outcome β Fault Refusal) :
    Host.Outcome β Fault Refusal :=
  match o with
  | .next a => f a
  | .fault r => .fault r
  | .refused r => .refused r

/-! ### The payload buffer -/

/-- `lit_buf[lit_len] <- cur; lit_len <- lit_len + 1`, the append of a single to the literal segment that the rules
R158, R159, R162 share (R80). Entry 127 does not exist. -/
def appendSingle (e : Encoder) : Host.Outcome Encoder Fault Refusal :=
  if e.litLen.toNat < Config.litBufDepth then
    .next { e with litBuf := Memory.write e.litBuf e.litLen.toNat e.cur, litLen := e.litLen + 1 }
  else .fault .bufferIndex

/-- Where an emission goes when its last byte has gone: `E_END` if `eos_pend = 1`, else `E_COLLECT` (R164, R167). -/
def afterEmission (e : Encoder) : EPhase := if e.eosPend then .endOut else .collect

/-! ### The exception -/

/-- TAKING THE EXCEPTION, `raise MalformedStream(code)` (R285): the first cause is recorded, `dec_fault` and `end_err`
become 1, the phase becomes `D_END`. Nothing is saved, and `dcount`, `dval` keep what they held. -/
def raiseMalformed (c : Cause) (d : Decoder) : Decoder :=
  { setEndErr (recordFault c d) with dphase := .endOut }

/-- THE RETURN FROM IT. There is no return instruction (R287): putting out `END(end_err)` clears `end_err` and the
decoder is at the start of a message again; the sticky record stays (R233). -/
def endMessage (d : Decoder) : Decoder :=
  { clearEndErr d with dphase := .hdr }

/-! ### Positions and transferred tokens -/

/-- The ghost position after a token is taken: one more byte, or 0 on `END` (R36). -/
def positionAfter (t : Token) (k : Nat) : Nat :=
  match t with
  | .byte _ => k + 1
  | .eom => 0

/-- `OutPut(eo, t)`: the token has been transferred to the host (R13). -/
def outputEo (t : Token) (s : State) : State :=
  { s with env := { s.env with eoOut := s.env.eoOut ++ [t] } }

/-- `OutPut(do, t)` (R13). -/
def outputDo (t : DoToken) (s : State) : State :=
  { s with env := { s.env with doOut := s.env.doOut ++ [t] } }

/-! ### Reset -/

/-- The first `k` entries of the payload buffer after an edge with `rst = 1`: a free value in each (R28, R311, U8, log
entry 2). -/
def freeBuffer (n : Nat) : Nat → Memory
  | 0 => []
  | k + 1 => Memory.write (freeBuffer n k) k (Config.freeByte n (3 + k))

/-- The encoder after an edge with `rst = 1` (R310, R311, R45): control registers at their reset values, data registers
and every entry of the payload buffer free values. -/
def resetEncoder (n : Nat) : Encoder where
  ephase := .collect
  cur := Config.freeByte n 0
  cnt := 0
  litLen := 0
  litRd := 0
  emCnt := Config.freeCount n 0
  emVal := Config.freeByte n 1
  eosPend := false
  litBuf := freeBuffer n Config.litBufDepth

/-- The decoder after an edge with `rst = 1` (R310, R311, R45). -/
def resetDecoder (n : Nat) : Decoder where
  dphase := .hdr
  dcount := Config.freeCount n 1
  dval := Config.freeByte n 2
  endErr := false
  decFault := false
  decFaultCode := 0

/-- An edge with `rst = 1`: both units take the reset state, no token is transferred, and tokens transferred earlier
stay transferred (R310, R312). -/
def resetUnits (s : State) : State :=
  { s with enc := resetEncoder s.env.free, dec := resetDecoder s.env.free, encK := 0, decK := 0 }

end Sys2Proof.Machine
end

