-- ==== Sys2Proof/Machine/Decoder.lean ====
section
/-! DEFINITION. The decoder step by step (spec/43_decoder_steps.md): one definition per step rule R222 to R233, the rule
that applies (R236), and the two transfers of the unit. The spec's sub-blocks (R221) are groups of these: the header
unpacker is `headerFlag` and `headerCount` (Decode.lean) in R222 to R224, the run/literal dispatch is `decRuleIn` with
R228 and R231, the payload streamer is R226 to R233 with `decRuleOut` and `Decoder.offer`. -/

namespace Sys2Proof.Machine

/-- The 12 step rules of the decoder, by the spec's names. -/
inductive DecRule where
  | hdrRun | hdrLit | hdrLit0 | hdrEnd
  | runVal | runVal0 | runTrunc | runOut
  | litIn | litTrunc | litOut
  | endOut
deriving DecidableEq, Repr

/-- R222 HDR-RUN. -/
def decHdrRun (h : Byte) (d : Decoder) : Decoder := { d with dcount := headerCount h, dphase := .runVal }

/-- R223 HDR-LIT. -/
def decHdrLit (h : Byte) (d : Decoder) : Decoder := { d with dcount := headerCount h, dphase := .litIn }

/-- R224 HDR-LIT0. -/
def decHdrLit0 (d : Decoder) : Decoder := { d with dcount := 0 }

/-- R225 HDR-END. -/
def decHdrEnd (d : Decoder) : Decoder := { d with dphase := .endOut }

/-- R226 RUN-VAL. -/
def decRunVal (v : Byte) (d : Decoder) : Decoder := { d with dval := v, dphase := .runOut }

/-- R227 RUN-VAL0. -/
def decRunVal0 (v : Byte) (d : Decoder) : Decoder := { d with dval := v, dphase := .hdr }

/-- R228 RUN-TRUNC. -/
def decRunTrunc (d : Decoder) : Decoder := raiseMalformed .truncRun d

/-- R229 RUN-OUT: the register writes (the token is `Decoder.offer`, R234). -/
def decRunOut (d : Decoder) : Decoder :=
  { d with dcount := d.dcount - 1, dphase := if d.dcount = 1 then .hdr else .runOut }

/-- R230 LIT-IN. -/
def decLitIn (b : Byte) (d : Decoder) : Decoder := { d with dval := b, dphase := .litOut }

/-- R231 LIT-TRUNC. -/
def decLitTrunc (d : Decoder) : Decoder := raiseMalformed .truncLit d

/-- R232 LIT-OUT. -/
def decLitOut (d : Decoder) : Decoder :=
  { d with dcount := d.dcount - 1, dphase := if d.dcount = 1 then .hdr else .litIn }

/-- R233 END-OUT. -/
def decEndOut (d : Decoder) : Decoder := endMessage d

/-- The rule for a token taken in an input phase (R236). -/
def decRuleIn (t : Token) (d : Decoder) : Option DecRule :=
  match d.dphase, t with
  | .hdr, .byte h =>
    if headerFlag h then some .hdrRun
    else if headerCount h = 0 then some .hdrLit0
    else some .hdrLit
  | .hdr, .eom => some .hdrEnd
  | .runVal, .byte _ => if d.dcount = 0 then some .runVal0 else some .runVal
  | .runVal, .eom => some .runTrunc
  | .litIn, .byte _ => some .litIn
  | .litIn, .eom => some .litTrunc
  | .runOut, _ => none
  | .litOut, _ => none
  | .endOut, _ => none

/-- The rule for an output step (R236). With `dcount = 0`, which R235 rules out there, none applies: `dcount` never
wraps (R40). -/
def decRuleOut (d : Decoder) : Option DecRule :=
  match d.dphase with
  | .runOut => if d.dcount = 0 then none else some .runOut
  | .litOut => if d.dcount = 0 then none else some .litOut
  | .endOut => some .endOut
  | .hdr => none
  | .runVal => none
  | .litIn => none

/-- The register writes of a rule; `b` is the byte of the token taken. -/
def decApply (r : DecRule) (b : Byte) (d : Decoder) : Decoder :=
  match r with
  | .hdrRun => decHdrRun b d
  | .hdrLit => decHdrLit b d
  | .hdrLit0 => decHdrLit0 d
  | .hdrEnd => decHdrEnd d
  | .runVal => decRunVal b d
  | .runVal0 => decRunVal0 b d
  | .runTrunc => decRunTrunc d
  | .runOut => decRunOut d
  | .litIn => decLitIn b d
  | .litTrunc => decLitTrunc d
  | .litOut => decLitOut d
  | .endOut => decEndOut d

/-- A rule that exists is applied; where none does, the model stops. -/
def decStep (r : Option DecRule) (b : Byte) (d : Decoder) : Host.Outcome Decoder Fault Refusal :=
  match r with
  | some r => .next (decApply r b d)
  | none => .refused .noStepRule

/-- The guard of each rule in its own words (R222 to R233), `t` being the token taken (`none` for an output step). -/
def decGuard (r : DecRule) (t : Option Token) (d : Decoder) : Bool :=
  match r, t with
  | .hdrRun, some (.byte h) => d.dphase == .hdr && h.getLsbD 7
  | .hdrLit, some (.byte h) => d.dphase == .hdr && !h.getLsbD 7 && 1 ≤ (headerCount h).toNat
  | .hdrLit0, some (.byte h) => d.dphase == .hdr && h == 0
  | .hdrEnd, some .eom => d.dphase == .hdr
  | .runVal, some (.byte _) => d.dphase == .runVal && 1 ≤ d.dcount.toNat
  | .runVal0, some (.byte _) => d.dphase == .runVal && d.dcount == 0
  | .runTrunc, some .eom => d.dphase == .runVal
  | .runOut, none => d.dphase == .runOut
  | .litIn, some (.byte _) => d.dphase == .litIn
  | .litTrunc, some .eom => d.dphase == .litIn
  | .litOut, none => d.dphase == .litOut
  | .endOut, none => d.dphase == .endOut
  | _, _ => false

/-! ### The two transfers of the decoder (R63) -/

/-- Token `t` is presented on `di`: in an input phase it is transferred and the decoder takes a step; in an output phase
`di_ready` is 0 and nothing happens (R63, R64). -/
def takeDi (t : Token) (s : State) : Host.Outcome State Fault Refusal :=
  if s.dec.inReady then
    andThen (decStep (decRuleIn t s.dec) (tokenByte t) s.dec) fun d =>
      .next { s with dec := d, decK := positionAfter t s.decK }
  else .next s

/-- The offered token `t` is transferred on `do` and the decoder takes an output step (R63). -/
def putDo (t : DoToken) (s : State) : Host.Outcome State Fault Refusal :=
  andThen (decStep (decRuleOut s.dec) 0 s.dec) fun d => .next (outputDo t { s with dec := d })

/-- The host accepts the token `t` on `do`. With `do_valid = 0` nothing happens; the token transferred is the one the
port carries, so another one is no transfer of this hardware (R62, R63). -/
def acceptDo (t : DoToken) (s : State) : Host.Outcome State Fault Refusal :=
  match s.dec.offer with
  | some u => if t = u then putDo t s else .refused .notOffered
  | none => .next s

end Sys2Proof.Machine
end

