-- ==== Sys2Proof/Machine/Chunk.lean ====
section
/-! DEFINITION. The chunk instructions RUN and LIT (spec/42_decoder_function.md), executed by the decoder from a chunk
boundary to the next. Each is the sequence of transfers R237 gives it: its bytes are taken on `di` and its output is
put out on `do`, with a host that never stalls (log entry 6). -/

namespace Sys2Proof.Machine

/-- Puts out `n` tokens on `do`, each the one the decoder then offers. -/
def putCopies : Nat → State → Host.Outcome State Fault Refusal
  | 0, s => .next s
  | n + 1, s =>
    match s.dec.offer with
    | some t => andThen (putDo t s) (putCopies n)
    | none => .refused .noStepRule

/-- Takes payload bytes on `di`, each followed by its transfer on `do` (R230, R232). -/
def passPayload : List Byte → State → Host.Outcome State Fault Refusal
  | [], s => .next s
  | b :: bs, s => andThen (takeDi (.byte b) s) fun s1 => andThen (putCopies 1 s1) (passPayload bs)

/-- RUN `count`, `v` (R193): the header is taken by R222, the value by R226 or R227, then `count` copies go out by
R229. -/
def execRun (count : Count) (value : Byte) (s : State) : Host.Outcome State Fault Refusal :=
  if s.dec.dphase = .hdr then
    andThen (takeDi (.byte (runHeader count)) s) fun s1 =>
      andThen (takeDi (.byte value) s1) (putCopies count.toNat)
  else .refused .notAtChunkBoundary

/-- LIT `count`; payload (R194): the header is taken by R223 or R224, then the payload bytes pass through by R230 and
R232. -/
def execLit (count : Count) (payload : List Byte) (s : State) : Host.Outcome State Fault Refusal :=
  if payload.length = count.toNat then
    if s.dec.dphase = .hdr then
      andThen (takeDi (.byte (litHeader count)) s) (passPayload payload)
    else .refused .notAtChunkBoundary
  else .refused .illFormed

end Sys2Proof.Machine
end

