-- ==== Sys2Proof/Machine/Encoder.lean ====
section
/-! DEFINITION. The encoder step by step (spec/41_encoder_steps.md): one definition per step rule R152 to R168, the rule
that applies (R170), and the two transfers of the unit. The spec's sub-blocks (R151) are groups of these: the run/literal
detector is `encRuleIn` with R152 to R162, the payload buffer is `litBuf` with `appendSingle` (Ops.lean) and
`Memory.read` (Operands.lean), the header packer is `encRuleOut` with R163 to R168 and `Encoder.offer`. -/

namespace Sys2Proof.Machine

/-- The 17 step rules of the encoder, by the spec's names. -/
inductive EncRule where
  | first | pair | pairFlush | grow | cap | runClose | single | singleCap
  | endEmpty | endRun | endLit
  | runHdr | runVal | litHdr | litPay | litLast | endOut
deriving DecidableEq, Repr

/-! ### Steps in E_COLLECT, token BYTE(b) -/

/-- R152 FIRST. -/
def encFirst (b : Byte) (e : Encoder) : Encoder := { e with cur := b, cnt := 1 }

/-- R153 PAIR. -/
def encPair (e : Encoder) : Encoder := { e with cnt := 2 }

/-- R154 PAIR-FLUSH. -/
def encPairFlush (e : Encoder) : Encoder := { e with cnt := 2, ephase := .litHdr }

/-- R155 GROW. -/
def encGrow (e : Encoder) : Encoder := { e with cnt := e.cnt + 1 }

/-- R156 CAP. -/
def encCap (e : Encoder) : Encoder := { e with emCnt := 127, emVal := e.cur, cnt := 1, ephase := .runHdr }

/-- R157 RUN-CLOSE. -/
def encRunClose (b : Byte) (e : Encoder) : Encoder :=
  { e with emCnt := e.cnt, emVal := e.cur, cur := b, cnt := 1, ephase := .runHdr }

/-- R158 SINGLE. -/
def encSingle (b : Byte) (e : Encoder) : Host.Outcome Encoder Fault Refusal :=
  andThen (appendSingle e) fun a => .next { a with cur := b, cnt := 1 }

/-- R159 SINGLE-CAP. -/
def encSingleCap (b : Byte) (e : Encoder) : Host.Outcome Encoder Fault Refusal :=
  andThen (appendSingle e) fun a => .next { a with cur := b, cnt := 1, ephase := .litHdr }

/-! ### Steps in E_COLLECT, token END -/

/-- R160 END-EMPTY. -/
def encEndEmpty (e : Encoder) : Encoder := { setEosPend e with ephase := .endOut }

/-- R161 END-RUN. -/
def encEndRun (e : Encoder) : Encoder :=
  { setEosPend e with emCnt := e.cnt, emVal := e.cur, cnt := 0, ephase := .runHdr }

/-- R162 END-LIT. -/
def encEndLit (e : Encoder) : Host.Outcome Encoder Fault Refusal :=
  andThen (appendSingle e) fun a => .next { setEosPend a with cnt := 0, ephase := .litHdr }

/-! ### Steps in the output phases -/

/-- R163 RUN-HDR: the register writes (the token is `Encoder.offer`, R172). -/
def encRunHdr (e : Encoder) : Encoder := { e with ephase := .runVal }

/-- R164 RUN-VAL. -/
def encRunVal (e : Encoder) : Encoder := { e with ephase := afterEmission e }

/-- R165 LIT-HDR. -/
def encLitHdr (e : Encoder) : Encoder := { e with litRd := 0, ephase := .litPay }

/-- R166 LIT-PAY. -/
def encLitPay (e : Encoder) : Encoder := { e with litRd := e.litRd + 1 }

/-- R167 LIT-LAST. -/
def encLitLast (e : Encoder) : Encoder := { e with litLen := 0, litRd := 0, ephase := afterEmission e }

/-- R168 END-OUT. -/
def encEndOut (e : Encoder) : Encoder := { clearEosPend e with ephase := .collect }

/-! ### Which rule applies -/

/-- The rule for a token taken in `E_COLLECT` (R170, the tests the hardware makes). -/
def encRuleIn (t : Token) (e : Encoder) : Option EncRule :=
  match t with
  | .byte b =>
    if e.cnt = 0 then some .first
    else if e.cnt = 1 then
      if b = e.cur then
        if e.litLen = 0 then some .pair else some .pairFlush
      else if e.litLen.toNat ≤ 125 then some .single
      else if e.litLen = 126 then some .singleCap
      else none
    else if b = e.cur then
      if e.cnt = 127 then some .cap else some .grow
    else some .runClose
  | .eom =>
    if e.cnt = 0 then some .endEmpty
    else if e.cnt = 1 then some .endLit
    else some .endRun

/-- The rule for an output step (R170, last paragraph). -/
def encRuleOut (e : Encoder) : Option EncRule :=
  match e.ephase with
  | .collect => none
  | .runHdr => some .runHdr
  | .runVal => some .runVal
  | .litHdr => some .litHdr
  | .litPay => if morePayload e then some .litPay else if lastPayload e then some .litLast else none
  | .endOut => some .endOut

/-- The register writes of a rule. -/
def encApply (r : EncRule) (t : Token) (e : Encoder) : Host.Outcome Encoder Fault Refusal :=
  match r with
  | .first => .next (encFirst (tokenByte t) e)
  | .pair => .next (encPair e)
  | .pairFlush => .next (encPairFlush e)
  | .grow => .next (encGrow e)
  | .cap => .next (encCap e)
  | .runClose => .next (encRunClose (tokenByte t) e)
  | .single => encSingle (tokenByte t) e
  | .singleCap => encSingleCap (tokenByte t) e
  | .endEmpty => .next (encEndEmpty e)
  | .endRun => .next (encEndRun e)
  | .endLit => encEndLit e
  | .runHdr => .next (encRunHdr e)
  | .runVal => .next (encRunVal e)
  | .litHdr => .next (encLitHdr e)
  | .litPay => .next (encLitPay e)
  | .litLast => .next (encLitLast e)
  | .endOut => .next (encEndOut e)

/-- A rule that exists is applied; where none does, the model stops (R170). -/
def encStep (r : Option EncRule) (t : Token) (e : Encoder) : Host.Outcome Encoder Fault Refusal :=
  match r with
  | some r => encApply r t e
  | none => .refused .noStepRule

/-! ### The guards, as the rules write them -/

/-- The guard of each rule in its own words, `t` being the token taken (`none` for an output step). The machine chooses
by `encRuleIn` and `encRuleOut`; that the guards agree with the choice is R170. -/
def encGuard (r : EncRule) (t : Option Token) (e : Encoder) : Bool :=
  match r, t with
  | .first, some (.byte _) => e.ephase == .collect && e.cnt == 0
  | .pair, some (.byte b) => e.ephase == .collect && e.cnt == 1 && b == e.cur && e.litLen == 0
  | .pairFlush, some (.byte b) => e.ephase == .collect && e.cnt == 1 && b == e.cur && 1 ≤ e.litLen.toNat
  | .grow, some (.byte b) => e.ephase == .collect && 2 ≤ e.cnt.toNat && e.cnt.toNat ≤ 126 && b == e.cur
  | .cap, some (.byte b) => e.ephase == .collect && e.cnt == 127 && b == e.cur
  | .runClose, some (.byte b) => e.ephase == .collect && 2 ≤ e.cnt.toNat && b != e.cur
  | .single, some (.byte b) => e.ephase == .collect && e.cnt == 1 && b != e.cur && e.litLen.toNat ≤ 125
  | .singleCap, some (.byte b) => e.ephase == .collect && e.cnt == 1 && b != e.cur && e.litLen == 126
  | .endEmpty, some .eom => e.ephase == .collect && e.cnt == 0
  | .endRun, some .eom => e.ephase == .collect && 2 ≤ e.cnt.toNat
  | .endLit, some .eom => e.ephase == .collect && e.cnt == 1
  | .runHdr, none => e.ephase == .runHdr
  | .runVal, none => e.ephase == .runVal
  | .litHdr, none => e.ephase == .litHdr
  | .litPay, none => e.ephase == .litPay && e.litRd.toNat + 1 < e.litLen.toNat
  | .litLast, none => e.ephase == .litPay && e.litRd.toNat + 1 == e.litLen.toNat
  | .endOut, none => e.ephase == .endOut
  | _, _ => false

/-! ### The two transfers of the encoder (R63) -/

/-- Token `t` is presented on `ei`: in `E_COLLECT` it is transferred and the encoder takes a step; in any other phase
`ei_ready` is 0 and nothing happens (R63, R64). -/
def takeEi (t : Token) (s : State) : Host.Outcome State Fault Refusal :=
  if s.enc.inReady then
    andThen (encStep (encRuleIn t s.enc) t s.enc) fun e =>
      .next { s with enc := e, encK := positionAfter t s.encK }
  else .next s

/-- The offered token `t` is transferred on `eo` and the encoder takes an output step (R63). -/
def putEo (t : Token) (s : State) : Host.Outcome State Fault Refusal :=
  andThen (encStep (encRuleOut s.enc) t s.enc) fun e => .next (outputEo t { s with enc := e })

/-- The host accepts the token `t` on `eo`. With `eo_valid = 0` nothing happens; the token transferred is the one the
port carries, so another one is no transfer of this hardware (R62, R63). -/
def acceptEo (t : Token) (s : State) : Host.Outcome State Fault Refusal :=
  if s.enc.outValid then
    match s.enc.offer with
    | some u => if t = u then putEo t s else .refused .notOffered
    | none => .fault .bufferIndex
  else .next s

end Sys2Proof.Machine
end

