-- ==== Sys2Proof/Machine/Transfer.lean ====
section
/-! DEFINITION. The token instructions: BYTE and END on the ports of format TOKEN, BYTE.do and END.do on port `do`. Each
is one transfer of level S (R63): on an input port the host presents the token, on an output port the host accepts it. -/

namespace Sys2Proof.Machine

/-- BYTE(b) on port `p` (R62, R63): R152 to R159 on `ei`, R163 to R167 on `eo`, R222 to R224, R226, R227, R230 on
`di`. -/
def execByte (p : Port) (b : Byte) (s : State) : Host.Outcome State Fault Refusal :=
  match p with
  | .ei => takeEi (.byte b) s
  | .eo => acceptEo (.byte b) s
  | .di => takeDi (.byte b) s

/-- END on port `p` (R62, R63, R75): R160 to R162 on `ei`, R168 on `eo`, R225, R228, R231 on `di`. -/
def execEndMsg (p : Port) (s : State) : Host.Outcome State Fault Refusal :=
  match p with
  | .ei => takeEi .eom s
  | .eo => acceptEo .eom s
  | .di => takeDi .eom s

/-- BYTE(b) on port `do` (R229, R232). -/
def execByteDo (b : Byte) (s : State) : Host.Outcome State Fault Refusal := acceptDo (.byte b) s

/-- END(err) on port `do` (R233). -/
def execEndDo (err : Bool) (s : State) : Host.Outcome State Fault Refusal := acceptDo (.eom err) s

end Sys2Proof.Machine
end

