-- ==== Sys2Proof/Machine/Dispatch.lean ====
section
/-! DEFINITION. The dispatch: one arm per constructor of `Instr`, each one direct call of its meaning. -/

namespace Sys2Proof.Machine

def exec (i : Instr) (s : State) : Host.Outcome State Fault Refusal :=
  match i with
  -- format CHUNK
  | .lit count payload => Sys2Proof.Machine.execLit count payload s
  | .run count value => Sys2Proof.Machine.execRun count value s
  -- format TOKEN
  | .byte port b => Sys2Proof.Machine.execByte port b s
  | .endMsg port => Sys2Proof.Machine.execEndMsg port s
  -- format TOKEN_DO
  | .byteDo b => Sys2Proof.Machine.execByteDo b s
  | .endDo err => Sys2Proof.Machine.execEndDo err s

end Sys2Proof.Machine
end

