-- ==== Sys2Proof/Machine/Fetch.lean ====
section
/-! DEFINITION. What the next step runs: the tokens transferred at a clock edge (R63), or the next instruction of a
message the host is feeding to a unit, each read from the bits on the port by the decoder of Decode.lean. -/

namespace Sys2Proof.Machine

/-- What a step is to do: whether it is an edge with `rst = 1`, the instructions it runs in turn, and the state after
the host has moved on. -/
structure Fetched where
  rst : Bool
  instrs : List Instr
  after : State
deriving DecidableEq, Repr

/-- The host moves on to `agenda`; the free-value index moves on with every step (log entry 2). -/
def advance (agenda : List HostEvent) (s : State) : State :=
  { s with env := { s.env with agenda := agenda, free := s.env.free + 1 } }

/-- The token on `eo`, read from the lines the encoder drives (R62). -/
def eoInstr (s : State) : Instr := decodeToken .eo s.eoLines

/-- The token on `do`, read from the lines the decoder drives (R62). -/
def doInstr (s : State) : List Instr := (decoded? (decodeDo s.doLines)).toList

/-- The encoder's transfer at an edge with `rst = 0`, if there is one (R63, R64). -/
def encEdge (p : PinsIn) (s : State) : List Instr :=
  if s.enc.inReady then
    if p.eiValid then [decodeToken .ei (tokenLines p.eiEos p.eiData)] else []
  else if p.eoReady then [eoInstr s]
  else []

/-- The decoder's transfer at an edge with `rst = 0`, if there is one (R63, R64). -/
def decEdge (p : PinsIn) (s : State) : List Instr :=
  if s.dec.inReady then
    if p.diValid then [decodeToken .di (tokenLines p.diEos p.diData)] else []
  else if p.doReady then doInstr s
  else []

/-- A rising edge of `clk` (R63, R310). At most one token of each unit is transferred; the two units share nothing, so
the order in which the two instructions run makes no difference (R74). -/
def edgeFetch (p : PinsIn) (rest : List HostEvent) (s : State) : Fetched :=
  if p.rst then ⟨true, [], advance rest s⟩
  else ⟨false, encEdge p s ++ decEdge p s, advance rest s⟩

/-- The input pins while the host has `eo` wired to `di`: the link's four lines come from the units (R78). -/
def wired (p : PinsIn) (s : State) : PinsIn :=
  { p with
    eoReady := s.dec.inReady
    diValid := s.enc.outValid
    diEos := lineEos s.eoLines
    diData := lineData s.eoLines }

/-- The data bytes at the front of a word sequence, up to the first `END`. -/
def leadingBytes : List TokenWord → List Byte
  | [] => []
  | w :: ws => if lineEos w then [] else lineData w :: leadingBytes ws

/-- The next step of a host that feeds `words` to the encoder and never stalls. -/
def feedEncFetch (words : List TokenWord) (rest : List HostEvent) (s : State) : Fetched :=
  if s.enc.inReady then
    match words with
    | [] => ⟨false, [], advance rest s⟩
    | w :: ws => ⟨false, [decodeToken .ei w], advance (.feedEnc ws :: rest) s⟩
  else ⟨false, [eoInstr s], advance (.feedEnc words :: rest) s⟩

/-- One token of the words fed to the decoder. -/
def feedDecToken (words : List TokenWord) (rest : List HostEvent) (s : State) : Fetched :=
  match words with
  | [] => ⟨false, [], advance rest s⟩
  | w :: ws => ⟨false, [decodeToken .di w], advance (.feedDec ws :: rest) s⟩

/-- The next step of a host that feeds `words` to the decoder and never stalls. At a chunk boundary a complete chunk is
fetched and run as one instruction (R191, R195); otherwise one token is transferred. -/
def feedDecFetch (words : List TokenWord) (rest : List HostEvent) (s : State) : Fetched :=
  if s.dec.inReady then
    if s.dec.dphase = .hdr then
      match decodeChunk (leadingBytes words) with
      | .ok (i, more) =>
        ⟨false, [i], advance (.feedDec (words.drop ((leadingBytes words).length - more.length)) :: rest) s⟩
      | .error _ => feedDecToken words rest s
    else feedDecToken words rest s
  else ⟨false, doInstr s, advance (.feedDec words :: rest) s⟩

/-- What the next step runs. With nothing on the agenda the host drives every pin low: an edge without a transfer. -/
def fetch (s : State) : Fetched :=
  match s.env.agenda with
  | [] => ⟨false, [], advance [] s⟩
  | .edge p :: rest => edgeFetch p rest s
  | .loopEdge p :: rest => edgeFetch (wired p s) rest s
  | .feedEnc words :: rest => feedEncFetch words rest s
  | .feedDec words :: rest => feedDecFetch words rest s

/-! ### Placing an instruction (log entry 9) -/

/-- An edge at which the host drives every pin low. -/
def quietPins : PinsIn := ⟨false, false, false, 0, false, false, false, 0, false⟩

/-- Puts `e` in front of what the host does next. -/
def planned (e : HostEvent) (s : State) : State :=
  { s with env := { s.env with agenda := e :: s.env.agenda } }

/-- The words that carry bytes on a port. -/
def byteWords (bytes : List Byte) : List TokenWord := bytes.map fun b => tokenWord (.byte b)

/-- The words of a whole message: its bytes, then `END` (R14). -/
def messageWords (body : List Byte) : List TokenWord := byteWords body ++ [tokenWord .eom]

/-- Sets all it takes for the very next step to run `i`: the host's move, and the phase of the unit that the transfer is
a step of; for a token of an output port also the register it is offered from. -/
def placeInstr (i : Instr) (w : TokenWord) (s : State) : State :=
  match i with
  | .lit count payload =>
    planned (.feedDec (byteWords (litHeader count :: payload))) { s with dec := { s.dec with dphase := .hdr } }
  | .run count value =>
    planned (.feedDec (byteWords [runHeader count, value])) { s with dec := { s.dec with dphase := .hdr } }
  | .byte _ _ =>
    planned (.edge { quietPins with eiValid := true, eiEos := lineEos w, eiData := lineData w })
      { s with enc := { s.enc with ephase := .collect } }
  | .endMsg _ =>
    planned (.edge { quietPins with eiValid := true, eiEos := lineEos w, eiData := lineData w })
      { s with enc := { s.enc with ephase := .collect } }
  | .byteDo b =>
    planned (.edge { quietPins with doReady := true })
      { s with dec := { s.dec with dphase := .runOut, dval := b, dcount := if s.dec.dcount = 0 then 1 else s.dec.dcount } }
  | .endDo err =>
    planned (.edge { quietPins with doReady := true })
      { s with dec := { s.dec with dphase := .endOut, endErr := err } }

end Sys2Proof.Machine
end

