-- ==== Sys2Proof/Machine/Step.lean ====
section
/-! DEFINITION. One step: an edge with `rst = 1`, or the instructions fetched, run in turn. -/

namespace Sys2Proof.Machine

/-- Runs instructions in turn, stopping at the first fault or refusal. -/
def execAll : List Instr → State → Host.Outcome State Fault Refusal
  | [], s => .next s
  | i :: is, s => andThen (exec i s) (execAll is)

/-- What is fetched is done: reset has priority over every step rule (R310). -/
def runFetched (f : Fetched) : Host.Outcome State Fault Refusal :=
  if f.rst then .next (resetUnits f.after) else execAll f.instrs f.after

/-- One step of CORE and its host. -/
def step (s : State) : Host.Outcome State Fault Refusal := runFetched (fetch s)

/-- `s` with the instruction of table word `w` stored where the next step fetches it (log entry 9). -/
def State.withFetchWord (s : State) (nbits w : Nat) : State :=
  match decodeTableWord nbits w with
  | some i => placeInstr i (BitVec.ofNat 9 w) s
  | none => s

end Sys2Proof.Machine
end

