-- ==== Sys2Proof/Machine/Stream.lean ====
section
/-! DEFINITION. Level F (R8): ENCODE and DECODE as functions of a whole byte sequence, the chunk sequences and streams
they speak of, the encoder's second description by run structure, and the canonical chunk sequences. -/

namespace Sys2Proof.Machine

/-! ### ENCODE (spec/40_encoder_function.md) -/

/-- How many of the first `n` bytes, from the front and without a gap, equal `v`: the scan of R121. -/
def countEqual (v : Byte) : Nat → List Byte → Nat
  | 0, _ => 0
  | _ + 1, [] => 0
  | n + 1, b :: bs => if b = v then countEqual v n bs + 1 else 0

/-- `runlen(data, i)`, `data` given from position `i` on (R121). -/
def runLen : List Byte → Nat
  | [] => 0
  | v :: bs => 1 + countEqual v (Config.cap - 1) bs

/-- How many of the bytes after the first one a literal segment absorbs, at most `n`: the byte at `j` joins when it is
the last of the input or differs from its successor (R123, conflict C6). -/
def absorb : Nat → List Byte → Nat
  | 0, _ => 0
  | _ + 1, [] => 0
  | _ + 1, [_] => 1
  | n + 1, b :: c :: bs => if b = c then 0 else absorb n (c :: bs) + 1

/-- The length of the literal segment that begins at the front (R123). -/
def litSpan : List Byte → Nat
  | [] => 0
  | _ :: bs => 1 + absorb (Config.cap - 1) bs

/-- One pass of the loop at a nonempty rest of the input: the chunk emitted (R122, R123). -/
def nextChunk (data : List Byte) : Instr :=
  if Config.runMin ≤ runLen data then .run (BitVec.ofNat 7 (runLen data)) (data.headD 0)
  else .lit (BitVec.ofNat 7 (litSpan data)) (data.take (litSpan data))

/-- By how much a pass advances the position (R122, R123). -/
def nextAdvance (data : List Byte) : Nat :=
  if Config.runMin ≤ runLen data then runLen data else litSpan data

/-- The loop of R124, at most `n` passes. -/
def encodeLoop : Nat → List Byte → List Instr
  | 0, _ => []
  | _ + 1, [] => []
  | n + 1, b :: bs => nextChunk (b :: bs) :: encodeLoop n ((b :: bs).drop (nextAdvance (b :: bs)))

/-- The chunks of `encode(data)`; as many passes as there are bytes are enough (R124). -/
def encodeChunks (data : List Byte) : List Instr := encodeLoop data.length data

/-- A stream: the bytes of chunks one after the other (R68, R69). -/
def streamBytes (cs : List Instr) : List Byte := cs.flatMap chunkBytes

/-- `encode(data)` (R120, R130). -/
def encodeBytes (data : List Byte) : List Byte := streamBytes (encodeChunks data)

/-! ### DECODE (spec/42_decoder_function.md) -/

/-- What DECODE gives: `Ok(out)`, or `Err(code, out)` with the bytes produced before the error (R190). -/
inductive DecodeResult where
  | ok (out : List Byte)
  | err (cause : Cause) (out : List Byte)
deriving DecidableEq, Repr

/-- The loop of R198, at most `n` passes; `out` is the output so far. -/
def decodeLoop : Nat → List Byte → List Byte → DecodeResult
  | 0, _, out => .ok out
  | _ + 1, [], out => .ok out
  | n + 1, h :: rest, out =>
    if headerFlag h then
      match rest with
      | [] => .err .truncRun out
      | v :: more => decodeLoop n more (out ++ List.replicate (headerCount h).toNat v)
    else if rest.length < (headerCount h).toNat then .err .truncLit (out ++ rest)
    else decodeLoop n (rest.drop (headerCount h).toNat) (out ++ rest.take (headerCount h).toNat)

/-- `decode(s)` (R190, R198). -/
def decodeBytes (s : List Byte) : DecodeResult := decodeLoop s.length s []

/-- The output a result carries. -/
def DecodeResult.out : DecodeResult → List Byte
  | .ok out => out
  | .err _ out => out

/-! ### Streams (R102) -/

/-- The two chunk kinds, well formed. -/
def isChunk (i : Instr) : Bool :=
  match i with
  | .lit count payload => (Instr.lit count payload).wf
  | .run _ _ => true
  | .byte _ _ => false
  | .endMsg _ => false
  | .byteDo _ => false
  | .endDo _ => false

/-- What the decoder puts out for a chunk (R193, R194). -/
def chunkOutput : Instr → List Byte
  | .lit _ payload => payload
  | .run count value => List.replicate count.toNat value
  | .byte _ _ => []
  | .endMsg _ => []
  | .byteDo _ => []
  | .endDo _ => []

/-- A well-formed stream: a concatenation of complete chunks (R102). -/
def WellFormedStream (s : List Byte) : Prop :=
  ∃ cs : List Instr, (∀ c ∈ cs, isChunk c = true) ∧ s = streamBytes cs

/-! ### ENCODE by run structure (R131) -/

/-- The items of R131. -/
inductive Item where
  | run (count : Nat) (value : Byte)
  | single (value : Byte)
deriving DecidableEq, Repr

/-- The items of one maximal block of `len` bytes `v`. -/
def blockItems (v : Byte) (len : Nat) : List Item :=
  List.replicate (len / Config.cap) (Item.run Config.cap v) ++
    if 2 ≤ len % Config.cap then [Item.run (len % Config.cap) v]
    else if len % Config.cap = 1 then [Item.single v]
    else []

/-- The maximal blocks of equal adjacent bytes, each with its length. -/
def blocks : List Byte → List (Byte × Nat)
  | [] => []
  | b :: bs =>
    match blocks bs with
    | [] => [(b, 1)]
    | (v, n) :: rest => if b = v then (v, n + 1) :: rest else (b, 1) :: (v, n) :: rest

/-- Pieces of `Config.cap` bytes cut from the front, the last holding what is left; at most `n` pieces. -/
def pieces : Nat → List Byte → List (List Byte)
  | 0, _ => []
  | _ + 1, [] => []
  | n + 1, b :: bs => (b :: bs).take Config.cap :: pieces n ((b :: bs).drop Config.cap)

/-- A maximal sequence of singles as LIT chunks. -/
def litChunks (singles : List Byte) : List Instr :=
  (pieces singles.length singles).map fun p => .lit (BitVec.ofNat 7 p.length) p

/-- The chunks of an item sequence; `held` are the singles not yet written. -/
def itemChunks : List Byte → List Item → List Instr
  | held, [] => litChunks held
  | held, .single v :: items => itemChunks (held ++ [v]) items
  | held, .run count v :: items => litChunks held ++ .run (BitVec.ofNat 7 count) v :: itemChunks [] items

/-- `encode(data)` as R131 describes it. -/
def encodeByRuns (data : List Byte) : List Instr :=
  itemChunks [] ((blocks data).flatMap fun vn => blockItems vn.1 vn.2)

/-! ### Canonical chunk sequences (R273) -/

/-- Conditions (a) and (b) of R273 on one chunk. -/
def canonicalChunk : Instr → Prop
  | .run count _ => 2 ≤ count.toNat
  | .lit count payload => 1 ≤ count.toNat ∧ payload.length = count.toNat ∧ payload.IsChain (· ≠ ·)
  | .byte _ _ => False
  | .endMsg _ => False
  | .byteDo _ => False
  | .endDo _ => False

/-- Conditions (c) and (d) of R273 on a chunk and the next one. -/
def canonicalNext (c d : Instr) : Prop :=
  match c with
  | .lit count payload =>
    payload.getLast? ≠ (chunkOutput d).head? ∧ (∀ n p, d = .lit n p → count = 127)
  | .run count value => count.toNat < Config.cap → (chunkOutput d).head? ≠ some value
  | .byte _ _ => False
  | .endMsg _ => False
  | .byteDo _ => False
  | .endDo _ => False

/-- The chunk sequences R273 calls canonical. -/
def Canonical (cs : List Instr) : Prop := (∀ c ∈ cs, canonicalChunk c) ∧ cs.IsChain canonicalNext

end Sys2Proof.Machine
end

