-- ==== Sys2Proof/Safety.lean ====
section
/-! DEFINITION. What the claims speak of: the reset state, idleness, the invariants of the two units, what the encoder
still owes, which registers a step can depend on, and runs of clock edges with the tokens they transfer. -/

namespace Sys2Proof.Machine

/-! ### Reset and idleness -/

/-- The encoder's registers that R45 gives a reset value hold it. -/
structure Encoder.ResetValues (e : Encoder) : Prop where
  ephase : e.ephase = .collect
  cnt : e.cnt = 0
  litLen : e.litLen = 0
  litRd : e.litRd = 0
  eosPend : e.eosPend = false

/-- The decoder's registers that R45 gives a reset value hold it. -/
structure Decoder.ResetValues (d : Decoder) : Prop where
  dphase : d.dphase = .hdr
  endErr : d.endErr = false
  decFault : d.decFault = false
  decFaultCode : d.decFaultCode = 0

/-- The reset state of R311: every register with a reset value holds it, the ghost positions are 0. -/
structure AtReset (s : State) : Prop where
  enc : s.enc.ResetValues
  dec : s.dec.ResetValues
  encK : s.encK = 0
  decK : s.decK = 0

/-- The encoder is idle (R42). -/
abbrev EncIdle (e : Encoder) : Prop := e.ephase = .collect ∧ e.cnt = 0

/-- The decoder is idle (R42). -/
abbrev DecIdle (d : Decoder) : Prop := d.dphase = .hdr

/-! ### Invariants -/

/-- What `cnt` is while a literal chunk goes out, or with `two = false` a run chunk (R169). -/
abbrev pendingCount (e : Encoder) (two : Bool) : Prop :=
  if e.eosPend = true then e.cnt = 0 else e.cnt = 1 ∨ (two = true ∧ e.cnt = 2)

/-- The invariants of the encoder (R169, one field a row or part of one), with the canonical form of the buffer. -/
structure EncInv (e : Encoder) : Prop where
  litRd : e.litRd.toNat ≤ 126
  collectFlags : e.ephase = .collect → e.eosPend = false ∧ e.litRd = 0
  collectLen : e.ephase = .collect → e.litLen.toNat ≤ 126
  collectEmpty : e.ephase = .collect → e.cnt ≠ 1 → e.litLen = 0
  runOut : e.ephase = .runHdr ∨ e.ephase = .runVal →
    2 ≤ e.emCnt.toNat ∧ e.litLen = 0 ∧ e.litRd = 0 ∧ pendingCount e false
  litHdr : e.ephase = .litHdr → 1 ≤ e.litLen.toNat ∧ e.litRd = 0 ∧ pendingCount e true
  litPay : e.ephase = .litPay → e.litRd.toNat < e.litLen.toNat ∧ pendingCount e true
  endOut : e.ephase = .endOut → e.eosPend = true ∧ e.cnt = 0 ∧ e.litLen = 0 ∧ e.litRd = 0
  noPair : e.ephase = .collect ∨ e.ephase = .litHdr ∨ e.ephase = .litPay →
    ∀ k < e.litLen.toNat, k + 1 < e.litLen.toNat → Memory.read e.litBuf k ≠ Memory.read e.litBuf (k + 1)
  lastDiffers : e.ephase = .collect → e.cnt ≠ 0 → 1 ≤ e.litLen.toNat →
    Memory.read e.litBuf (e.litLen.toNat - 1) ≠ e.cur
  bufWf : Memory.wf e.litBuf

/-- The invariants of the decoder (R235). -/
structure DecInv (d : Decoder) : Prop where
  noCode : d.decFault = false → d.decFaultCode = 0
  code : d.decFault = true → d.decFaultCode = 1 ∨ d.decFaultCode = 2
  endErr : d.dphase ≠ .endOut → d.endErr = false
  dcount : d.dphase = .runOut ∨ d.dphase = .litIn ∨ d.dphase = .litOut → 1 ≤ d.dcount.toNat

/-- The invariant of the machine. -/
structure Inv (s : State) : Prop where
  enc : EncInv s.enc
  dec : DecInv s.dec

/-! ### What the encoder holds and owes (R37, R171) -/

/-- The bytes `lit_buf[0..lit_len)`. -/
def heldBytes (e : Encoder) : List Byte :=
  (List.range e.litLen.toNat).map fun k => Memory.read e.litBuf k

/-- `pend` of R171, the bytes still owed in `E_COLLECT` after what has been put out. -/
def owedBytes (e : Encoder) : List Byte :=
  if e.cnt = 0 then []
  else if e.cnt = 1 then litHeader (e.litLen + 1) :: heldBytes e ++ [e.cur]
  else [runHeader e.cnt, e.cur]

/-! ### Which registers a step can depend on (R41) -/

/-- The two encoders agree wherever R41 lets a later step read. -/
structure EncAgree (e f : Encoder) : Prop where
  ephase : e.ephase = f.ephase
  cnt : e.cnt = f.cnt
  litLen : e.litLen = f.litLen
  litRd : e.litRd = f.litRd
  eosPend : e.eosPend = f.eosPend
  cur : e.cnt ≠ 0 → e.cur = f.cur
  emCnt : e.ephase = .runHdr → e.emCnt = f.emCnt
  emVal : e.ephase = .runHdr ∨ e.ephase = .runVal → e.emVal = f.emVal
  litBuf : ∀ k < e.litLen.toNat, Memory.read e.litBuf k = Memory.read f.litBuf k

/-- The two decoders agree wherever R41 lets a later step read. -/
structure DecAgree (d f : Decoder) : Prop where
  dphase : d.dphase = f.dphase
  endErr : d.endErr = f.endErr
  decFault : d.decFault = f.decFault
  decFaultCode : d.decFaultCode = f.decFaultCode
  dcount : d.dphase = .runVal ∨ d.dphase = .runOut ∨ d.dphase = .litIn ∨ d.dphase = .litOut → d.dcount = f.dcount
  dval : d.dphase = .runOut ∨ d.dphase = .litOut → d.dval = f.dval

/-- The two states agree wherever R41 lets a later step read. -/
structure Agree (s t : State) : Prop where
  enc : EncAgree s.enc t.enc
  dec : DecAgree s.dec t.dec
  encK : s.encK = t.encK
  decK : s.decK = t.decK
  env : s.env = t.env

/-! ### Instructions by unit -/

/-- The instructions that are a step of the encoder. -/
def isEncInstr : Instr → Bool
  | .byte .ei _ => true
  | .byte .eo _ => true
  | .byte .di _ => false
  | .endMsg .ei => true
  | .endMsg .eo => true
  | .endMsg .di => false
  | .lit _ _ => false
  | .run _ _ => false
  | .byteDo _ => false
  | .endDo _ => false

/-! ### Runs of clock edges (R63, R66) -/

/-- The tokens transferred on `ei` at one edge: none when `rst = 1`. -/
def eiTransfers (p : PinsIn) (s : State) : List Token :=
  if !p.rst && s.enc.inReady && p.eiValid then [wordToken (tokenLines p.eiEos p.eiData)] else []

/-- The tokens transferred on `di` at one edge: none when `rst = 1`. -/
def diTransfers (p : PinsIn) (s : State) : List Token :=
  if !p.rst && s.dec.inReady && p.diValid then [wordToken (tokenLines p.diEos p.diData)] else []

/-- What a run of edges has done: the tokens taken on the two input ports, and the state at its end. -/
structure EdgeRun where
  eiTaken : List Token
  diTaken : List Token
  last : State
deriving DecidableEq, Repr

/-- Runs the machine over clock edges with the given pins; `link` says whether the host has `eo` wired to `di` (R78).
`none` where a step stops. -/
def runEdges (link : Bool) : List PinsIn → State → Option EdgeRun
  | [], s => some ⟨[], [], s⟩
  | p :: ps, s =>
    let event := if link then HostEvent.loopEdge p else HostEvent.edge p
    let pins := if link then wired p s else p
    match step { s with env := { s.env with agenda := [event] } } with
    | .next t =>
      (runEdges link ps t).map fun r =>
        ⟨eiTransfers pins s ++ r.eiTaken, diTransfers pins s ++ r.diTaken, r.last⟩
    | .fault _ => none
    | .refused _ => none

/-- The tokens of a whole message (R14). -/
def messageTokens (body : List Byte) : List Token := body.map Token.byte ++ [Token.eom]

/-- The pins of an edge at the front of the agenda: those the host gives, or those of the loop-back wiring (R78). -/
def NextEdge (s : State) (p : PinsIn) (rest : List HostEvent) : Prop :=
  s.env.agenda = .edge p :: rest ∨ ∃ q, s.env.agenda = .loopEdge q :: rest ∧ p = wired q s

/-! ### A whole message (R132, R202) -/

/-- What R132 says of the states before and after the message with body `data` has gone through the encoder. -/
structure EncodesMessage (data : List Byte) (s t : State) : Prop where
  out : t.env.eoOut = s.env.eoOut ++ (encodeBytes data).map Token.byte ++ [Token.eom]
  idle : EncIdle t.enc
  encK : t.encK = 0

/-- What R202 says of the states before and after the message with body `body` has gone through the decoder. -/
structure DecodesMessage (body : List Byte) (s t : State) : Prop where
  ok : ∀ out, decodeBytes body = .ok out →
    t.env.doOut = s.env.doOut ++ out.map DoToken.byte ++ [DoToken.eom false] ∧
    t.dec.decFault = s.dec.decFault ∧ t.dec.decFaultCode = s.dec.decFaultCode
  err : ∀ c out, decodeBytes body = .err c out →
    t.env.doOut = s.env.doOut ++ out.map DoToken.byte ++ [DoToken.eom true] ∧
    t.dec.decFault = true ∧
    t.dec.decFaultCode = if s.dec.decFault = true then s.dec.decFaultCode else causeCode c
  idle : DecIdle t.dec
  decK : t.decK = 0

end Sys2Proof.Machine
end

