-- ==== Sys2Proof/Certificates/Slice0/Obligations.lean ====
section
/-! DEFINITION. The statements for the provers. Each docstring names the rule of spec/ the statement formalises. A
statement written as an equation `exec i s = .next {…}` gives the result, the frame and the completion at once: every
register, flag, buffer entry, position and output that the record does not name is unchanged. -/

open Sys2Proof Sys2Proof.Machine

/-! ### Reset and pins -/

/-- R45: every register that the table of R45 gives a value has it after reset, both ghost positions are 0, and both
units are idle with the pins that shows. The registers R45 leaves unspecified are not spoken of. -/
def Obligations.ResetStateIsIdle : Prop :=
  State.reset.enc.ResetValues ∧ State.reset.dec.ResetValues ∧ State.reset.encK = 0 ∧ State.reset.decK = 0 ∧
  EncIdle State.reset.enc ∧ DecIdle State.reset.dec ∧
  State.reset.pins.eiReady = true ∧ State.reset.pins.eoValid = false ∧
  State.reset.pins.diReady = true ∧ State.reset.pins.doValid = false

/-- R169, R235 ("they hold after reset"), with the model's own clause on the buffer's list (log entry 4): the invariant that
`StepKeepsInvariant` carries holds at reset. -/
def Obligations.ResetMeetsInvariant : Prop := Inv State.reset

/-- R310, R312: at an edge with `rst = 1`, whatever the other pins and whether or not `eo` is wired to `di`, both units
take the reset state, no token is transferred on any port, and tokens transferred earlier stay transferred. -/
def Obligations.ResetEdgeWins : Prop :=
  ∀ (s : State) (p : PinsIn) (rest : List HostEvent), p.rst = true →
    (s.env.agenda = .edge p :: rest ∨ s.env.agenda = .loopEdge p :: rest) →
    ∃ t, step s = .next t ∧ AtReset t ∧ t.env.agenda = rest ∧
      t.env.eoOut = s.env.eoOut ∧ t.env.doOut = s.env.doOut ∧
      t.pins.eiReady = true ∧ t.pins.eoValid = false ∧ t.pins.diReady = true ∧ t.pins.doValid = false ∧
      t.pins.decFault = false ∧ t.pins.decFaultCode = 0

/-- R64: the ready and valid pins by phase, never both and never neither; all pins are a function of the registers only;
at most one transfer per unit at an edge. -/
def Obligations.ReadyValidByPhase : Prop :=
  ∀ s : State,
    (s.pins.eiReady = true ↔ s.enc.ephase = .collect) ∧
    (s.pins.eoValid = true ↔ s.enc.ephase ≠ .collect) ∧
    (s.pins.diReady = true ↔ s.dec.dphase = .hdr ∨ s.dec.dphase = .runVal ∨ s.dec.dphase = .litIn) ∧
    (s.pins.doValid = true ↔ s.dec.dphase = .runOut ∨ s.dec.dphase = .litOut ∨ s.dec.dphase = .endOut) ∧
    s.pins.eoValid = !s.pins.eiReady ∧ s.pins.doValid = !s.pins.diReady ∧
    (∀ t : State, t.enc = s.enc → t.dec = s.dec → t.pins = s.pins) ∧
    (∀ p : PinsIn, (encEdge p s).length ≤ 1 ∧ (decEdge p s).length ≤ 1)

/-- R172: the encoder's pins in each phase (in `E_LIT_PAY`, for every `lit_rd` of its range, R26). -/
def Obligations.EncoderPinTable : Prop :=
  ∀ s : State,
    (s.enc.ephase = .collect → s.pins.eiReady = true ∧ s.pins.eoValid = false) ∧
    (s.enc.ephase = .runHdr → s.pins.eiReady = false ∧ s.pins.eoValid = true ∧ s.pins.eoEos = false ∧
      s.pins.eoData = 0x80#8 ||| s.enc.emCnt.setWidth 8) ∧
    (s.enc.ephase = .runVal → s.pins.eiReady = false ∧ s.pins.eoValid = true ∧ s.pins.eoEos = false ∧
      s.pins.eoData = s.enc.emVal) ∧
    (s.enc.ephase = .litHdr → s.pins.eiReady = false ∧ s.pins.eoValid = true ∧ s.pins.eoEos = false ∧
      s.pins.eoData = s.enc.litLen.setWidth 8) ∧
    (s.enc.ephase = .litPay → s.pins.eiReady = false ∧ s.pins.eoValid = true ∧
      (s.enc.litRd.toNat ≤ 126 →
        s.pins.eoEos = false ∧ s.pins.eoData = Memory.read s.enc.litBuf s.enc.litRd.toNat)) ∧
    (s.enc.ephase = .endOut → s.pins.eiReady = false ∧ s.pins.eoValid = true ∧ s.pins.eoEos = true ∧
      s.pins.eoData = 0)

/-- R234: the decoder's pins in each phase; the status pins show their registers in every phase. -/
def Obligations.DecoderPinTable : Prop :=
  ∀ s : State,
    (s.dec.dphase = .hdr ∨ s.dec.dphase = .runVal ∨ s.dec.dphase = .litIn →
      s.pins.diReady = true ∧ s.pins.doValid = false) ∧
    (s.dec.dphase = .runOut ∨ s.dec.dphase = .litOut →
      s.pins.diReady = false ∧ s.pins.doValid = true ∧ s.pins.doEos = false ∧ s.pins.doErr = false ∧
      s.pins.doData = s.dec.dval) ∧
    (s.dec.dphase = .endOut →
      s.pins.diReady = false ∧ s.pins.doValid = true ∧ s.pins.doEos = true ∧ s.pins.doErr = s.dec.endErr ∧
      s.pins.doData = 0) ∧
    s.pins.decFault = s.dec.decFault ∧ s.pins.decFaultCode = s.dec.decFaultCode

/-! ### Clock edges -/

/-- R63: at an edge with `rst = 0` a unit without a transfer on either of its ports keeps its state; when neither unit
has one, the step completes and nothing but the host's agenda (and the model's free-value index) moves. The pins are
those the host gives, or those of the loop-back wiring. -/
def Obligations.EdgeWithoutTransferKeepsUnit : Prop :=
  ∀ (s : State) (p : PinsIn) (rest : List HostEvent), NextEdge s p rest → p.rst = false →
    (¬ (s.pins.eiReady = true ∧ p.eiValid = true) → ¬ (s.pins.eoValid = true ∧ p.eoReady = true) →
      ∀ t, step s = .next t → t.enc = s.enc ∧ t.encK = s.encK ∧ t.env.eoOut = s.env.eoOut) ∧
    (¬ (s.pins.diReady = true ∧ p.diValid = true) → ¬ (s.pins.doValid = true ∧ p.doReady = true) →
      ∀ t, step s = .next t → t.dec = s.dec ∧ t.decK = s.decK ∧ t.env.doOut = s.env.doOut) ∧
    (¬ (s.pins.eiReady = true ∧ p.eiValid = true) → ¬ (s.pins.eoValid = true ∧ p.eoReady = true) →
      ¬ (s.pins.diReady = true ∧ p.diValid = true) → ¬ (s.pins.doValid = true ∧ p.doReady = true) →
      step s = .next { s with env := { s.env with agenda := rest, free := s.env.free + 1 } })

/-- R65: an offered token stays offered, and a raised ready stays raised, until a token is transferred on that port or
`rst` is asserted; also when `eo` is wired to `di`. -/
def Obligations.OfferStaysUntilTaken : Prop :=
  ∀ (s t : State) (p : PinsIn) (rest : List HostEvent),
    NextEdge s p rest → p.rst = false → step s = .next t →
    (s.pins.eoValid = true → p.eoReady = false → t.pins.eoValid = true ∧ t.enc.offer = s.enc.offer) ∧
    (s.pins.doValid = true → p.doReady = false → t.pins.doValid = true ∧ t.dec.offer = s.dec.offer) ∧
    (s.pins.eiReady = true → p.eiValid = false → t.pins.eiReady = true) ∧
    (s.pins.diReady = true → p.diValid = false → t.pins.diReady = true)

/-- A step runs the instruction the decoder reads from the bits. At a clock edge it is the token on the port whose
handshake is complete (R63, R91), with the host moved on. The other clauses are THE MODEL'S CHOICE, no rule of the spec:
that, when each unit has a transfer at one edge, the encoder's instruction runs first (log entry 7; R74 (d) says the
order cannot be observed); that a host feeding the encoder gives it one token a step (log entry 7); and that, in a message
fed to the decoder, at a chunk boundary, one step runs the whole chunk the bytes decode to (log entries 6 and 7). -/
def Obligations.StepRunsDecodedInstruction : Prop :=
  ∀ (s : State) (p : PinsIn) (rest : List HostEvent),
    (NextEdge s p rest → p.rst = false →
      (s.pins.eiReady = true → p.eiValid = true → decEdge p s = [] →
        step s = exec (decodeToken .ei (tokenLines p.eiEos p.eiData)) (advance rest s)) ∧
      (s.pins.diReady = true → p.diValid = true → encEdge p s = [] →
        step s = exec (decodeToken .di (tokenLines p.diEos p.diData)) (advance rest s)) ∧
      (∀ t, s.enc.offer = some t → p.eoReady = true → decEdge p s = [] →
        step s = exec (t.on .eo) (advance rest s)) ∧
      (∀ t, s.dec.offer = some t → p.doReady = true → encEdge p s = [] →
        step s = exec t.onDo (advance rest s)) ∧
      (∀ i j, encEdge p s = [i] → decEdge p s = [j] →
        step s = andThen (exec i (advance rest s)) (exec j))) ∧
    (∀ (bytes : List Byte) (more : List TokenWord) (i : Instr),
      s.env.agenda = .feedDec (byteWords bytes ++ more) :: rest → s.dec.dphase = .hdr →
      decode (.chunk bytes) = .ok i → step s = exec i (advance (.feedDec more :: rest) s)) ∧
    (∀ (w : TokenWord) (ws : List TokenWord),
      s.env.agenda = .feedEnc (w :: ws) :: rest → s.pins.eiReady = true →
      step s = exec (decodeToken .ei w) (advance (.feedEnc ws :: rest) s))

/-- R78 and vector P9: with `eo` wired to `di`, a token crosses the link at an edge exactly when the encoder offers it
and the decoder is ready, and then it is at once an output step of the encoder and an input step of the decoder. -/
def Obligations.LinkTransferIsOneToken : Prop :=
  ∀ (s s' : State) (p : PinsIn) (rest : List HostEvent) (t : Token),
    s.env.agenda = .loopEdge p :: rest → p.rst = false → s.enc.offer = some t → step s = .next s' →
    (s.pins.diReady = true → s'.env.eoOut = s.env.eoOut ++ [t] ∧
      decStep (decRuleIn t s.dec) (tokenByte t) s.dec = .next s'.dec) ∧
    (s.pins.diReady = false → s'.env.eoOut = s.env.eoOut ∧ s'.enc = s.enc)

/-- R66 for the encoder: the registers and the output tokens depend on the sequence of tokens transferred on `ei` and
on nothing else the host does. Two runs of edges without reset from one state that transfer the same tokens, and both
end with the encoder ready for input, end with the same encoder and the same tokens put out. -/
def Obligations.EncoderIgnoresStalls : Prop :=
  ∀ (s : State) (ps qs : List PinsIn) (r q : EdgeRun),
    (∀ p ∈ ps, p.rst = false) → (∀ p ∈ qs, p.rst = false) →
    runEdges false ps s = some r → runEdges false qs s = some q → r.eiTaken = q.eiTaken →
    r.last.enc.ephase = .collect → q.last.enc.ephase = .collect →
    r.last.enc = q.last.enc ∧ r.last.env.eoOut = q.last.env.eoOut

/-- R66 for the decoder. -/
def Obligations.DecoderIgnoresStalls : Prop :=
  ∀ (s : State) (ps qs : List PinsIn) (r q : EdgeRun),
    (∀ p ∈ ps, p.rst = false) → (∀ p ∈ qs, p.rst = false) →
    runEdges false ps s = some r → runEdges false qs s = some q → r.diTaken = q.diTaken →
    r.last.dec.inReady = true → q.last.dec.inReady = true →
    r.last.dec = q.last.dec ∧ r.last.env.doOut = q.last.env.doOut

/-- What a transfer that cannot happen does. A token presented on a port whose ready is 0, and a host that accepts while
valid is 0, change nothing (R63). The model's own conventions (Refusal's docstrings, log entry 5): accepting a token
other than the one offered is refused. -/
def Obligations.NoHandshakeNoTransfer : Prop :=
  ∀ (s : State) (b : Byte) (err : Bool) (t : Token) (u : DoToken),
    (s.pins.eiReady = false → exec (t.on .ei) s = .next s) ∧
    (s.pins.diReady = false → exec (t.on .di) s = .next s) ∧
    (s.pins.eoValid = false → exec (t.on .eo) s = .next s) ∧
    (s.pins.doValid = false → exec (.byteDo b) s = .next s ∧ exec (.endDo err) s = .next s) ∧
    (∀ o, s.enc.offer = some o → t ≠ o → exec (t.on .eo) s = .refused .notOffered) ∧
    (∀ o, s.dec.offer = some o → u ≠ o → exec u.onDo s = .refused .notOffered)

/-! ### The encoder's step rules -/

/-- R152 FIRST, R153 PAIR, R155 GROW. -/
def Obligations.EncoderCandidateGrows : Prop :=
  ∀ (b : Byte) (s : State), s.enc.ephase = .collect →
    (s.enc.cnt = 0 →
      exec (.byte .ei b) s = .next { s with enc := { s.enc with cur := b, cnt := 1 }, encK := s.encK + 1 }) ∧
    (s.enc.cnt = 1 → b = s.enc.cur → s.enc.litLen = 0 →
      exec (.byte .ei b) s = .next { s with enc := { s.enc with cnt := 2 }, encK := s.encK + 1 }) ∧
    (2 ≤ s.enc.cnt.toNat → s.enc.cnt.toNat ≤ 126 → b = s.enc.cur →
      exec (.byte .ei b) s = .next { s with enc := { s.enc with cnt := s.enc.cnt + 1 }, encK := s.encK + 1 } ∧
      (s.enc.cnt + 1).toNat = s.enc.cnt.toNat + 1)

/-- R154 PAIR-FLUSH, R156 CAP, R157 RUN-CLOSE; and where the encoder is after the chunk has gone out, as R154 and R156
say it. -/
def Obligations.EncoderClosesSegmentOrRun : Prop :=
  ∀ (b : Byte) (s : State), s.enc.ephase = .collect →
    (s.enc.cnt = 1 → b = s.enc.cur → 1 ≤ s.enc.litLen.toNat →
      exec (.byte .ei b) s =
        .next { s with enc := { s.enc with cnt := 2, ephase := .litHdr }, encK := s.encK + 1 } ∧
      (EncInv s.enc → ∃ t,
        execAll (.byte .ei b :: (litHeader s.enc.litLen :: heldBytes s.enc).map (Instr.byte .eo)) s = .next t ∧
        t.enc.ephase = .collect ∧ t.enc.cur = b ∧ t.enc.cnt = 2 ∧ t.enc.litLen = 0)) ∧
    (s.enc.cnt = 127 → b = s.enc.cur →
      exec (.byte .ei b) s =
        .next { s with enc := { s.enc with emCnt := 127, emVal := s.enc.cur, cnt := 1, ephase := .runHdr }
                       encK := s.encK + 1 } ∧
      (EncInv s.enc → ∃ t, execAll [.byte .ei b, .byte .eo 0xFF, .byte .eo b] s = .next t ∧
        t.enc.ephase = .collect ∧ t.enc.cur = b ∧ t.enc.cnt = 1 ∧ t.enc.litLen = 0)) ∧
    (2 ≤ s.enc.cnt.toNat → b ≠ s.enc.cur →
      exec (.byte .ei b) s =
        .next { s with
          enc := { s.enc with emCnt := s.enc.cnt, emVal := s.enc.cur, cur := b, cnt := 1, ephase := .runHdr }
          encK := s.encK + 1 })

/-- R158 SINGLE, R159 SINGLE-CAP: the one entry stored to is `lit_buf[lit_len]`; and where the encoder is after the
literal chunk of 127 bytes has gone out, as R159 says it. -/
def Obligations.EncoderSingleJoinsLiteral : Prop :=
  ∀ (b : Byte) (s : State), s.enc.ephase = .collect → s.enc.cnt = 1 → b ≠ s.enc.cur →
    (s.enc.litLen.toNat ≤ 125 →
      exec (.byte .ei b) s =
        .next { s with
          enc := { s.enc with
            litBuf := Memory.write s.enc.litBuf s.enc.litLen.toNat s.enc.cur
            litLen := s.enc.litLen + 1, cur := b, cnt := 1 }
          encK := s.encK + 1 } ∧
      (s.enc.litLen + 1).toNat = s.enc.litLen.toNat + 1) ∧
    (s.enc.litLen = 126 →
      exec (.byte .ei b) s =
        .next { s with
          enc := { s.enc with
            litBuf := Memory.write s.enc.litBuf 126 s.enc.cur
            litLen := 127, cur := b, cnt := 1, ephase := .litHdr }
          encK := s.encK + 1 } ∧
      (EncInv s.enc → ∃ t,
        execAll (.byte .ei b :: (0x7F :: heldBytes s.enc ++ [s.enc.cur]).map (Instr.byte .eo)) s = .next t ∧
        t.enc.ephase = .collect ∧ t.enc.cur = b ∧ t.enc.cnt = 1 ∧ t.enc.litLen = 0))

/-- R160 END-EMPTY, R161 END-RUN, R162 END-LIT. -/
def Obligations.EncoderTakesEnd : Prop :=
  ∀ s : State, s.enc.ephase = .collect →
    (s.enc.cnt = 0 →
      exec (.endMsg .ei) s =
        .next { s with enc := { s.enc with eosPend := true, ephase := .endOut }, encK := 0 }) ∧
    (2 ≤ s.enc.cnt.toNat →
      exec (.endMsg .ei) s =
        .next { s with
          enc := { s.enc with
            emCnt := s.enc.cnt, emVal := s.enc.cur, cnt := 0, eosPend := true, ephase := .runHdr }
          encK := 0 }) ∧
    (s.enc.cnt = 1 → s.enc.litLen.toNat ≤ 126 →
      exec (.endMsg .ei) s =
        .next { s with
          enc := { s.enc with
            litBuf := Memory.write s.enc.litBuf s.enc.litLen.toNat s.enc.cur
            litLen := s.enc.litLen + 1, cnt := 0, eosPend := true, ephase := .litHdr }
          encK := 0 } ∧
      (s.enc.litLen + 1).toNat = s.enc.litLen.toNat + 1)

/-- R163 RUN-HDR, R164 RUN-VAL. -/
def Obligations.EncoderPutsRunChunk : Prop :=
  ∀ s : State,
    (s.enc.ephase = .runHdr →
      exec (.byte .eo (0x80#8 ||| s.enc.emCnt.setWidth 8)) s =
        .next { s with
          enc := { s.enc with ephase := .runVal }
          env := { s.env with eoOut := s.env.eoOut ++ [.byte (0x80#8 ||| s.enc.emCnt.setWidth 8)] } } ∧
      (2 ≤ s.enc.emCnt.toNat → 0x82 ≤ (0x80#8 ||| s.enc.emCnt.setWidth 8 : Byte).toNat)) ∧
    (s.enc.ephase = .runVal →
      exec (.byte .eo s.enc.emVal) s =
        .next { s with
          enc := { s.enc with ephase := if s.enc.eosPend = true then .endOut else .collect }
          env := { s.env with eoOut := s.env.eoOut ++ [.byte s.enc.emVal] } })

/-- R165 LIT-HDR, R166 LIT-PAY, R167 LIT-LAST. -/
def Obligations.EncoderPutsLiteralChunk : Prop :=
  ∀ s : State,
    (s.enc.ephase = .litHdr →
      exec (.byte .eo (s.enc.litLen.setWidth 8)) s =
        .next { s with
          enc := { s.enc with litRd := 0, ephase := .litPay }
          env := { s.env with eoOut := s.env.eoOut ++ [.byte (s.enc.litLen.setWidth 8)] } } ∧
      (1 ≤ s.enc.litLen.toNat →
        0x01 ≤ (s.enc.litLen.setWidth 8 : Byte).toNat ∧ (s.enc.litLen.setWidth 8 : Byte).toNat ≤ 0x7F)) ∧
    (s.enc.ephase = .litPay → s.enc.litRd.toNat + 1 < s.enc.litLen.toNat →
      exec (.byte .eo (Memory.read s.enc.litBuf s.enc.litRd.toNat)) s =
        .next { s with
          enc := { s.enc with litRd := s.enc.litRd + 1 }
          env := { s.env with eoOut := s.env.eoOut ++ [.byte (Memory.read s.enc.litBuf s.enc.litRd.toNat)] } } ∧
      (s.enc.litRd + 1).toNat = s.enc.litRd.toNat + 1) ∧
    (s.enc.ephase = .litPay → s.enc.litRd.toNat + 1 = s.enc.litLen.toNat →
      exec (.byte .eo (Memory.read s.enc.litBuf s.enc.litRd.toNat)) s =
        .next { s with
          enc := { s.enc with
            litLen := 0, litRd := 0, ephase := if s.enc.eosPend = true then .endOut else .collect }
          env := { s.env with eoOut := s.env.eoOut ++ [.byte (Memory.read s.enc.litBuf s.enc.litRd.toNat)] } })

/-- R168 END-OUT: putting out `END` leaves the encoder idle, and (the encoder's part of R314) every register of it that
has a reset value is at that value. -/
def Obligations.EncoderPutsEnd : Prop :=
  ∀ s : State, s.enc.ephase = .endOut →
    exec (.endMsg .eo) s =
      .next { s with
        enc := { s.enc with eosPend := false, ephase := .collect }
        env := { s.env with eoOut := s.env.eoOut ++ [.eom] } } ∧
    (EncInv s.enc → ∀ t, exec (.endMsg .eo) s = .next t → EncIdle t.enc ∧ t.enc.ResetValues)

/-- R94, R80, R165 to R167: from `E_LIT_HDR` the literal chunk goes out whole and in order: the header with the length,
then the bytes held; after it `lit_len` is 0 and the phase is `E_END` or `E_COLLECT`. -/
def Obligations.LiteralChunkDrains : Prop :=
  ∀ s : State, EncInv s.enc → s.enc.ephase = .litHdr →
    heldBytes s.enc ≠ [] ∧ (heldBytes s.enc).length = s.enc.litLen.toNat ∧
    execAll ((litHeader s.enc.litLen :: heldBytes s.enc).map (Instr.byte .eo)) s =
      .next { s with
        enc := { s.enc with
          litLen := 0, litRd := 0, ephase := if s.enc.eosPend = true then .endOut else .collect }
        env := { s.env with
          eoOut := s.env.eoOut ++ (litHeader s.enc.litLen :: heldBytes s.enc).map Token.byte } }

/-- R170: in every state that meets R169, for every token in `E_COLLECT` and for every output step, exactly one rule's
guard, as the rule words it, holds, and it is the rule the machine applies. -/
def Obligations.EncoderRulesExhaustiveExclusive : Prop :=
  ∀ e : Encoder, EncInv e →
    (e.ephase = .collect → ∀ t : Token,
      ∃ r, encRuleIn t e = some r ∧ encGuard r (some t) e = true ∧ ∀ q, encGuard q (some t) e = true → q = r) ∧
    (e.ephase ≠ .collect →
      ∃ r, encRuleOut e = some r ∧ encGuard r none e = true ∧ ∀ q, encGuard q none e = true → q = r)

/-! ### The decoder's step rules -/

/-- R222 HDR-RUN, R223 HDR-LIT, R224 HDR-LIT0, R225 HDR-END. -/
def Obligations.DecoderTakesHeader : Prop :=
  ∀ (h : Byte) (s : State), s.dec.dphase = .hdr →
    (h.getLsbD 7 = true →
      exec (.byte .di h) s =
        .next { s with dec := { s.dec with dcount := h.extractLsb' 0 7, dphase := .runVal }, decK := s.decK + 1 }) ∧
    (h.getLsbD 7 = false → 1 ≤ (h.extractLsb' 0 7).toNat →
      exec (.byte .di h) s =
        .next { s with dec := { s.dec with dcount := h.extractLsb' 0 7, dphase := .litIn }, decK := s.decK + 1 }) ∧
    (h = 0x00 →
      exec (.byte .di h) s = .next { s with dec := { s.dec with dcount := 0 }, decK := s.decK + 1 }) ∧
    exec (.endMsg .di) s = .next { s with dec := { s.dec with dphase := .endOut }, decK := 0 }

/-- R226 RUN-VAL, R227 RUN-VAL0. -/
def Obligations.DecoderTakesRunValue : Prop :=
  ∀ (v : Byte) (s : State), s.dec.dphase = .runVal →
    (1 ≤ s.dec.dcount.toNat →
      exec (.byte .di v) s =
        .next { s with dec := { s.dec with dval := v, dphase := .runOut }, decK := s.decK + 1 }) ∧
    (s.dec.dcount = 0 →
      exec (.byte .di v) s =
        .next { s with dec := { s.dec with dval := v, dphase := .hdr }, decK := s.decK + 1 })

/-- R230 LIT-IN, R232 LIT-OUT, R229 RUN-OUT. -/
def Obligations.DecoderStreamsPayload : Prop :=
  ∀ s : State,
    (∀ b, s.dec.dphase = .litIn → 1 ≤ s.dec.dcount.toNat →
      exec (.byte .di b) s =
        .next { s with dec := { s.dec with dval := b, dphase := .litOut }, decK := s.decK + 1 }) ∧
    (s.dec.dphase = .litOut → 1 ≤ s.dec.dcount.toNat →
      exec (.byteDo s.dec.dval) s =
        .next { s with
          dec := { s.dec with
            dcount := s.dec.dcount - 1, dphase := if s.dec.dcount = 1 then .hdr else .litIn }
          env := { s.env with doOut := s.env.doOut ++ [.byte s.dec.dval] } }) ∧
    (s.dec.dphase = .runOut → 1 ≤ s.dec.dcount.toNat →
      exec (.byteDo s.dec.dval) s =
        .next { s with
          dec := { s.dec with
            dcount := s.dec.dcount - 1, dphase := if s.dec.dcount = 1 then .hdr else .runOut }
          env := { s.env with doOut := s.env.doOut ++ [.byte s.dec.dval] } })

/-- R228 RUN-TRUNC, R231 LIT-TRUNC, R285: taking the exception, whatever `dcount` is. The record keeps the first cause;
nothing is put out. -/
def Obligations.TruncationRaisesMalformedStream : Prop :=
  ∀ s : State,
    (s.dec.dphase = .runVal →
      exec (.endMsg .di) s =
        .next { s with
          dec := { s.dec with
            decFaultCode := if s.dec.decFault = false then 1 else s.dec.decFaultCode
            decFault := true, endErr := true, dphase := .endOut }
          decK := 0 }) ∧
    (s.dec.dphase = .litIn →
      exec (.endMsg .di) s =
        .next { s with
          dec := { s.dec with
            decFaultCode := if s.dec.decFault = false then 2 else s.dec.decFaultCode
            decFault := true, endErr := true, dphase := .endOut }
          decK := 0 })

/-- R233 END-OUT: `END(end_err)` goes out, `end_err` is cleared, the fault record is not. -/
def Obligations.DecoderPutsEnd : Prop :=
  ∀ s : State, s.dec.dphase = .endOut →
    exec (.endDo s.dec.endErr) s =
      .next { s with
        dec := { s.dec with endErr := false, dphase := .hdr }
        env := { s.env with doOut := s.env.doOut ++ [.eom s.dec.endErr] } }

/-- R236: for every phase and token, and for every output step, exactly one rule's guard, as the rule words it, holds,
and it is the rule the machine applies. -/
def Obligations.DecoderRulesExhaustiveExclusive : Prop :=
  ∀ d : Decoder, DecInv d →
    (d.inReady = true → ∀ t : Token,
      ∃ r, decRuleIn t d = some r ∧ decGuard r (some t) d = true ∧ ∀ q, decGuard q (some t) d = true → q = r) ∧
    (d.inReady = false →
      ∃ r, decRuleOut d = some r ∧ decGuard r none d = true ∧ ∀ q, decGuard q none d = true → q = r)

/-! ### The chunk instructions -/

/-- R193 RUN: from a chunk boundary, `count` copies of the value are put out and the decoder is at the next boundary,
two bytes further on, for every count from 0 to 127. When the message ends right after the header, TRUNC_RUN is raised
and nothing is put out for the chunk. -/
def Obligations.RunChunkEmitsCopies : Prop :=
  ∀ (count : Count) (v : Byte) (s : State), s.dec.dphase = .hdr →
    exec (.run count v) s =
      .next { s with
        dec := { s.dec with dcount := 0, dval := v }
        decK := s.decK + 2
        env := { s.env with doOut := s.env.doOut ++ List.replicate count.toNat (DoToken.byte v) } } ∧
    execAll [.byte .di (runHeader count), .endMsg .di] s =
      .next { s with
        dec := { s.dec with
          dcount := count
          decFaultCode := if s.dec.decFault = false then 1 else s.dec.decFaultCode
          decFault := true, endErr := true, dphase := .endOut }
        decK := 0 }

/-- R194 LIT: from a chunk boundary, the `count` payload bytes are put out in order and the decoder is at the next
boundary, `1 + count` bytes further on, for every count from 0 to 127. When the message ends after fewer payload bytes,
those are put out and TRUNC_LIT is raised. -/
def Obligations.LitChunkEmitsPayload : Prop :=
  ∀ (count : Count) (payload : List Byte) (s : State), s.dec.dphase = .hdr →
    (payload.length = count.toNat →
      exec (.lit count payload) s =
        .next { s with
          dec := { s.dec with dcount := 0, dval := payload.getLast?.getD s.dec.dval }
          decK := s.decK + (1 + count.toNat)
          env := { s.env with doOut := s.env.doOut ++ payload.map DoToken.byte } }) ∧
    (payload.length < count.toNat →
      execAll (.byte .di (litHeader count) :: (payload.flatMap fun b => [.byte .di b, .byteDo b]) ++ [.endMsg .di]) s =
        .next { s with
          dec := { s.dec with
            dcount := count - BitVec.ofNat 7 payload.length, dval := payload.getLast?.getD s.dec.dval
            decFaultCode := if s.dec.decFault = false then 2 else s.dec.decFaultCode
            decFault := true, endErr := true, dphase := .endOut }
          decK := 0
          env := { s.env with doOut := s.env.doOut ++ payload.map DoToken.byte } })

/-- R191 ("The header is always fetched at a chunk boundary") and the model's convention for it (log entry 6): a chunk
instruction runs in phase `D_HDR` only and is refused by name elsewhere; a LIT whose payload has not `count` bytes is no
chunk. -/
def Obligations.ChunkNeedsBoundary : Prop :=
  ∀ (count : Count) (v : Byte) (payload : List Byte) (s : State),
    (s.dec.dphase ≠ .hdr → exec (.run count v) s = .refused .notAtChunkBoundary) ∧
    (payload.length = count.toNat → s.dec.dphase ≠ .hdr →
      exec (.lit count payload) s = .refused .notAtChunkBoundary) ∧
    (payload.length ≠ count.toNat → exec (.lit count payload) s = .refused .illFormed)

/-- R237 (its induction step): running a chunk as one instruction is the same as taking its bytes on `di` one by one
and accepting, after each, the tokens it gives rise to on `do`. -/
def Obligations.ChunkIsItsTransfers : Prop :=
  ∀ s : State, s.dec.dphase = .hdr →
    (∀ (count : Count) (v : Byte),
      exec (.run count v) s =
        execAll ([.byte .di (runHeader count), .byte .di v] ++ List.replicate count.toNat (.byteDo v)) s) ∧
    (∀ (count : Count) (payload : List Byte), payload.length = count.toNat →
      exec (.lit count payload) s =
        execAll (.byte .di (litHeader count) :: payload.flatMap fun b => [.byte .di b, .byteDo b]) s)

/-! ### Isolation and frames -/

/-- R20, R21: a step of one unit never reads or writes the state of the other. Whatever the other unit's registers,
position and output are, the instruction does the same and leaves them as they were; the host's agenda and the
free-value index are left alone too. -/
def Obligations.UnitsAreIsolated : Prop :=
  ∀ (i : Instr) (s t : State), exec i s = .next t →
    t.env.agenda = s.env.agenda ∧ t.env.free = s.env.free ∧
    (isEncInstr i = true → ∀ (d : Decoder) (k : Nat) (o : List DoToken),
      t.dec = s.dec ∧ t.decK = s.decK ∧ t.env.doOut = s.env.doOut ∧
      exec i { s with dec := d, decK := k, env := { s.env with doOut := o } } =
        .next { t with dec := d, decK := k, env := { t.env with doOut := o } }) ∧
    (isEncInstr i = false → ∀ (e : Encoder) (k : Nat) (o : List Token),
      t.enc = s.enc ∧ t.encK = s.encK ∧ t.env.eoOut = s.env.eoOut ∧
      exec i { s with enc := e, encK := k, env := { s.env with eoOut := o } } =
        .next { t with enc := e, encK := k, env := { t.env with eoOut := o } })

/-- R74 (d): the interleaving of encoder steps and decoder steps cannot be observed. -/
def Obligations.UnitStepsCommute : Prop :=
  ∀ (i j : Instr) (s t : State), isEncInstr i = true → isEncInstr j = false →
    (execAll [i, j] s = .next t ↔ execAll [j, i] s = .next t)

/-- R80, R28: the payload buffer changes only at entry `lit_len`, only when the encoder takes a token in `E_COLLECT`
with `cnt = 1` that is `END` or differs from the candidate, and then that entry is the candidate; every other entry
reads as before, and so does every entry for every other instruction. -/
def Obligations.PayloadBufferFrame : Prop :=
  ∀ (i : Instr) (s t : State), exec i s = .next t →
    (∀ a, a ≠ s.enc.litLen.toNat → Memory.read t.enc.litBuf a = Memory.read s.enc.litBuf a) ∧
    ((i = .endMsg .ei ∨ ∃ b, i = .byte .ei b ∧ b ≠ s.enc.cur) → s.enc.ephase = .collect → s.enc.cnt = 1 →
      s.enc.litLen.toNat ≤ 126 ∧ Memory.read t.enc.litBuf s.enc.litLen.toNat = s.enc.cur) ∧
    (¬ ((i = .endMsg .ei ∨ ∃ b, i = .byte .ei b ∧ b ≠ s.enc.cur) ∧ s.enc.ephase = .collect ∧ s.enc.cnt = 1) →
      t.enc.litBuf = s.enc.litBuf)

/-- R238: the phase registers move only along the transition table. A chunk instruction, which is several transfers,
starts and ends in `D_HDR`. -/
def Obligations.PhaseTransitionTable : Prop :=
  ∀ (i : Instr) (s t : State), exec i s = .next t →
    (t.enc.ephase = s.enc.ephase ∨
      (s.enc.ephase, t.enc.ephase) ∈
        [(EPhase.collect, EPhase.litHdr), (.collect, .runHdr), (.collect, .endOut), (.runHdr, .runVal),
         (.runVal, .collect), (.runVal, .endOut), (.litHdr, .litPay), (.litPay, .collect), (.litPay, .endOut),
         (.endOut, .collect)]) ∧
    (t.dec.dphase = s.dec.dphase ∨
      (s.dec.dphase, t.dec.dphase) ∈
        [(DPhase.hdr, DPhase.runVal), (.hdr, .litIn), (.hdr, .endOut), (.runVal, .runOut), (.runVal, .hdr),
         (.runVal, .endOut), (.runOut, .hdr), (.litIn, .litOut), (.litIn, .endOut), (.litOut, .litIn),
         (.litOut, .hdr), (.endOut, .hdr)]) ∧
    (((∃ n p, i = .lit n p) ∨ ∃ n v, i = .run n v) → s.dec.dphase = .hdr ∧ t.dec.dphase = .hdr)

/-! ### The exception -/

/-- R282, R283: TRUNC_RUN is raised when and only when the decoder takes `END` in `D_RUN_VAL`, TRUNC_LIT when and only
when it takes `END` in `D_LIT_IN`; no other instruction raises anything. -/
def Obligations.ExceptionExactlyOnTruncation : Prop :=
  ∀ (i : Instr) (s t : State), s.dec.endErr = false → s.dec.decFault = false → exec i s = .next t →
    (t.dec.endErr = true ↔ i = .endMsg .di ∧ (s.dec.dphase = .runVal ∨ s.dec.dphase = .litIn)) ∧
    (t.dec.decFault = true ↔ i = .endMsg .di ∧ (s.dec.dphase = .runVal ∨ s.dec.dphase = .litIn)) ∧
    (i = .endMsg .di → s.dec.dphase = .runVal → t.dec.decFaultCode = 1) ∧
    (i = .endMsg .di → s.dec.dphase = .litIn → t.dec.decFaultCode = 2) ∧
    (t.dec.decFault = false → t.dec.decFaultCode = s.dec.decFaultCode)

/-- R34, R287: the fault record is sticky, keeps the first cause, is cleared by an edge with `rst = 1` only, and no
step reads it: with any other record the same instruction does the same to everything else. -/
def Obligations.FaultRecordIsSticky : Prop :=
  (∀ (s t : State), step s = .next t → (fetch s).rst = false → s.dec.decFault = true →
    t.dec.decFault = true ∧ t.dec.decFaultCode = s.dec.decFaultCode) ∧
  (∀ (i : Instr) (s t : State) (f : Bool) (c : BitVec 2), exec i s = .next t →
    ∃ f' c', exec i { s with dec := { s.dec with decFault := f, decFaultCode := c } } =
      .next { t with dec := { t.dec with decFault := f', decFaultCode := c' } })

/-! ### Invariants of every step -/

/-- R169, R235 and the buffer's canonical form, for one instruction. R235's clause on `D_END` is included: `end_err`
is 1 there exactly when the phase was entered by R228 or R231. -/
def Obligations.ExecKeepsInvariant : Prop :=
  ∀ (i : Instr) (s t : State), Inv s → exec i s = .next t →
    Inv t ∧
    (s.dec.dphase ≠ .endOut → t.dec.dphase = .endOut →
      (t.dec.endErr = true ↔ s.dec.dphase = .runVal ∨ s.dec.dphase = .litIn))

/-- R169, R235: the invariant is kept by every step, from every state that meets it, with every host. -/
def Obligations.StepKeepsInvariant : Prop := ∀ s t : State, Inv s → step s = .next t → Inv t

/-- R170, R236, R280: from a state that meets the invariant every step completes: no rule is missing, no access to the
payload buffer is out of range, whatever the host does. -/
def Obligations.StepAlwaysCompletes : Prop := ∀ s : State, Inv s → ∃ t, step s = .next t

/-- R41: registers with an unspecified reset value are never read before they are written. Two states that agree
wherever R41 lets a step read take corresponding steps to states that agree again, whatever the other registers hold;
where R169 holds, they show the same ready, valid and status pins and offer the same tokens; and every state with the
reset values of R45 agrees with `State.reset` up to the host's side. -/
def Obligations.UnwrittenRegistersAreNeverRead : Prop :=
  (∀ s t s' : State, Agree s t → step s = .next s' → ∃ t', step t = .next t' ∧ Agree s' t') ∧
  (∀ s t : State, Agree s t → EncInv s.enc →
    s.pins.eiReady = t.pins.eiReady ∧ s.pins.eoValid = t.pins.eoValid ∧ s.enc.offer = t.enc.offer ∧
    s.pins.diReady = t.pins.diReady ∧ s.pins.doValid = t.pins.doValid ∧ s.dec.offer = t.dec.offer ∧
    s.pins.decFault = t.pins.decFault ∧ s.pins.decFaultCode = t.pins.decFaultCode) ∧
  (∀ s : State, AtReset s → Agree s { State.reset with env := s.env })

/-! ### Encodings -/

/-- Decode and encode agree, for every well-formed instruction, with every operand (R91, R93, R94, R96). -/
def Obligations.DecodeEncodeRoundTrip : Prop :=
  ∀ i : Instr, i.WellFormed → decode (encode i) = .ok i

/-- R97, R95: every header value is one chunk kind, by bit 7 alone; the count is the low seven bits; and the header is
what the encoder would make of kind and count. -/
def Obligations.EveryHeaderDecodes : Prop :=
  ∀ h : Byte,
    (h.getLsbD 7 = true → ∀ (v : Byte) (more : List Byte),
      decodeChunk (h :: v :: more) = .ok (.run (h.extractLsb' 0 7) v, more)) ∧
    (h.getLsbD 7 = false → ∀ payload more : List Byte, payload.length = (h.extractLsb' 0 7).toNat →
      decodeChunk (h :: (payload ++ more)) = .ok (.lit (h.extractLsb' 0 7) payload, more)) ∧
    h.toNat = (if h.getLsbD 7 then 128 else 0) + (h.extractLsb' 0 7).toNat ∧
    (h.getLsbD 7 = true → runHeader (h.extractLsb' 0 7) = h) ∧
    (h.getLsbD 7 = false → litHeader (h.extractLsb' 0 7) = h)

/-- R91, R62: each of the 512 words of a TOKEN port is a token, the data bits of `END` being ignored, and the words the
decoder drives on port `do` are the tokens they stand for. That the other words of port `do` (`err` with `BYTE`, data with
`END`) are rejected, by these names, is THE MODEL'S CHOICE (log entry 9): no rule speaks of reading them. -/
def Obligations.PortWordsDecode : Prop :=
  (∀ (p : Port) (b : Byte), decodeToken p (tokenLines false b) = .byte p b ∧
    decodeToken p (tokenLines true b) = .endMsg p) ∧
  (∀ (b : Byte) (err : Bool), decodeDo (doLines false false b) = .ok (.byteDo b) ∧
    decodeDo (doLines err true 0) = .ok (.endDo err) ∧
    decodeDo (doLines true false b) = .error .errOnByte ∧
    (b ≠ 0 → decodeDo (doLines err true b) = .error .dataOnEndDo)) ∧
  (∀ w : TokenWord, w = tokenLines (w.getLsbD 8) (w.extractLsb' 0 8))

/-- Words written out from the spec's encodings (R91, R93, R94) decode to the instructions they stand for. -/
def Obligations.WrittenOutWordsDecode : Prop :=
  decode (.chunk [0x83, 0x02]) = .ok (.run 3 2) ∧ decode (.chunk [0xFF, 0x07]) = .ok (.run 127 7) ∧
  decode (.chunk [0x80, 0x07]) = .ok (.run 0 7) ∧ decode (.chunk [0x00]) = .ok (.lit 0 []) ∧
  decode (.chunk [0x02, 0x80, 0x01]) = .ok (.lit 2 [0x80, 0x01]) ∧
  decode (.chunk [0x82]) = .error .truncRun ∧ decode (.chunk [0x03, 0x01, 0x02]) = .error .truncLit ∧
  decode (.token .ei 0b010000010#9) = .ok (.byte .ei 0x82) ∧ decode (.token .di 0b100000000#9) = .ok (.endMsg .di) ∧
  decode (.token .ei 0b111111111#9) = .ok (.endMsg .ei) ∧
  decode (.tokenDo 0b0000001001#10) = .ok (.byteDo 9) ∧ decode (.tokenDo 0b0100000000#10) = .ok (.endDo false) ∧
  decode (.tokenDo 0b1100000000#10) = .ok (.endDo true)

/-! ### ENCODE and DECODE -/

/-- R264, R265, R266: no LIT chunk the encoder emits has two equal adjacent payload bytes, and the source's worked
examples. -/
def Obligations.SourceVectors : Prop :=
  (∀ (b : List Byte) (n : Count) (p : List Byte), Instr.lit n p ∈ encodeChunks b → p.IsChain (· ≠ ·)) ∧
  encodeBytes [] = [] ∧ encodeBytes [9] = [0x01, 9] ∧ decodeBytes [0x01, 9] = .ok [9] ∧
  encodeBytes [5, 5] = [0x82, 5] ∧ encodeBytes [1, 2, 2, 2, 3] = [0x01, 1, 0x83, 2, 0x01, 3]

/-- R262: the run cap. -/
def Obligations.RunCapSplits : Prop :=
  ∀ v : Byte, encodeBytes (List.replicate 127 v) = [0xFF, v] ∧
    encodeBytes (List.replicate 128 v) = [0xFF, v, 0x01, v]

/-- R263: the literal cap. -/
def Obligations.LiteralCapSplits : Prop :=
  ∀ b : List Byte, b.IsChain (· ≠ ·) →
    (b.length = 127 → encodeBytes b = 0x7F :: b) ∧
    (∀ last, b.length = 127 → (b ++ [last]).IsChain (· ≠ ·) → encodeBytes (b ++ [last]) = 0x7F :: b ++ [0x01, last])

/-- R271, and R260 at function level: decoding an encoding gives the input back, with no error; so `encode` is
injective, while `decode` on well-formed streams is not. -/
def Obligations.RoundTrip : Prop :=
  (∀ b : List Byte, decodeBytes (encodeBytes b) = .ok b) ∧
  (∀ a b : List Byte, encodeBytes a = encodeBytes b → a = b) ∧
  (∃ r s : List Byte, WellFormedStream r ∧ WellFormedStream s ∧ r ≠ s ∧ decodeBytes r = decodeBytes s)

/-- R131: the encoder's loop and the description by run structure give the same chunks. -/
def Obligations.EncodeByRunStructure : Prop := ∀ b : List Byte, encodeChunks b = encodeByRuns b

/-- R273: exactly which chunk sequences the encoder can produce. -/
def Obligations.CanonicalSequences : Prop :=
  ∀ cs : List Instr, Canonical cs ↔ ∃ b : List Byte, encodeChunks b = cs

/-- R270, R98: what the encoder emits is a sequence of complete chunks, with run counts 2 to 127 and literal counts 1 to
127, so its headers are 0x01 to 0x7F and 0x82 to 0xFF. -/
def Obligations.EncoderOutputIsWellFormed : Prop :=
  ∀ b : List Byte, WellFormedStream (encodeBytes b) ∧
    ∀ c ∈ encodeChunks b, isChunk c = true ∧
      ((∃ n v, c = .run n v ∧ 2 ≤ n.toNat) ∨ (∃ n p, c = .lit n p ∧ 1 ≤ n.toNat)) ∧
      ∃ h rest, chunkBytes c = h :: rest ∧
        ((0x01 ≤ h.toNat ∧ h.toNat ≤ 0x7F) ∨ (0x82 ≤ h.toNat ∧ h.toNat ≤ 0xFF))

/-- R269: the exact bounds on the length of the encoder's output (both are 0 for no bytes), the cruder bound, and that
the exact ones are reached: the lower by equal bytes, the upper by inputs of the shape a b b a b b a ... -/
def Obligations.EncodeLengthBounds : Prop :=
  (∀ b : List Byte, 2 * ((b.length + 126) / 127) ≤ (encodeBytes b).length ∧
    (encodeBytes b).length ≤ b.length + (b.length + 2) / 3 ∧ (encodeBytes b).length ≤ 2 * b.length) ∧
  (∀ (n : Nat) (v : Byte), (encodeBytes (List.replicate n v)).length = 2 * ((n + 126) / 127)) ∧
  (∀ (n : Nat) (a b : Byte), a ≠ b →
    (encodeBytes ((List.range n).map fun k => if k % 3 = 0 then a else b)).length = n + (n + 2) / 3)

/-- R197: when DECODE succeeds and what it gives, in three cases that are exhaustive (every result is one of them). -/
def Obligations.DecodeThreeCases : Prop :=
  ∀ (s out : List Byte),
    (decodeBytes s = .ok out ↔
      ∃ cs : List Instr, (∀ c ∈ cs, isChunk c = true) ∧ s = streamBytes cs ∧ out = cs.flatMap chunkOutput) ∧
    (decodeBytes s = .err .truncRun out ↔
      ∃ (cs : List Instr) (h : Byte), (∀ c ∈ cs, isChunk c = true) ∧ h.getLsbD 7 = true ∧
        s = streamBytes cs ++ [h] ∧ out = cs.flatMap chunkOutput) ∧
    (decodeBytes s = .err .truncLit out ↔
      ∃ (cs : List Instr) (h : Byte) (p : List Byte), (∀ c ∈ cs, isChunk c = true) ∧ h.getLsbD 7 = false ∧
        p.length < (h.extractLsb' 0 7).toNat ∧ s = streamBytes cs ++ h :: p ∧ out = cs.flatMap chunkOutput ++ p)

/-- R201: the bound on the decoder's expansion, reached by RUN 127 chunks. -/
def Obligations.DecodeExpansionBound : Prop :=
  (∀ s out : List Byte, decodeBytes s = .ok out → out.length ≤ 127 * (s.length / 2)) ∧
  (∀ (n : Nat) (v : Byte),
    decodeBytes (streamBytes (List.replicate n (.run 127 v))) = .ok (List.replicate (127 * n) v))

/-! ### Level S computes level F -/

/-- R132: a message with body `data` taken by an idle encoder gives the bytes of `encode(data)` and then `END` on `eo`,
and the encoder is idle again. First with a host that never stalls: it happens in finitely many steps and touches nothing
of the decoder. Then for every schedule of edges without reset. -/
def Obligations.EncoderComputesEncode : Prop :=
  ∀ (s : State) (data : List Byte), Inv s → EncIdle s.enc →
    (∀ rest : List HostEvent, s.env.agenda = .feedEnc (messageWords data) :: rest →
      ∃ n t, Sys2Proof.core.run n s = .next t ∧ t.env.agenda = rest ∧ EncodesMessage data s t ∧
        t.dec = s.dec ∧ t.decK = s.decK ∧ t.env.doOut = s.env.doOut) ∧
    (∀ (ps : List PinsIn) (r : EdgeRun), (∀ p ∈ ps, p.rst = false) → runEdges false ps s = some r →
      r.eiTaken = messageTokens data → r.last.enc.ephase = .collect → EncodesMessage data s r.last)

/-- R171 (a), (b) and R37: after the bytes `p` and no `END`, with every output phase run to its end, the bytes put out
and the bytes owed make up `encode(p)`, and `p` is what the bytes put out decode to, then the bytes held, then the
candidate. -/
def Obligations.EncoderOwesTheRest : Prop :=
  ∀ (s : State) (p : List Byte) (rest : List HostEvent), Inv s → EncIdle s.enc → s.encK = 0 →
    s.env.agenda = .feedEnc (byteWords p) :: rest →
    ∃ n t emitted out, Sys2Proof.core.run n s = .next t ∧ t.env.agenda = rest ∧ t.enc.ephase = .collect ∧
      t.env.eoOut = s.env.eoOut ++ emitted.map Token.byte ∧ t.encK = p.length ∧
      emitted ++ owedBytes t.enc = encodeBytes p ∧
      decodeBytes emitted = .ok out ∧ p = out ++ heldBytes t.enc ++ List.replicate t.enc.cnt.toNat t.enc.cur

/-- R202: a message with body `body` taken by an idle decoder gives the bytes of `decode(body)` and then `END(0)` or
`END(1)` on `do`, the fault record keeps the first cause, and the decoder is idle again. First with a host that never
stalls: it happens in finitely many steps and touches nothing of the encoder. Then for every schedule of edges without
reset. -/
def Obligations.DecoderComputesDecode : Prop :=
  ∀ (s : State) (body : List Byte), Inv s → DecIdle s.dec →
    (∀ rest : List HostEvent, s.env.agenda = .feedDec (messageWords body) :: rest →
      ∃ n t, Sys2Proof.core.run n s = .next t ∧ t.env.agenda = rest ∧ DecodesMessage body s t ∧
        t.enc = s.enc ∧ t.encK = s.encK ∧ t.env.eoOut = s.env.eoOut) ∧
    (∀ (ps : List PinsIn) (r : EdgeRun), (∀ p ∈ ps, p.rst = false) → runEdges false ps s = some r →
      r.diTaken = messageTokens body → r.last.dec.inReady = true → DecodesMessage body s r.last)

/-- R260 at hardware level: with `eo` wired to `di`, over every schedule of edges without reset that takes one message on
`ei` and ends with both units idle, the message on `do` has the same body and ends with `END(0)`, the link carried the
encoding, and no fault is recorded. -/
def Obligations.HardwareRoundTrip : Prop :=
  ∀ (s : State) (data : List Byte) (ps : List PinsIn) (r : EdgeRun),
    Inv s → EncIdle s.enc → DecIdle s.dec → (∀ p ∈ ps, p.rst = false) →
    runEdges true ps s = some r → r.eiTaken = messageTokens data →
    EncIdle r.last.enc → DecIdle r.last.dec →
    r.last.env.doOut = s.env.doOut ++ data.map DoToken.byte ++ [DoToken.eom false] ∧
    r.last.env.eoOut = s.env.eoOut ++ (encodeBytes data).map Token.byte ++ [Token.eom] ∧
    r.last.dec.decFault = s.dec.decFault ∧ r.last.dec.decFaultCode = s.dec.decFaultCode
end

