-- ==== Sys2Proof/Laws/State.lean ====
section
/-! SUPPORT. One lemma per field per update, true by rfl, so that no later proof unfolds a record update. -/

namespace Sys2Proof.Laws

open Sys2Proof.Machine

/-! ### State: the outputs, the host's move, reset -/

section
variable (s : State) (t : Token) (u : DoToken) (a : List HostEvent) (e : HostEvent)

@[simp] theorem outputEo_enc : (outputEo t s).enc = s.enc := rfl
@[simp] theorem outputEo_dec : (outputEo t s).dec = s.dec := rfl
@[simp] theorem outputEo_encK : (outputEo t s).encK = s.encK := rfl
@[simp] theorem outputEo_decK : (outputEo t s).decK = s.decK := rfl
@[simp] theorem outputEo_agenda : (outputEo t s).env.agenda = s.env.agenda := rfl
@[simp] theorem outputEo_eoOut : (outputEo t s).env.eoOut = s.env.eoOut ++ [t] := rfl
@[simp] theorem outputEo_doOut : (outputEo t s).env.doOut = s.env.doOut := rfl
@[simp] theorem outputEo_free : (outputEo t s).env.free = s.env.free := rfl
@[simp] theorem outputDo_enc : (outputDo u s).enc = s.enc := rfl
@[simp] theorem outputDo_dec : (outputDo u s).dec = s.dec := rfl
@[simp] theorem outputDo_encK : (outputDo u s).encK = s.encK := rfl
@[simp] theorem outputDo_decK : (outputDo u s).decK = s.decK := rfl
@[simp] theorem outputDo_agenda : (outputDo u s).env.agenda = s.env.agenda := rfl
@[simp] theorem outputDo_eoOut : (outputDo u s).env.eoOut = s.env.eoOut := rfl
@[simp] theorem outputDo_doOut : (outputDo u s).env.doOut = s.env.doOut ++ [u] := rfl
@[simp] theorem outputDo_free : (outputDo u s).env.free = s.env.free := rfl
@[simp] theorem advance_enc : (advance a s).enc = s.enc := rfl
@[simp] theorem advance_dec : (advance a s).dec = s.dec := rfl
@[simp] theorem advance_encK : (advance a s).encK = s.encK := rfl
@[simp] theorem advance_decK : (advance a s).decK = s.decK := rfl
@[simp] theorem advance_agenda : (advance a s).env.agenda = a := rfl
@[simp] theorem advance_eoOut : (advance a s).env.eoOut = s.env.eoOut := rfl
@[simp] theorem advance_doOut : (advance a s).env.doOut = s.env.doOut := rfl
@[simp] theorem advance_free : (advance a s).env.free = s.env.free + 1 := rfl
@[simp] theorem planned_enc : (planned e s).enc = s.enc := rfl
@[simp] theorem planned_dec : (planned e s).dec = s.dec := rfl
@[simp] theorem planned_encK : (planned e s).encK = s.encK := rfl
@[simp] theorem planned_decK : (planned e s).decK = s.decK := rfl
@[simp] theorem planned_agenda : (planned e s).env.agenda = e :: s.env.agenda := rfl
@[simp] theorem planned_eoOut : (planned e s).env.eoOut = s.env.eoOut := rfl
@[simp] theorem planned_doOut : (planned e s).env.doOut = s.env.doOut := rfl
@[simp] theorem planned_free : (planned e s).env.free = s.env.free := rfl
@[simp] theorem resetUnits_enc : (resetUnits s).enc = resetEncoder s.env.free := rfl
@[simp] theorem resetUnits_dec : (resetUnits s).dec = resetDecoder s.env.free := rfl
@[simp] theorem resetUnits_encK : (resetUnits s).encK = 0 := rfl
@[simp] theorem resetUnits_decK : (resetUnits s).decK = 0 := rfl
@[simp] theorem resetUnits_agenda : (resetUnits s).env.agenda = s.env.agenda := rfl
@[simp] theorem resetUnits_eoOut : (resetUnits s).env.eoOut = s.env.eoOut := rfl
@[simp] theorem resetUnits_doOut : (resetUnits s).env.doOut = s.env.doOut := rfl
@[simp] theorem resetUnits_free : (resetUnits s).env.free = s.env.free := rfl

end

/-! ### Encoder: the flag updates and the reset values -/

section
variable (e : Encoder) (n : Nat)

@[simp] theorem setEosPend_ephase : (setEosPend e).ephase = e.ephase := rfl
@[simp] theorem setEosPend_cur : (setEosPend e).cur = e.cur := rfl
@[simp] theorem setEosPend_cnt : (setEosPend e).cnt = e.cnt := rfl
@[simp] theorem setEosPend_litLen : (setEosPend e).litLen = e.litLen := rfl
@[simp] theorem setEosPend_litRd : (setEosPend e).litRd = e.litRd := rfl
@[simp] theorem setEosPend_emCnt : (setEosPend e).emCnt = e.emCnt := rfl
@[simp] theorem setEosPend_emVal : (setEosPend e).emVal = e.emVal := rfl
@[simp] theorem setEosPend_eosPend : (setEosPend e).eosPend = true := rfl
@[simp] theorem setEosPend_litBuf : (setEosPend e).litBuf = e.litBuf := rfl
@[simp] theorem clearEosPend_ephase : (clearEosPend e).ephase = e.ephase := rfl
@[simp] theorem clearEosPend_cur : (clearEosPend e).cur = e.cur := rfl
@[simp] theorem clearEosPend_cnt : (clearEosPend e).cnt = e.cnt := rfl
@[simp] theorem clearEosPend_litLen : (clearEosPend e).litLen = e.litLen := rfl
@[simp] theorem clearEosPend_litRd : (clearEosPend e).litRd = e.litRd := rfl
@[simp] theorem clearEosPend_emCnt : (clearEosPend e).emCnt = e.emCnt := rfl
@[simp] theorem clearEosPend_emVal : (clearEosPend e).emVal = e.emVal := rfl
@[simp] theorem clearEosPend_eosPend : (clearEosPend e).eosPend = false := rfl
@[simp] theorem clearEosPend_litBuf : (clearEosPend e).litBuf = e.litBuf := rfl
@[simp] theorem resetEncoder_ephase : (resetEncoder n).ephase = .collect := rfl
@[simp] theorem resetEncoder_cnt : (resetEncoder n).cnt = 0 := rfl
@[simp] theorem resetEncoder_litLen : (resetEncoder n).litLen = 0 := rfl
@[simp] theorem resetEncoder_litRd : (resetEncoder n).litRd = 0 := rfl
@[simp] theorem resetEncoder_eosPend : (resetEncoder n).eosPend = false := rfl
@[simp] theorem resetEncoder_litBuf : (resetEncoder n).litBuf = freeBuffer n Config.litBufDepth := rfl
@[simp] theorem encoderAtReset_ephase : Encoder.atReset.ephase = .collect := rfl
@[simp] theorem encoderAtReset_cnt : Encoder.atReset.cnt = 0 := rfl
@[simp] theorem encoderAtReset_litLen : Encoder.atReset.litLen = 0 := rfl
@[simp] theorem encoderAtReset_litRd : Encoder.atReset.litRd = 0 := rfl
@[simp] theorem encoderAtReset_eosPend : Encoder.atReset.eosPend = false := rfl
@[simp] theorem encoderAtReset_litBuf : Encoder.atReset.litBuf = [] := rfl

end

/-! ### Decoder: the flag updates, the exception and its end, the reset values -/

section
variable (d : Decoder) (c : Cause) (n : Nat)

@[simp] theorem recordFault_dphase : (recordFault c d).dphase = d.dphase := rfl
@[simp] theorem recordFault_dcount : (recordFault c d).dcount = d.dcount := rfl
@[simp] theorem recordFault_dval : (recordFault c d).dval = d.dval := rfl
@[simp] theorem recordFault_endErr : (recordFault c d).endErr = d.endErr := rfl
@[simp] theorem recordFault_decFault : (recordFault c d).decFault = true := rfl
@[simp] theorem recordFault_decFaultCode : (recordFault c d).decFaultCode = if d.decFault then d.decFaultCode else causeCode c := rfl
@[simp] theorem setEndErr_dphase : (setEndErr d).dphase = d.dphase := rfl
@[simp] theorem setEndErr_dcount : (setEndErr d).dcount = d.dcount := rfl
@[simp] theorem setEndErr_dval : (setEndErr d).dval = d.dval := rfl
@[simp] theorem setEndErr_endErr : (setEndErr d).endErr = true := rfl
@[simp] theorem setEndErr_decFault : (setEndErr d).decFault = d.decFault := rfl
@[simp] theorem setEndErr_decFaultCode : (setEndErr d).decFaultCode = d.decFaultCode := rfl
@[simp] theorem clearEndErr_dphase : (clearEndErr d).dphase = d.dphase := rfl
@[simp] theorem clearEndErr_dcount : (clearEndErr d).dcount = d.dcount := rfl
@[simp] theorem clearEndErr_dval : (clearEndErr d).dval = d.dval := rfl
@[simp] theorem clearEndErr_endErr : (clearEndErr d).endErr = false := rfl
@[simp] theorem clearEndErr_decFault : (clearEndErr d).decFault = d.decFault := rfl
@[simp] theorem clearEndErr_decFaultCode : (clearEndErr d).decFaultCode = d.decFaultCode := rfl
@[simp] theorem raiseMalformed_dphase : (raiseMalformed c d).dphase = .endOut := rfl
@[simp] theorem raiseMalformed_dcount : (raiseMalformed c d).dcount = d.dcount := rfl
@[simp] theorem raiseMalformed_dval : (raiseMalformed c d).dval = d.dval := rfl
@[simp] theorem raiseMalformed_endErr : (raiseMalformed c d).endErr = true := rfl
@[simp] theorem raiseMalformed_decFault : (raiseMalformed c d).decFault = true := rfl
@[simp] theorem raiseMalformed_decFaultCode : (raiseMalformed c d).decFaultCode = if d.decFault then d.decFaultCode else causeCode c := rfl
@[simp] theorem endMessage_dphase : (endMessage d).dphase = .hdr := rfl
@[simp] theorem endMessage_dcount : (endMessage d).dcount = d.dcount := rfl
@[simp] theorem endMessage_dval : (endMessage d).dval = d.dval := rfl
@[simp] theorem endMessage_endErr : (endMessage d).endErr = false := rfl
@[simp] theorem endMessage_decFault : (endMessage d).decFault = d.decFault := rfl
@[simp] theorem endMessage_decFaultCode : (endMessage d).decFaultCode = d.decFaultCode := rfl
@[simp] theorem resetDecoder_dphase : (resetDecoder n).dphase = .hdr := rfl
@[simp] theorem resetDecoder_endErr : (resetDecoder n).endErr = false := rfl
@[simp] theorem resetDecoder_decFault : (resetDecoder n).decFault = false := rfl
@[simp] theorem resetDecoder_decFaultCode : (resetDecoder n).decFaultCode = 0 := rfl
@[simp] theorem decoderAtReset_dphase : Decoder.atReset.dphase = .hdr := rfl
@[simp] theorem decoderAtReset_endErr : Decoder.atReset.endErr = false := rfl
@[simp] theorem decoderAtReset_decFault : Decoder.atReset.decFault = false := rfl
@[simp] theorem decoderAtReset_decFaultCode : Decoder.atReset.decFaultCode = 0 := rfl

end

/-! ### State.reset -/

@[simp] theorem reset_enc : State.reset.enc = Encoder.atReset := rfl
@[simp] theorem reset_dec : State.reset.dec = Decoder.atReset := rfl
@[simp] theorem reset_encK : State.reset.encK = 0 := rfl
@[simp] theorem reset_decK : State.reset.decK = 0 := rfl
@[simp] theorem reset_env : State.reset.env = ⟨[], [], [], 0⟩ := rfl

end Sys2Proof.Laws
end

