-- ==== Sys2Proof/Laws/Memory.lean ====
section
/-! SUPPORT. The payload buffer as memory: read after write, the rest untouched, the canonical form kept, and equal
contents are equal data. -/

namespace Sys2Proof.Laws

open Sys2Proof.Machine

@[simp] theorem read_nil (a : Nat) : Memory.read [] a = Config.resetEntry := rfl

@[simp] theorem read_cons (k : Nat) (b : Byte) (m : Memory) (a : Nat) :
    Memory.read ((k, b) :: m) a = if k = a then b else Memory.read m a := rfl

/-! ### Unlisting and listing an address -/

/-- An address that is unlisted holds the byte of an unlisted one; the others are as before. -/
theorem read_unlist (m : Memory) (a k : Nat) :
    Memory.read (m.filter fun c => c.1 != a) k = if k = a then Config.resetEntry else Memory.read m k := by
  induction m with
  | nil => simp
  | cons c m ih =>
    obtain ⟨j, d⟩ := c
    by_cases hj : j = a
    · subst hj
      by_cases hk : k = j
      · simp [hk] at ih ⊢; exact ih
      · simp [hk, Ne.symm hk] at ih ⊢; exact ih
    · by_cases hk : j = k
      · subst hk; simp [hj]
      · simp [hj, hk] at ih ⊢; exact ih

theorem not_mem_unlist (m : Memory) (a : Nat) : ∀ c ∈ m.filter (fun c => c.1 != a), c.1 ≠ a := by
  intro c hc
  simpa using (List.mem_filter.1 hc).2

/-- An address that gets listed holds its byte; the others are as before. -/
theorem read_insert {m : Memory} {a : Nat} (h : ∀ c ∈ m, c.1 ≠ a) (b : Byte) (k : Nat) :
    Memory.read (Memory.insert m a b) k = if k = a then b else Memory.read m k := by
  induction m with
  | nil => simp [Memory.insert, eq_comm]
  | cons c m ih =>
    obtain ⟨j, d⟩ := c
    have hj : j ≠ a := h (j, d) (by simp)
    have ih := ih fun c hc => h c (List.mem_cons_of_mem _ hc)
    unfold Memory.insert
    split
    · simp only [read_cons, eq_comm]
    · by_cases hk : k = a
      · subst hk; simp [hj, ih]
      · simp [hk, ih]

theorem mem_insert (m : Memory) (a : Nat) (b : Byte) (c : Host.Cell) (h : c ∈ Memory.insert m a b) :
    c = (a, b) ∨ c ∈ m := by
  induction m with
  | nil => simpa [Memory.insert] using h
  | cons d m ih =>
    obtain ⟨k, e⟩ := d
    unfold Memory.insert at h
    split at h
    · simpa using h
    · rcases List.mem_cons.1 h with h | h
      · exact .inr (by simp [h])
      · exact (ih h).imp id (List.mem_cons_of_mem _)

theorem pairwise_insert {m : Memory} {a : Nat} (hp : m.Pairwise (fun c d => c.1 < d.1)) (h : ∀ c ∈ m, c.1 ≠ a)
    (b : Byte) : (Memory.insert m a b).Pairwise (fun c d => c.1 < d.1) := by
  induction m with
  | nil => simp [Memory.insert]
  | cons d m ih =>
    obtain ⟨k, e⟩ := d
    obtain ⟨h1, h2⟩ := List.pairwise_cons.1 hp
    have hk : k ≠ a := h (k, e) (by simp)
    unfold Memory.insert
    split
    · rename_i hlt
      refine List.pairwise_cons.2 ⟨fun c hc => ?_, hp⟩
      rcases List.mem_cons.1 hc with hc | hc
      · simpa [hc] using hlt
      · exact lt_trans hlt (h1 c hc)
    · refine List.pairwise_cons.2 ⟨fun c hc => ?_, ih h2 fun c hc => h c (List.mem_cons_of_mem _ hc)⟩
      rcases mem_insert m a b c hc with hc | hc
      · simp only [hc]; omega
      · exact h1 c hc

/-! ### Reading after a write -/

/-- Reading after a write, in one equation. -/
theorem read_write (m : Memory) (a k : Nat) (b : Byte) :
    Memory.read (Memory.write m a b) k = if k = a then b else Memory.read m k := by
  unfold Memory.write
  split
  · rename_i hb; rw [read_unlist, hb]
  · rw [read_insert (not_mem_unlist m a), read_unlist]
    split <;> rfl

theorem read_write_same (m : Memory) (a : Nat) (b : Byte) : Memory.read (Memory.write m a b) a = b := by
  rw [read_write, if_pos rfl]

theorem read_write_other (m : Memory) {a k : Nat} (b : Byte) (h : k ≠ a) :
    Memory.read (Memory.write m a b) k = Memory.read m k := by
  rw [read_write, if_neg h]

/-! ### The canonical form -/

theorem wf_nil : Memory.wf [] := ⟨List.Pairwise.nil, by simp⟩

/-- A write inside the buffer keeps the canonical form. -/
theorem wf_write {m : Memory} (h : Memory.wf m) {a : Nat} (b : Byte) (ha : a < Config.litBufDepth) :
    Memory.wf (Memory.write m a b) := by
  have hf : Memory.wf (m.filter fun c => c.1 != a) :=
    ⟨h.1.filter _, fun c hc => h.2 c (List.mem_filter.1 hc).1⟩
  unfold Memory.write
  split
  · exact hf
  · rename_i hb
    refine ⟨pairwise_insert hf.1 (not_mem_unlist m a) b, fun c hc => ?_⟩
    rcases mem_insert _ a b c hc with hc | hc
    · subst hc; exact ⟨ha, hb⟩
    · exact hf.2 c hc

/-- The buffer after an edge with `rst = 1` is in canonical form, whatever the free values are. -/
theorem wf_freeBuffer (n : Nat) : ∀ {k : Nat}, k ≤ Config.litBufDepth → Memory.wf (freeBuffer n k)
  | 0, _ => wf_nil
  | _ + 1, h => wf_write (wf_freeBuffer n (Nat.le_of_succ_le h)) _ h

/-- After an edge with `rst = 1` every entry of the buffer holds its free value. -/
theorem read_freeBuffer (n : Nat) {k a : Nat} (h : a < k) :
    Memory.read (freeBuffer n k) a = Config.freeByte n (3 + a) := by
  induction k with
  | zero => omega
  | succ k ih =>
    rw [freeBuffer, read_write]
    split
    · rename_i e; rw [e]
    · exact ih (by omega)

/-- No address below the listed ones is listed. -/
theorem read_unlisted {m : Memory} {a : Nat} (h : ∀ c ∈ m, a < c.1) : Memory.read m a = Config.resetEntry := by
  induction m with
  | nil => rfl
  | cons d m ih =>
    obtain ⟨k, e⟩ := d
    have hk : a < k := h (k, e) (by simp)
    simp [Nat.ne_of_gt hk, ih fun c hc => h c (List.mem_cons_of_mem _ hc)]

/-- Equal contents are equal data. -/
theorem eq_of_read_eq {m n : Memory} (hm : Memory.wf m) (hn : Memory.wf n)
    (h : ∀ a, Memory.read m a = Memory.read n a) : m = n := by
  induction m generalizing n with
  | nil =>
    cases n with
    | nil => rfl
    | cons d n =>
      obtain ⟨j, e⟩ := d
      exact absurd (by simpa using (h j).symm) (hn.2 (j, e) (by simp)).2
  | cons c m ih =>
    cases n with
    | nil =>
      obtain ⟨k, b⟩ := c
      exact absurd (by simpa using h k) (hm.2 (k, b) (by simp)).2
    | cons d n =>
      obtain ⟨k, b⟩ := c
      obtain ⟨j, e⟩ := d
      obtain ⟨hm1, hm2⟩ := List.pairwise_cons.1 hm.1
      obtain ⟨hn1, hn2⟩ := List.pairwise_cons.1 hn.1
      have hb : b ≠ Config.resetEntry := (hm.2 (k, b) (by simp)).2
      have he : e ≠ Config.resetEntry := (hn.2 (j, e) (by simp)).2
      have hk := h k
      have hj := h j
      simp only [read_cons, if_true] at hk hj
      have hkj : k = j := by
        rcases Nat.lt_trichotomy k j with hlt | heq | hlt
        · rw [if_neg (Nat.ne_of_gt hlt), read_unlisted fun c hc => lt_trans hlt (hn1 c hc)] at hk
          exact absurd hk hb
        · exact heq
        · rw [if_neg (Nat.ne_of_gt hlt), read_unlisted fun c hc => lt_trans hlt (hm1 c hc)] at hj
          exact absurd hj.symm he
      subst hkj
      simp only [if_true] at hk
      subst hk
      rw [ih ⟨hm2, fun c hc => hm.2 c (List.mem_cons_of_mem _ hc)⟩
        ⟨hn2, fun c hc => hn.2 c (List.mem_cons_of_mem _ hc)⟩ fun a => ?_]
      by_cases hak : k = a
      · subst hak
        rw [read_unlisted hm1, read_unlisted hn1]
      · simpa [hak] using h a

end Sys2Proof.Laws
end

