-- ==== Sys2Proof/Laws/Ops.lean ====
section
/-! SUPPORT. What sequencing, the append to the payload buffer and the transfers of the two units can do: one inversion
lemma each. -/

namespace Sys2Proof.Laws

open Sys2Proof.Machine

/-! ### Sequencing -/

section
variable {α β : Type}

@[simp] theorem andThen_next (a : α) (f : α → Host.Outcome β Fault Refusal) : andThen (.next a) f = f a := rfl

@[simp] theorem andThen_fault (r : Fault) (f : α → Host.Outcome β Fault Refusal) :
    andThen (.fault r) f = .fault r := rfl

@[simp] theorem andThen_refused (r : Refusal) (f : α → Host.Outcome β Fault Refusal) :
    andThen (.refused r) f = .refused r := rfl

theorem andThen_eq_next {o : Host.Outcome α Fault Refusal} {f : α → Host.Outcome β Fault Refusal} {b : β} :
    andThen o f = .next b ↔ ∃ a, o = .next a ∧ f a = .next b := by
  cases o <;> simp [andThen]

theorem andThen_assoc {γ : Type} (o : Host.Outcome α Fault Refusal) (f : α → Host.Outcome β Fault Refusal)
    (g : β → Host.Outcome γ Fault Refusal) : andThen (andThen o f) g = andThen o fun a => andThen (f a) g := by
  cases o <;> rfl

end

@[simp] theorem execAll_nil (s : State) : execAll [] s = .next s := rfl

@[simp] theorem execAll_cons (i : Instr) (is : List Instr) (s : State) :
    execAll (i :: is) s = andThen (exec i s) (execAll is) := rfl

@[simp] theorem execAll_singleton (i : Instr) (s : State) : execAll [i] s = exec i s := by
  rw [execAll_cons]; cases exec i s <;> rfl

/-! ### The append to the payload buffer -/

theorem appendSingle_next {e : Encoder} (h : e.litLen.toNat ≤ 126) :
    appendSingle e =
      .next { e with litBuf := Memory.write e.litBuf e.litLen.toNat e.cur, litLen := e.litLen + 1 } := by
  have : e.litLen.toNat < Config.litBufDepth := Nat.lt_succ_of_le h
  simp [appendSingle, this]

theorem appendSingle_eq_next {e f : Encoder} :
    appendSingle e = .next f ↔ e.litLen.toNat ≤ 126 ∧
      f = { e with litBuf := Memory.write e.litBuf e.litLen.toNat e.cur, litLen := e.litLen + 1 } := by
  unfold appendSingle
  split
  · rename_i h
    constructor
    · intro he; cases he; exact ⟨Nat.le_of_lt_succ h, rfl⟩
    · rintro ⟨-, rfl⟩; rfl
  · rename_i h
    constructor
    · intro he; cases he
    · rintro ⟨hl, -⟩; exact absurd (Nat.lt_succ_of_le hl) h

/-! ### Encoder steps: the rule fixes guard and effect -/

/-- Everything an input step with a byte can do (R152 to R159). -/
theorem encStep_byte {b : Byte} {e f : Encoder} (h : encStep (encRuleIn (.byte b) e) (.byte b) e = .next f) :
    (e.cnt = 0 ∧ f = encFirst b e) ∨
    (e.cnt = 1 ∧ b = e.cur ∧ e.litLen = 0 ∧ f = encPair e) ∨
    (e.cnt = 1 ∧ b = e.cur ∧ e.litLen ≠ 0 ∧ f = encPairFlush e) ∨
    (e.cnt ≠ 0 ∧ e.cnt ≠ 1 ∧ e.cnt ≠ 127 ∧ b = e.cur ∧ f = encGrow e) ∨
    (e.cnt = 127 ∧ b = e.cur ∧ f = encCap e) ∨
    (e.cnt ≠ 0 ∧ e.cnt ≠ 1 ∧ b ≠ e.cur ∧ f = encRunClose b e) ∨
    (e.cnt = 1 ∧ b ≠ e.cur ∧ e.litLen.toNat ≤ 125 ∧
      f = { e with litBuf := Memory.write e.litBuf e.litLen.toNat e.cur, litLen := e.litLen + 1, cur := b, cnt := 1 }) ∨
    (e.cnt = 1 ∧ b ≠ e.cur ∧ e.litLen = 126 ∧
      f = { e with litBuf := Memory.write e.litBuf e.litLen.toNat e.cur, litLen := e.litLen + 1, cur := b, cnt := 1,
                   ephase := .litHdr }) := by
  unfold encRuleIn at h
  by_cases h0 : e.cnt = 0
  · simp only [h0, if_true, encStep, encApply, tokenByte, Host.Outcome.next.injEq] at h
    exact .inl ⟨h0, h.symm⟩
  by_cases h1 : e.cnt = 1
  · have h10 : ¬ ((1 : Count) = 0) := by decide
    by_cases hb : b = e.cur
    · by_cases hl : e.litLen = 0
      · simp only [h1, hb, hl, if_true, if_neg h10, encStep, encApply, Host.Outcome.next.injEq] at h
        exact .inr (.inl ⟨h1, hb, hl, h.symm⟩)
      · simp only [h1, hb, hl, if_true, if_neg h10, if_false, encStep, encApply, Host.Outcome.next.injEq] at h
        exact .inr (.inr (.inl ⟨h1, hb, hl, h.symm⟩))
    · by_cases hl : e.litLen.toNat ≤ 125
      · simp only [h1, hb, hl, if_true, if_neg h10, if_false, encStep, encApply, encSingle, tokenByte,
          appendSingle_next (Nat.le_succ_of_le hl), andThen_next, Host.Outcome.next.injEq] at h
        exact .inr (.inr (.inr (.inr (.inr (.inr (.inl ⟨h1, hb, hl, h.symm⟩))))))
      · by_cases hl' : e.litLen = 126
        · have hle : e.litLen.toNat ≤ 126 := by rw [hl']; decide
          have hn : ¬ (126 : Count).toNat ≤ 125 := by decide
          simp only [h1, hb, hl', hn, if_true, if_neg h10, if_false, encStep, encApply, encSingleCap, tokenByte] at h
          rw [appendSingle_next hle] at h
          simp only [andThen_next, Host.Outcome.next.injEq] at h
          exact .inr (.inr (.inr (.inr (.inr (.inr (.inr ⟨h1, hb, hl', h.symm⟩))))))
        · simp only [h1, hb, hl, hl', if_true, if_neg h10, if_false, encStep, reduceCtorEq] at h
  · by_cases hb : b = e.cur
    · by_cases h127 : e.cnt = 127
      · have ha : ¬ ((127 : Count) = 0) := by decide
        have hb' : ¬ ((127 : Count) = 1) := by decide
        simp only [h127, hb, if_true, if_neg ha, if_neg hb', encStep, encApply, Host.Outcome.next.injEq] at h
        exact .inr (.inr (.inr (.inr (.inl ⟨h127, hb, h.symm⟩))))
      · simp only [h0, h1, h127, hb, if_true, if_false, encStep, encApply, Host.Outcome.next.injEq] at h
        exact .inr (.inr (.inr (.inl ⟨h0, h1, h127, hb, h.symm⟩)))
    · simp only [h0, h1, hb, if_false, encStep, encApply, tokenByte, Host.Outcome.next.injEq] at h
      exact .inr (.inr (.inr (.inr (.inr (.inl ⟨h0, h1, hb, h.symm⟩)))))

/-- Everything an input step with `END` can do (R160 to R162). -/
theorem encStep_eom {e f : Encoder} (h : encStep (encRuleIn .eom e) .eom e = .next f) :
    (e.cnt = 0 ∧ f = encEndEmpty e) ∨
    (e.cnt ≠ 0 ∧ e.cnt ≠ 1 ∧ f = encEndRun e) ∨
    (e.cnt = 1 ∧ e.litLen.toNat ≤ 126 ∧
      f = { e with litBuf := Memory.write e.litBuf e.litLen.toNat e.cur, litLen := e.litLen + 1, eosPend := true,
                   cnt := 0, ephase := .litHdr }) := by
  unfold encRuleIn at h
  by_cases h0 : e.cnt = 0
  · simp only [h0, if_true, encStep, encApply, Host.Outcome.next.injEq] at h
    exact .inl ⟨h0, h.symm⟩
  by_cases h1 : e.cnt = 1
  · have h10 : ¬ ((1 : Count) = 0) := by decide
    simp only [h1, if_true, if_neg h10, encStep, encApply, encEndLit, andThen_eq_next, appendSingle_eq_next] at h
    obtain ⟨a, ⟨hl, rfl⟩, ha⟩ := h
    cases ha
    exact .inr (.inr ⟨h1, hl, rfl⟩)
  · simp only [h0, h1, if_false, encStep, encApply, Host.Outcome.next.injEq] at h
    exact .inr (.inl ⟨h0, h1, h.symm⟩)

/-- Everything an output step can do (R163 to R168). -/
theorem encStep_out {t : Token} {e f : Encoder} (h : encStep (encRuleOut e) t e = .next f) :
    (e.ephase = .runHdr ∧ f = encRunHdr e) ∨
    (e.ephase = .runVal ∧ f = encRunVal e) ∨
    (e.ephase = .litHdr ∧ f = encLitHdr e) ∨
    (e.ephase = .litPay ∧ e.litRd.toNat + 1 < e.litLen.toNat ∧ f = encLitPay e) ∨
    (e.ephase = .litPay ∧ e.litRd.toNat + 1 = e.litLen.toNat ∧ f = encLitLast e) ∨
    (e.ephase = .endOut ∧ f = encEndOut e) := by
  unfold encRuleOut at h
  cases hp : e.ephase <;> simp only [hp, encStep, encApply, Host.Outcome.next.injEq, reduceCtorEq] at h
  · exact .inl ⟨rfl, h.symm⟩
  · exact .inr (.inl ⟨rfl, h.symm⟩)
  · exact .inr (.inr (.inl ⟨rfl, h.symm⟩))
  · by_cases hm : morePayload e = true
    · simp only [hm, if_true, Host.Outcome.next.injEq] at h
      exact .inr (.inr (.inr (.inl ⟨rfl, by simpa [morePayload] using hm, h.symm⟩)))
    · by_cases hl : lastPayload e = true
      · simp only [hm, hl, if_true, Bool.false_eq_true, if_false, Host.Outcome.next.injEq] at h
        exact .inr (.inr (.inr (.inr (.inl ⟨rfl, by simpa [lastPayload] using hl, h.symm⟩))))
      · simp [hm, hl] at h
  · exact .inr (.inr (.inr (.inr (.inr ⟨rfl, h.symm⟩))))

/-! ### Decoder steps -/

/-- Everything an input step with a byte can do (R222 to R224, R226, R227, R230). -/
theorem decStep_byte {b : Byte} {d f : Decoder} (h : decStep (decRuleIn (.byte b) d) b d = .next f) :
    (d.dphase = .hdr ∧ headerFlag b = true ∧ f = decHdrRun b d) ∨
    (d.dphase = .hdr ∧ headerFlag b = false ∧ headerCount b = 0 ∧ f = decHdrLit0 d) ∨
    (d.dphase = .hdr ∧ headerFlag b = false ∧ headerCount b ≠ 0 ∧ f = decHdrLit b d) ∨
    (d.dphase = .runVal ∧ d.dcount = 0 ∧ f = decRunVal0 b d) ∨
    (d.dphase = .runVal ∧ d.dcount ≠ 0 ∧ f = decRunVal b d) ∨
    (d.dphase = .litIn ∧ f = decLitIn b d) := by
  unfold decRuleIn at h
  cases hp : d.dphase <;> simp only [hp, decStep, decApply, Host.Outcome.next.injEq, reduceCtorEq] at h
  · cases hf : headerFlag b
    · by_cases hc : headerCount b = 0
      · simp only [hf, hc, Bool.false_eq_true, if_false, if_true, Host.Outcome.next.injEq] at h
        exact .inr (.inl ⟨rfl, rfl, hc, h.symm⟩)
      · simp only [hf, hc, Bool.false_eq_true, if_false, Host.Outcome.next.injEq] at h
        exact .inr (.inr (.inl ⟨rfl, rfl, hc, h.symm⟩))
    · simp only [hf, if_true, Host.Outcome.next.injEq] at h
      exact .inl ⟨rfl, rfl, h.symm⟩
  · by_cases hc : d.dcount = 0
    · simp only [hc, if_true, Host.Outcome.next.injEq] at h
      exact .inr (.inr (.inr (.inl ⟨rfl, hc, h.symm⟩)))
    · simp only [hc, if_false, Host.Outcome.next.injEq] at h
      exact .inr (.inr (.inr (.inr (.inl ⟨rfl, hc, h.symm⟩))))
  · exact .inr (.inr (.inr (.inr (.inr ⟨rfl, h.symm⟩))))

/-- Everything an input step with `END` can do (R225, R228, R231). -/
theorem decStep_eom {d f : Decoder} {b : Byte} (h : decStep (decRuleIn .eom d) b d = .next f) :
    (d.dphase = .hdr ∧ f = decHdrEnd d) ∨ (d.dphase = .runVal ∧ f = decRunTrunc d) ∨
    (d.dphase = .litIn ∧ f = decLitTrunc d) := by
  unfold decRuleIn at h
  cases hp : d.dphase <;> simp only [hp, decStep, decApply, Host.Outcome.next.injEq, reduceCtorEq] at h
  · exact .inl ⟨rfl, h.symm⟩
  · exact .inr (.inl ⟨rfl, h.symm⟩)
  · exact .inr (.inr ⟨rfl, h.symm⟩)

/-- Everything an output step can do (R229, R232, R233). -/
theorem decStep_out {d f : Decoder} {b : Byte} (h : decStep (decRuleOut d) b d = .next f) :
    (d.dphase = .runOut ∧ d.dcount ≠ 0 ∧ f = decRunOut d) ∨ (d.dphase = .litOut ∧ d.dcount ≠ 0 ∧ f = decLitOut d) ∨
    (d.dphase = .endOut ∧ f = decEndOut d) := by
  unfold decRuleOut at h
  cases hp : d.dphase <;> simp only [hp, decStep, decApply, Host.Outcome.next.injEq, reduceCtorEq] at h
  · by_cases hc : d.dcount = 0
    · simp [hc] at h
    · simp only [hc, if_false, Host.Outcome.next.injEq] at h
      exact .inl ⟨rfl, hc, h.symm⟩
  · by_cases hc : d.dcount = 0
    · simp [hc] at h
    · simp only [hc, if_false, Host.Outcome.next.injEq] at h
      exact .inr (.inl ⟨rfl, hc, h.symm⟩)
  · exact .inr (.inr ⟨rfl, h.symm⟩)

/-! ### Transfers on the state -/

/-- Everything a token presented on `ei` can do (R63). -/
theorem takeEi_next {t : Token} {s s' : State} (h : takeEi t s = .next s') :
    (s.enc.ephase ≠ .collect ∧ s' = s) ∨
    (s.enc.ephase = .collect ∧ ∃ e, encStep (encRuleIn t s.enc) t s.enc = .next e ∧
      s' = { s with enc := e, encK := positionAfter t s.encK }) := by
  unfold takeEi at h
  split at h
  · rename_i hr
    obtain ⟨e, he, hs⟩ := andThen_eq_next.1 h
    cases hs
    exact .inr ⟨by simpa [Encoder.inReady] using hr, e, he, rfl⟩
  · rename_i hr
    cases h
    exact .inl ⟨by simpa [Encoder.inReady] using hr, rfl⟩

/-- Everything an output transfer on `eo` can do. -/
theorem putEo_next {t : Token} {s s' : State} (h : putEo t s = .next s') :
    ∃ e, encStep (encRuleOut s.enc) t s.enc = .next e ∧ s' = outputEo t { s with enc := e } := by
  obtain ⟨e, he, hs⟩ := andThen_eq_next.1 h
  cases hs
  exact ⟨e, he, rfl⟩

/-- Everything a host that accepts `t` on `eo` can do (R62, R63). -/
theorem acceptEo_next {t : Token} {s s' : State} (h : acceptEo t s = .next s') :
    (s.enc.ephase = .collect ∧ s' = s) ∨
    (s.enc.ephase ≠ .collect ∧ s.enc.offer = some t ∧ ∃ e, encStep (encRuleOut s.enc) t s.enc = .next e ∧
      s' = outputEo t { s with enc := e }) := by
  unfold acceptEo at h
  split at h
  · rename_i hv
    have hc : s.enc.ephase ≠ .collect := by simpa [Encoder.outValid] using hv
    cases ho : s.enc.offer with
    | none => simp [ho] at h
    | some u =>
      simp only [ho] at h
      split at h
      · rename_i htu
        subst htu
        exact .inr ⟨hc, rfl, putEo_next h⟩
      · cases h
  · rename_i hv
    cases h
    exact .inl ⟨by simpa [Encoder.outValid] using hv, rfl⟩

/-- Everything a token presented on `di` can do (R63). -/
theorem takeDi_next {t : Token} {s s' : State} (h : takeDi t s = .next s') :
    (s.dec.inReady = false ∧ s' = s) ∨
    (s.dec.inReady = true ∧ ∃ d, decStep (decRuleIn t s.dec) (tokenByte t) s.dec = .next d ∧
      s' = { s with dec := d, decK := positionAfter t s.decK }) := by
  unfold takeDi at h
  split at h
  · rename_i hr
    obtain ⟨d, hd, hs⟩ := andThen_eq_next.1 h
    cases hs
    exact .inr ⟨hr, d, hd, rfl⟩
  · rename_i hr
    cases h
    exact .inl ⟨by simpa using hr, rfl⟩

/-- Everything an output transfer on `do` can do. -/
theorem putDo_next {t : DoToken} {s s' : State} (h : putDo t s = .next s') :
    ∃ d, decStep (decRuleOut s.dec) 0 s.dec = .next d ∧ s' = outputDo t { s with dec := d } := by
  obtain ⟨d, hd, hs⟩ := andThen_eq_next.1 h
  cases hs
  exact ⟨d, hd, rfl⟩

/-- Everything a host that accepts `t` on `do` can do (R62, R63). -/
theorem acceptDo_next {t : DoToken} {s s' : State} (h : acceptDo t s = .next s') :
    (s.dec.offer = none ∧ s' = s) ∨
    (s.dec.offer = some t ∧ ∃ d, decStep (decRuleOut s.dec) 0 s.dec = .next d ∧ s' = outputDo t { s with dec := d }) := by
  unfold acceptDo at h
  cases ho : s.dec.offer with
  | none => simp only [ho] at h; cases h; exact .inl ⟨rfl, rfl⟩
  | some u =>
    simp only [ho] at h
    split at h
    · rename_i htu
      subst htu
      exact .inr ⟨rfl, putDo_next h⟩
    · cases h

end Sys2Proof.Laws
end

