-- ==== Sys2Proof/Laws/Chunk.lean ====
section
/-! SUPPORT. The decoder's output steps and the two loops of the chunk instructions: what putting out copies and passing
payload bytes through does, once for all. -/

namespace Sys2Proof.Laws

open Sys2Proof.Machine

/-- One copy of a run (R229). -/
theorem putDo_runOut {s : State} {t : DoToken} (hp : s.dec.dphase = .runOut) (hc : s.dec.dcount ≠ 0) :
    putDo t s = .next (outputDo t { s with dec := decRunOut s.dec }) := by
  unfold putDo decRuleOut
  simp only [hp, if_neg hc, decStep, decApply, andThen_next]

/-- One literal byte goes out (R232). -/
theorem putDo_litOut {s : State} {t : DoToken} (hp : s.dec.dphase = .litOut) (hc : s.dec.dcount ≠ 0) :
    putDo t s = .next (outputDo t { s with dec := decLitOut s.dec }) := by
  unfold putDo decRuleOut
  simp only [hp, if_neg hc, decStep, decApply, andThen_next]

/-- One literal byte comes in (R230). -/
theorem takeDi_litIn {s : State} {b : Byte} (hp : s.dec.dphase = .litIn) :
    takeDi (.byte b) s = .next { s with dec := decLitIn b s.dec, decK := s.decK + 1 } := by
  unfold takeDi decRuleIn
  simp only [Decoder.inReady, hp, decStep, decApply, andThen_next, tokenByte, positionAfter]
  rfl

theorem count_ne_zero {c : Count} {n : Nat} (h : c.toNat = n + 1) : c ≠ 0 := by
  intro e; rw [e] at h; simp at h

theorem count_pred {c : Count} {n : Nat} (h : c.toNat = n + 2) : (c - 1).toNat = n + 1 := by
  have := c.isLt
  have h1 : (1 : Count).toNat = 1 := rfl
  rw [BitVec.toNat_sub, h1]
  omega

theorem count_eq_one {c : Count} (h : c.toNat = 1) : c = 1 := BitVec.eq_of_toNat_eq h

/-- The copies of a run: `count` steps R229 from `D_RUN_OUT` back to `D_HDR`. -/
theorem putCopies_runOut (n : Nat) : ∀ s : State, s.dec.dphase = .runOut → s.dec.dcount.toNat = n + 1 →
    putCopies (n + 1) s =
      .next { s with
        dec := { s.dec with dcount := 0, dphase := .hdr }
        env := { s.env with doOut := s.env.doOut ++ List.replicate (n + 1) (DoToken.byte s.dec.dval) } } := by
  induction n with
  | zero =>
    intro s hp hc
    have h1 := count_eq_one hc
    simp only [putCopies, Decoder.offer, hp, putDo_runOut hp (count_ne_zero hc), andThen_next, decRunOut, h1, outputDo]
    rfl
  | succ n ih =>
    intro s hp hc
    have h1 : s.dec.dcount ≠ 1 := by intro e; rw [e] at hc; simp at hc
    rw [putCopies]
    simp only [Decoder.offer, hp]
    rw [putDo_runOut hp (count_ne_zero hc), andThen_next, ih]
    · simp [outputDo, decRunOut, List.replicate_succ]
    · simp only [outputDo_dec, decRunOut, if_neg h1]
    · simpa [decRunOut] using count_pred hc

/-- The payload of a literal chunk: `count` alternations of R230 and R232 from `D_LIT_IN` back to `D_HDR`. -/
theorem passPayload_litIn (bs : List Byte) : ∀ (b : Byte) (s : State), s.dec.dphase = .litIn →
    s.dec.dcount.toNat = bs.length + 1 →
    passPayload (b :: bs) s =
      .next { s with
        dec := { s.dec with dcount := 0, dval := (b :: bs).getLast (by simp), dphase := .hdr }
        decK := s.decK + (bs.length + 1)
        env := { s.env with doOut := s.env.doOut ++ (b :: bs).map DoToken.byte } } := by
  induction bs with
  | nil =>
    intro b s hp hc
    have h1 := count_eq_one hc
    simp only [passPayload, takeDi_litIn hp, andThen_next, putCopies, Decoder.offer, decLitIn]
    rw [putDo_litOut rfl (by simpa using count_ne_zero hc)]
    simp [decLitOut, h1, outputDo]
  | cons b' bs ih =>
    intro b s hp hc
    have h1 : s.dec.dcount ≠ 1 := by intro e; rw [e] at hc; simp at hc
    rw [passPayload, takeDi_litIn hp, andThen_next]
    simp only [putCopies, Decoder.offer, decLitIn]
    rw [putDo_litOut rfl (by simpa using count_ne_zero hc)]
    simp only [andThen_next]
    rw [ih]
    · simp [decLitOut, outputDo]; omega
    · simp only [outputDo_dec, decLitOut, if_neg h1]
    · simpa [decLitOut] using count_pred hc

end Sys2Proof.Laws
end

