-- ==== Sys2Proof/Laws/Fetch.lean ====
section
/-! SUPPORT. What the ports' words decode to, what an edge fetches, and how chunks are read off the front of a byte
sequence. -/

namespace Sys2Proof.Laws

open Sys2Proof.Machine

/-! ### Port words (R91) -/

@[simp] theorem lineEos_tokenLines (eos : Bool) (b : Byte) : lineEos (tokenLines eos b) = eos := by
  have h : ∀ (eos : Bool) (b : Byte), lineEos (tokenLines eos b) = eos := by decide
  exact h eos b

@[simp] theorem lineData_tokenLines (eos : Bool) (b : Byte) : lineData (tokenLines eos b) = b := by
  have h : ∀ (eos : Bool) (b : Byte), lineData (tokenLines eos b) = b := by decide
  exact h eos b

@[simp] theorem wordToken_tokenWord (t : Token) : wordToken (tokenWord t) = t := by
  cases t <;> simp [tokenWord, wordToken]

@[simp] theorem decodeToken_tokenWord (p : Port) (t : Token) : decodeToken p (tokenWord t) = t.on p := by
  simp [decodeToken]

@[simp] theorem decodeDo_doTokenWord (u : DoToken) : decodeDo (doTokenWord u) = .ok u.onDo := by
  cases u with
  | byte b =>
    have h : ∀ b : Byte, decodeDo (doTokenWord (.byte b)) = .ok (.byteDo b) := by decide
    exact h b
  | eom err => cases err <;> decide

/-- The instruction on `eo` is the transfer of the offered token. -/
theorem eoInstr_offer {s : State} {t : Token} (h : s.enc.offer = some t) : eoInstr s = t.on .eo := by
  simp [eoInstr, State.eoLines, h]

/-- The instruction on `do` is the transfer of the offered token. -/
theorem doInstr_offer {s : State} {u : DoToken} (h : s.dec.offer = some u) : doInstr s = [u.onDo] := by
  simp [doInstr, State.doLines, h, decoded?]

/-- The decoder offers a token exactly when it is not ready for one (R64). -/
theorem decoder_offer_isSome (d : Decoder) : d.offer.isSome = !d.inReady := by
  cases h : d.dphase <;> simp [Decoder.offer, Decoder.inReady, h]

/-! ### Chunks at the front of a byte sequence (R96) -/

/-- A chunk that can be read can be read with anything after it. -/
theorem decodeChunk_append {bytes : List Byte} {i : Instr} {more : List Byte} (h : decodeChunk bytes = .ok (i, more))
    (tail : List Byte) : decodeChunk (bytes ++ tail) = .ok (i, more ++ tail) := by
  cases bytes with
  | nil => simp [decodeChunk] at h
  | cons b rest =>
    simp only [decodeChunk, List.cons_append] at h ⊢
    cases hf : headerFlag b
    · simp only [hf, Bool.false_eq_true, if_false] at h ⊢
      split at h
      · cases h
      · rename_i hl
        have hl' : ¬ (rest ++ tail).length < (headerCount b).toNat := by simp; omega
        simp only [hl', if_false]
        cases h
        rw [List.take_append_of_le_length (by omega), List.drop_append_of_le_length (by omega)]
    · simp only [hf, if_true] at h ⊢
      cases rest with
      | nil => simp at h
      | cons v more' => simp only [Except.ok.injEq, Prod.mk.injEq] at h; obtain ⟨h1, h2⟩ := h; subst h1 h2; rfl

/-- Bytes that decode to one chunk are that chunk and nothing more. -/
theorem decode_chunk_ok {bytes : List Byte} {i : Instr} (h : decode (.chunk bytes) = .ok i) :
    decodeChunk bytes = .ok (i, []) := by
  unfold decode at h
  simp only at h
  cases hd : decodeChunk bytes with
  | error r => simp [hd] at h
  | ok p =>
    obtain ⟨j, more⟩ := p
    cases more with
    | nil => simp only [hd, Except.ok.injEq] at h; rw [h]
    | cons b bs => simp [hd] at h

/-- The bytes at the front of a fed message. -/
theorem leadingBytes_byteWords (bytes : List Byte) (more : List TokenWord) :
    leadingBytes (byteWords bytes ++ more) = bytes ++ leadingBytes more := by
  induction bytes with
  | nil => rfl
  | cons b bs ih =>
    have : byteWords (b :: bs) ++ more = tokenWord (.byte b) :: (byteWords bs ++ more) := rfl
    rw [this, leadingBytes]
    simp [tokenWord, ih]

/-- A chunk's instruction is well formed and one of the two kinds. -/
theorem decodeChunk_isChunk {bytes : List Byte} {i : Instr} {more : List Byte}
    (h : decodeChunk bytes = .ok (i, more)) : isChunk i = true := by
  cases bytes with
  | nil => simp [decodeChunk] at h
  | cons b rest =>
    simp only [decodeChunk] at h
    cases hf : headerFlag b
    · simp only [hf, Bool.false_eq_true, if_false] at h
      split at h
      · cases h
      · cases h
        simp [isChunk, Instr.wf]; omega
    · simp only [hf, if_true] at h
      cases rest with
      | nil => simp at h
      | cons v more' => simp only [Except.ok.injEq, Prod.mk.injEq] at h; obtain ⟨h1, -⟩ := h; subst h1; rfl

end Sys2Proof.Laws
end

