-- ==== Sys2Proof/Laws/Invariant.lean ====
section
/-! SUPPORT. The units' own invariants: every step rule keeps them, and where they hold a rule applies and its accesses to
the payload buffer are in range. -/

namespace Sys2Proof.Laws

open Sys2Proof.Machine

/-! ### The decoder (R235) -/

theorem decInv_raiseMalformed {d : Decoder} (h : DecInv d) (c : Cause) : DecInv (raiseMalformed c d) := by
  refine ⟨by simp, ?_, by simp, by simp⟩
  intro _
  cases hf : d.decFault
  · cases c <;> simp [hf, causeCode]
  · simpa [hf] using h.code hf

theorem decInv_endMessage {d : Decoder} (h : DecInv d) : DecInv (endMessage d) :=
  ⟨by simpa using h.noCode, by simpa using h.code, by simp, by simp⟩

theorem count_pos {c : Count} (h : c ≠ 0) : 1 ≤ c.toNat := by
  rcases Nat.eq_zero_or_pos c.toNat with h0 | h0
  · exact absurd (BitVec.eq_of_toNat_eq (by simpa using h0)) h
  · exact h0

theorem count_pred_pos {c : Count} (h0 : c ≠ 0) (h1 : c ≠ 1) : 1 ≤ (c - 1).toNat := by
  have hp := count_pos h0
  have h1' : c.toNat ≠ 1 := fun e => h1 (BitVec.eq_of_toNat_eq (by simpa using e))
  have hl := c.isLt
  have he : (1 : Count).toNat = 1 := rfl
  rw [BitVec.toNat_sub, he]
  omega

/-- An input step of the decoder keeps its invariant. -/
theorem decStep_in_keeps {t : Token} {d f : Decoder} (hi : DecInv d)
    (h : decStep (decRuleIn t d) (tokenByte t) d = .next f) : DecInv f := by
  cases t with
  | byte b =>
    rcases decStep_byte h with ⟨hp, -, rfl⟩ | ⟨hp, -, -, rfl⟩ | ⟨hp, -, hc, rfl⟩ | ⟨hp, -, rfl⟩ | ⟨hp, hc, rfl⟩ | ⟨hp, rfl⟩
    · exact ⟨hi.noCode, hi.code, fun _ => hi.endErr (by simp [hp]), by simp [decHdrRun]⟩
    · exact ⟨hi.noCode, hi.code, fun _ => hi.endErr (by simp [hp]), by simp [decHdrLit0, hp]⟩
    · exact ⟨hi.noCode, hi.code, fun _ => hi.endErr (by simp [hp]), fun _ => count_pos hc⟩
    · exact ⟨hi.noCode, hi.code, fun _ => hi.endErr (by simp [hp]), by simp [decRunVal0]⟩
    · exact ⟨hi.noCode, hi.code, fun _ => hi.endErr (by simp [hp]), fun _ => count_pos hc⟩
    · exact ⟨hi.noCode, hi.code, fun _ => hi.endErr (by simp [hp]), fun _ => hi.dcount (by simp [hp])⟩
  | eom =>
    rcases decStep_eom h with ⟨hp, rfl⟩ | ⟨hp, rfl⟩ | ⟨hp, rfl⟩
    · exact ⟨hi.noCode, hi.code, by simp [decHdrEnd], by simp [decHdrEnd]⟩
    · exact decInv_raiseMalformed hi _
    · exact decInv_raiseMalformed hi _

/-- An output step of the decoder keeps its invariant. -/
theorem decStep_out_keeps {d f : Decoder} {b : Byte} (hi : DecInv d) (h : decStep (decRuleOut d) b d = .next f) :
    DecInv f := by
  rcases decStep_out h with ⟨hp, hc, rfl⟩ | ⟨hp, hc, rfl⟩ | ⟨hp, rfl⟩
  · refine ⟨hi.noCode, hi.code, fun _ => hi.endErr (by simp [hp]), fun hq => ?_⟩
    refine count_pred_pos hc fun h1 => ?_
    simp only [decRunOut, if_pos h1] at hq
    simp at hq
  · refine ⟨hi.noCode, hi.code, fun _ => hi.endErr (by simp [hp]), fun hq => ?_⟩
    refine count_pred_pos hc fun h1 => ?_
    simp only [decLitOut, if_pos h1] at hq
    simp at hq
  · exact decInv_endMessage hi

/-- The decoder after reset meets its invariant, whatever the free values are. -/
theorem decInv_reset (n : Nat) : DecInv (resetDecoder n) := ⟨by simp, by simp, by simp, by simp⟩

/-! ### The encoder (R169) -/

/-- The encoder after reset meets its invariant, whatever the free values are. -/
theorem encInv_reset (n : Nat) : EncInv (resetEncoder n) where
  litRd := by simp
  collectFlags := by simp
  collectLen := by simp
  collectEmpty := by simp
  runOut := by simp
  litHdr := by simp
  litPay := by simp
  endOut := by simp
  noPair := by simp
  lastDiffers := by simp
  bufWf := wf_freeBuffer n (Nat.le_refl _)

/-- The append of a single: the length goes up without wrapping, the entries below it are as before, the new one is the
candidate. -/
theorem append_litLen {c : Count} (h : c.toNat ≤ 126) : (c + 1).toNat = c.toNat + 1 := by
  have he : (1 : Count).toNat = 1 := rfl
  rw [BitVec.toNat_add, he]
  omega

/-- Where the invariant holds, the encoder offers a token in every output phase (R172). -/
theorem encoder_offer_isSome {e : Encoder} (hi : EncInv e) : e.offer.isSome = e.outValid := by
  cases h : e.ephase <;> simp [Encoder.offer, Encoder.outByte, Encoder.outValid, h]
  have hr : e.litRd.toNat < Config.litBufDepth := Nat.lt_succ_of_le hi.litRd
  simp only [if_pos hr]
  rfl

/-- Where the invariant holds, an input rule applies in `E_COLLECT` and completes (R170). -/
theorem encStep_in_completes {e : Encoder} (hi : EncInv e) (hp : e.ephase = .collect) (t : Token) :
    ∃ f, encStep (encRuleIn t e) t e = .next f := by
  have hl := hi.collectLen hp
  cases t with
  | byte b =>
    unfold encRuleIn
    by_cases h0 : e.cnt = 0
    · exact ⟨_, by simp only [h0, if_true]; rfl⟩
    by_cases h1 : e.cnt = 1
    · have h10 : ¬ ((1 : Count) = 0) := by decide
      by_cases hb : b = e.cur
      · by_cases hz : e.litLen = 0
        · exact ⟨_, by simp only [h1, hb, hz, if_true, if_neg h10]; rfl⟩
        · exact ⟨_, by simp only [h1, hb, if_neg hz, if_true, if_neg h10]; rfl⟩
      · by_cases hs : e.litLen.toNat ≤ 125
        · exact ⟨_, by
            simp only [h1, if_neg hb, if_pos hs, if_true, if_neg h10, encStep, encApply, encSingle,
              appendSingle_next hl, andThen_next]; rfl⟩
        · have h126 : e.litLen = 126 := BitVec.eq_of_toNat_eq (by change _ = 126; omega)
          exact ⟨_, by
            simp only [h1, if_neg hb, if_neg hs, if_pos h126, if_true, if_neg h10, encStep, encApply, encSingleCap,
              appendSingle_next hl, andThen_next]; rfl⟩
    · by_cases hb : b = e.cur
      · by_cases h127 : e.cnt = 127
        · exact ⟨_, by simp only [if_neg h0, if_neg h1, if_pos hb, if_pos h127]; rfl⟩
        · exact ⟨_, by simp only [if_neg h0, if_neg h1, if_pos hb, if_neg h127]; rfl⟩
      · exact ⟨_, by simp only [if_neg h0, if_neg h1, if_neg hb]; rfl⟩
  | eom =>
    unfold encRuleIn
    by_cases h0 : e.cnt = 0
    · exact ⟨_, by simp only [h0, if_true]; rfl⟩
    by_cases h1 : e.cnt = 1
    · have h10 : ¬ ((1 : Count) = 0) := by decide
      exact ⟨_, by
        simp only [h1, if_true, if_neg h10, encStep, encApply, encEndLit, appendSingle_next hl, andThen_next]; rfl⟩
    · exact ⟨_, by simp only [if_neg h0, if_neg h1]; rfl⟩

end Sys2Proof.Laws
end

