-- ==== Sys2Proof/Laws/PerInstr.lean ====
section
/-! SUPPORT. Statements for all instructions, one lemma a constructor. MatchesRow: the word an instruction is encoded in
matches its row of spec/opcode_table.json (R97). -/

namespace Sys2Proof.Laws

/-- The word of a well-formed instruction fits the row's width and matches the row under its mask. -/
def MatchesRow.Statement (i : Instr) : Prop :=
  i.WellFormed → tableWord i < 2 ^ (rowOf i).width ∧ (rowOf i).accepts (tableWord i) = true

/-- The header of a literal chunk is the count. -/
theorem litHeader_toNat (c : Count) : (litHeader c).toNat = c.toNat := by
  have := c.isLt
  simp only [litHeader, BitVec.toNat_setWidth]
  omega

/-- The header of a run chunk is 128 + count (R93, R106). -/
theorem runHeader_toNat (c : Count) : (runHeader c).toNat = 128 + c.toNat := by
  have h : ∀ c : Count, (runHeader c).toNat = 128 + c.toNat := by decide
  exact h c

theorem MatchesRow.lit (count : Count) (payload : List Byte) : MatchesRow.Statement (.lit count payload) := by
  intro _
  have h : ∀ c : Count, (litHeader c).toNat < 256 ∧ (litHeader c).toNat &&& 128 = 0 := by decide
  simpa [tableWord, encode, rowOf, Row.accepts] using h count

theorem MatchesRow.run (count : Count) (value : Byte) : MatchesRow.Statement (.run count value) := by
  intro _
  have h : ∀ c : Count, (runHeader c).toNat < 256 ∧ (runHeader c).toNat &&& 128 = 128 := by decide
  simpa [tableWord, encode, rowOf, Row.accepts] using h count

theorem MatchesRow.byte (port : Port) (b : Byte) : MatchesRow.Statement (.byte port b) := by
  intro _
  have h : ∀ b : Byte, (tokenWord (.byte b)).toNat < 512 ∧ (tokenWord (.byte b)).toNat &&& 256 = 0 := by decide
  simpa [tableWord, encode, rowOf, Row.accepts] using h b

theorem MatchesRow.endMsg (port : Port) : MatchesRow.Statement (.endMsg port) := by
  intro _
  simp [tableWord, encode, rowOf, Row.accepts, tokenWord, tokenLines]

theorem MatchesRow.byteDo (b : Byte) : MatchesRow.Statement (.byteDo b) := by
  intro _
  have h : ∀ b : Byte, (doTokenWord (.byte b)).toNat < 1024 ∧ (doTokenWord (.byte b)).toNat &&& 768 = 0 := by decide
  simpa [tableWord, encode, rowOf, Row.accepts] using h b

theorem MatchesRow.endDo (err : Bool) : MatchesRow.Statement (.endDo err) := by
  intro _
  cases err <;> decide

end Sys2Proof.Laws
end

