-- ==== Sys2Proof/Tests/Slice0.lean ====
section
/-! SUPPORT. Small tests, their expected results taken from the spec (the vector's name of spec/95_test_vectors.md stands
in each docstring), and the witnesses: for every statement with hypotheses, a concrete state and operands that meet them
all, one for each clause. -/

namespace Sys2Proof.Tests

open Sys2Proof.Machine

/-! ### Helpers -/

/-- A state whose encoder is given, everything else as after reset. -/
def encSt (ephase : EPhase) (cur : Byte) (cnt litLen litRd emCnt : Count) (emVal : Byte) (eosPend : Bool)
    (litBuf : Memory) : State :=
  { State.reset with enc := ⟨ephase, cur, cnt, litLen, litRd, emCnt, emVal, eosPend, litBuf⟩ }

/-- A state whose decoder is given, everything else as after reset. -/
def decSt (dphase : DPhase) (dcount : Count) (dval : Byte) (endErr decFault : Bool) (code : BitVec 2) : State :=
  { State.reset with dec := ⟨dphase, dcount, dval, endErr, decFault, code⟩ }

/-- The same state with a host that has `a` planned. -/
def planning (a : List HostEvent) (s : State) : State := { s with env := { s.env with agenda := a } }

/-- The next state of an outcome, the given state where there is none. -/
def nextOr (s : State) : Host.Outcome State Fault Refusal → State
  | .next t => t
  | .fault _ => s
  | .refused _ => s

/-- Whether an outcome is a next state. -/
def completes : Host.Outcome State Fault Refusal → Bool
  | .next _ => true
  | .fault _ => false
  | .refused _ => false

/-- `exec` from `s`, and the one state of it a witness needs. -/
def after (i : Instr) (s : State) : State := nextOr s (exec i s)

/-! ### WellFormed -/

/-- A LIT whose payload is shorter than its count is refused (R94). -/
theorem test_wf_lit_short : (Instr.lit 2 [7]).wf = false := by decide

/-- A LIT whose payload is longer than its count is refused (R94). -/
theorem test_wf_lit_long : (Instr.lit 0 [7]).wf = false := by decide

/-- A LIT with exactly its payload is accepted (R94). -/
theorem test_wf_lit_exact : (Instr.lit 2 [7, 8]).wf = true := by decide

/-! ### Decoding: words written out from R91, R93, R94 -/

/-- R93: `1ccccccc` with c = 3, then the value. -/
theorem test_decode_run : decode (.chunk [0b10000011, 0b00000010]) = .ok (.run 3 2) := by decide

/-- R94: `0ccccccc` with c = 2, then two bytes that look like headers (vector D14). -/
theorem test_decode_lit : decode (.chunk [0b00000010, 0x80, 0x01]) = .ok (.lit 2 [0x80, 0x01]) := by decide

/-- R99: header 0x00 is a whole chunk. -/
theorem test_decode_lit0 : decode (.chunk [0b00000000]) = .ok (.lit 0 []) := by decide

/-- R91: `0bbbbbbbb` with b = 0x82. -/
theorem test_decode_byte : decode (.token .eo 0b010000010#9) = .ok (.byte .eo 0x82) := by decide

/-- R91: `1xxxxxxxx`, the data bits ignored. -/
theorem test_decode_end : decode (.token .di 0b110100101#9) = .ok (.endMsg .di) := by decide

/-- Row BYTE.do: `00bbbbbbbb` with b = 9. -/
theorem test_decode_byte_do : decode (.tokenDo 0b0000001001#10) = .ok (.byteDo 9) := by decide

/-- Row END.do: `e100000000` with e = 1. -/
theorem test_decode_end_do : decode (.tokenDo 0b1100000000#10) = .ok (.endDo true) := by decide

/-- R101: a run header alone is no chunk. -/
theorem test_decode_trunc_run : decode (.chunk [0x82]) = .error .truncRun := by decide

/-- R101: a literal header with too few bytes is no chunk. -/
theorem test_decode_trunc_lit : decode (.chunk [0x03, 0x01, 0x02]) = .error .truncLit := by decide

/-- R91: `err` is driven 0 with BYTE. -/
theorem test_decode_do_err_on_byte : decode (.tokenDo 0b1000000001#10) = .error .errOnByte := by decide

/-- Row END.do: the data bits are 0. -/
theorem test_decode_do_data_on_end : decode (.tokenDo 0b0100000001#10) = .error .dataOnEndDo := by decide

/-! ### One step, at most two tests an instruction -/

/-- Vector T10 (R159): the 127th byte closes the literal. -/
theorem test_byte_ei_single_cap :
    let t := after (.byte .ei 127) (encSt .collect 126 1 126 0 0 0 false [])
    t.enc.ephase = .litHdr ∧ t.enc.litLen = 127 ∧ t.enc.cur = 127 ∧ t.enc.litBuf = [(126, 126)] := by decide

/-- R158: the byte 0 overwrites a leftover entry like any other byte, and the list stays canonical. -/
theorem test_byte_ei_stores_zero :
    let t := after (.byte .ei 5) (encSt .collect 0 1 0 0 0 0 false [(0, 9), (1, 7)])
    Memory.read t.enc.litBuf 0 = 0 ∧ Memory.read t.enc.litBuf 1 = 7 ∧ t.enc.litBuf = [(1, 7)] := by decide

/-- Vector U6 (R224): header 0x00 puts nothing out and stays at the boundary. -/
theorem test_byte_di_lit0 :
    let t := after (.byte .di 0x00) (decSt .hdr 5 0 false false 0)
    t.dec.dphase = .hdr ∧ t.dec.dcount = 0 ∧ t.env.doOut = [] := by decide

/-- Vector T14 (R162). -/
theorem test_end_ei_lit :
    let t := after (.endMsg .ei) (encSt .collect 126 1 126 0 0 0 false [])
    t.enc.ephase = .litHdr ∧ t.enc.cnt = 0 ∧ t.enc.litLen = 127 ∧ t.enc.eosPend = true := by decide

/-- Vector U16 (R231): the first cause is kept. -/
theorem test_end_di_trunc_keeps_first_cause :
    (after (.endMsg .di) (decSt .litIn 1 7 false true 1)).dec = ⟨.endOut, 1, 7, true, true, 1⟩ := by decide

/-- Vector U13 (R229): the last copy. -/
theorem test_byte_do_last_copy :
    let t := after (.byteDo 2) (decSt .runOut 1 2 false false 0)
    t.dec = ⟨.hdr, 0, 2, false, false, 0⟩ ∧ t.env.doOut = [.byte 2] := by decide

/-- Vector U17 (R232). -/
theorem test_byte_do_literal :
    let t := after (.byteDo 7) (decSt .litOut 2 7 false false 0)
    t.dec = ⟨.litIn, 1, 7, false, false, 0⟩ ∧ t.env.doOut = [.byte 7] := by decide

/-- Vector U20 (R233). -/
theorem test_end_do_error :
    let t := after (.endDo true) (decSt .endOut 0 0 true true 2)
    t.dec = ⟨.hdr, 0, 0, false, true, 2⟩ ∧ t.env.doOut = [.eom true] := by decide

/-- R193's example: `[0x83, 2]` emits `[2, 2, 2]`. -/
theorem test_run : (after (.run 3 2) State.reset).env.doOut = [.byte 2, .byte 2, .byte 2] := by decide

/-- R99: RUN 0 consumes its value and emits nothing. -/
theorem test_run_zero :
    let t := after (.run 0 7) State.reset
    t.env.doOut = [] ∧ t.decK = 2 ∧ t.dec.dval = 7 := by decide

/-- R194's example: `[0x02, 7, 8]` emits `[7, 8]`. -/
theorem test_lit : (after (.lit 2 [7, 8]) State.reset).env.doOut = [.byte 7, .byte 8] := by decide

/-! ### The host's two questions, on one word a row -/

theorem test_table_lit : decodeTableWord 8 0x02 = some (.lit 2 [0, 0]) := by decide
theorem test_table_run : decodeTableWord 8 0x83 = some (.run 3 0) := by decide
theorem test_table_byte : decodeTableWord 16 0x005 = some (.byte .ei 5) := by decide
theorem test_table_end : decodeTableWord 16 0x100 = some (.endMsg .ei) := by decide
theorem test_table_byte_do : decodeTableWord 10 0x005 = some (.byteDo 5) := by decide
theorem test_table_end_do : decodeTableWord 16 0x300 = some (.endDo true) := by decide

/-- The next step after placing BYTE.do's word runs it. -/
theorem test_placed_byte_do :
    (nextOr State.reset (step (State.reset.withFetchWord 10 0x005))).env.doOut = [.byte 5] := by decide

/-! ### Witnesses: states -/

/-- In the middle of a literal chunk (vector T19), the decoder in the middle of a run (vector U12). -/
def busy : State :=
  { encSt .litPay 6 2 2 0 0 0 false [(0, 4), (1, 5)] with dec := ⟨.runOut, 3, 2, false, false, 0⟩ }

/-- Idle after a message, with leftovers in the data registers (the end of P1 and of P3). -/
def idle : State :=
  { encSt .collect 3 0 0 0 3 2 false [(0, 3)] with dec := ⟨.hdr, 0, 9, false, true, 2⟩ }

/-- The head of a literal chunk of 127 bytes would be the boundary; two bytes show the same clauses. -/
def drainable : State := encSt .litHdr 6 2 2 0 0 0 false [(0, 4), (1, 5)]

/-- Every pin low but those named. -/
def pinsEi (t : Byte) : PinsIn := { quietPins with eiValid := true, eiData := t }

theorem encInv_busy : EncInv busy.enc := by constructor <;> decide
theorem decInv_busy : DecInv busy.dec := by constructor <;> decide
theorem inv_busy : Inv busy := ⟨encInv_busy, decInv_busy⟩
theorem encInv_idle : EncInv idle.enc := by constructor <;> decide
theorem decInv_idle : DecInv idle.dec := by constructor <;> decide
theorem encInv_drainable : EncInv drainable.enc := by constructor <;> decide
/-- The invariant speaks of registers only, so it holds whatever the host has planned. -/
theorem inv_idle_planning (a : List HostEvent) : Inv (planning a idle) := ⟨encInv_idle, decInv_idle⟩
theorem inv_busy_planning (a : List HostEvent) : Inv (planning a busy) := ⟨encInv_busy, decInv_busy⟩

/-! ### Witnesses: reset, pins, edges -/

theorem witness_ResetEdgeWins :
    ({ quietPins with rst := true, eoReady := true } : PinsIn).rst = true ∧
    (planning [.edge { quietPins with rst := true, eoReady := true }] busy).env.agenda =
      .edge { quietPins with rst := true, eoReady := true } :: [] := by decide

theorem witness_EncoderPinTable :
    State.reset.enc.ephase = .collect ∧ (encSt .runHdr 0 1 0 0 127 7 false []).enc.ephase = .runHdr ∧
    (encSt .runVal 0 1 0 0 3 2 false []).enc.ephase = .runVal ∧ drainable.enc.ephase = .litHdr ∧
    (busy.enc.ephase = .litPay ∧ busy.enc.litRd.toNat ≤ 126) ∧
    (encSt .litPay 0 0 127 126 0 0 true []).enc.litRd.toNat ≤ 126 ∧
    (encSt .endOut 0 0 0 0 0 0 true []).enc.ephase = .endOut := by decide

theorem witness_DecoderPinTable :
    State.reset.dec.dphase = .hdr ∧ busy.dec.dphase = .runOut ∧
    (decSt .endOut 0 0 true true 2).dec.dphase = .endOut := by decide

/-- The pins of the next edge, given by the host or by the loop-back wiring. -/
theorem nextEdge_edge : NextEdge (planning [.edge quietPins] busy) quietPins [] := .inl rfl
theorem nextEdge_edge_idle : NextEdge (planning [.edge quietPins] idle) quietPins [] := .inl rfl
theorem nextEdge_loopEdge :
    NextEdge (planning [.loopEdge quietPins] busy) (wired quietPins (planning [.loopEdge quietPins] busy)) [] :=
  .inr ⟨quietPins, rfl, rfl⟩

/-- The host offers nothing and takes nothing of `busy`: no unit has a transfer. -/
theorem witness_EdgeWithoutTransferKeepsUnit :
    let s := planning [.edge quietPins] busy
    NextEdge s quietPins [] ∧ quietPins.rst = false ∧
    ¬ (s.pins.eiReady = true ∧ quietPins.eiValid = true) ∧ ¬ (s.pins.eoValid = true ∧ quietPins.eoReady = true) ∧
    ¬ (s.pins.diReady = true ∧ quietPins.diValid = true) ∧ ¬ (s.pins.doValid = true ∧ quietPins.doReady = true) ∧
    completes (step s) = true := ⟨nextEdge_edge, by decide⟩

theorem witness_OfferStaysUntilTaken :
    (let s := planning [.edge quietPins] busy
     NextEdge s quietPins [] ∧ quietPins.rst = false ∧ completes (step s) = true ∧
     s.pins.eoValid = true ∧ s.pins.doValid = true ∧ quietPins.eoReady = false ∧ quietPins.doReady = false) ∧
    (let s := planning [.edge quietPins] idle
     NextEdge s quietPins [] ∧ completes (step s) = true ∧
     s.pins.eiReady = true ∧ s.pins.diReady = true ∧ quietPins.eiValid = false ∧ quietPins.diValid = false) ∧
    (let s := planning [.loopEdge quietPins] busy
     NextEdge s (wired quietPins s) [] ∧ completes (step s) = true ∧
     s.pins.eoValid = true ∧ (wired quietPins s).eoReady = false ∧ (wired quietPins s).rst = false) :=
  ⟨⟨nextEdge_edge, by decide⟩, ⟨nextEdge_edge_idle, by decide⟩, nextEdge_loopEdge, by decide⟩

/-- One clause after the other: BYTE on `ei`, BYTE on `di`, a token of `eo`, a token of `do`, both units at one edge, a
chunk, and a word fed to the encoder. -/
theorem witness_StepRunsDecodedInstruction :
    NextEdge (planning [.edge quietPins] busy) quietPins [] ∧
    (idle.pins.eiReady = true ∧ (pinsEi 5).eiValid = true ∧ (pinsEi 5).rst = false ∧ decEdge (pinsEi 5) idle = []) ∧
    (idle.pins.diReady = true ∧ encEdge { quietPins with diValid := true } idle = []) ∧
    (busy.enc.offer = some (.byte 4) ∧ decEdge { quietPins with eoReady := true } busy = []) ∧
    (busy.dec.offer = some (.byte 2) ∧ encEdge { quietPins with doReady := true } busy = []) ∧
    (encEdge { quietPins with eoReady := true, doReady := true } busy = [.byte .eo 4] ∧
      decEdge { quietPins with eoReady := true, doReady := true } busy = [.byteDo 2]) ∧
    ((planning [.feedDec (byteWords [0x83, 2] ++ [tokenWord .eom])] idle).env.agenda =
        .feedDec (byteWords [0x83, 2] ++ [tokenWord .eom]) :: [] ∧
      idle.dec.dphase = .hdr ∧ decode (.chunk [0x83, 2]) = .ok (.run 3 2)) ∧
    ((planning [.feedEnc [tokenWord (.byte 5)]] idle).env.agenda = .feedEnc (tokenWord (.byte 5) :: []) :: [] ∧
      idle.pins.eiReady = true) := ⟨nextEdge_edge, by decide⟩

theorem witness_LinkTransferIsOneToken :
    (let s := planning [.loopEdge quietPins] { busy with dec := idle.dec }
     s.env.agenda = .loopEdge quietPins :: [] ∧ quietPins.rst = false ∧ s.enc.offer = some (.byte 4) ∧
     completes (step s) = true ∧ s.pins.diReady = true) ∧
    (let s := planning [.loopEdge quietPins] busy
     s.env.agenda = .loopEdge quietPins :: [] ∧ s.enc.offer = some (.byte 4) ∧ completes (step s) = true ∧
     s.pins.diReady = false) := by decide

/-- Two runs that take the same byte, one with a stalled edge before it. -/
theorem witness_EncoderIgnoresStalls :
    ((runEdges false [pinsEi 5] idle).map fun r => (r.eiTaken, r.last.enc.ephase)) =
      some ([.byte 5], .collect) ∧
    ((runEdges false [quietPins, pinsEi 5] idle).map fun r => (r.eiTaken, r.last.enc.ephase)) =
      some ([.byte 5], .collect) ∧
    (pinsEi 5).rst = false ∧ quietPins.rst = false := by decide

theorem witness_DecoderIgnoresStalls :
    ((runEdges false [{ quietPins with diValid := true, diData := 0x83 }] idle).map fun r =>
      (r.diTaken, r.last.dec.inReady)) = some ([.byte 0x83], true) ∧
    ((runEdges false [quietPins, { quietPins with diValid := true, diData := 0x83 }] idle).map fun r =>
      (r.diTaken, r.last.dec.inReady)) = some ([.byte 0x83], true) := by decide

theorem witness_NoHandshakeNoTransfer :
    busy.pins.eiReady = false ∧ busy.pins.diReady = false ∧ idle.pins.eoValid = false ∧ idle.pins.doValid = false ∧
    (busy.enc.offer = some (.byte 4) ∧ Token.eom ≠ .byte 4) ∧
    (busy.dec.offer = some (.byte 2) ∧ DoToken.byte 3 ≠ .byte 2) := by decide

/-! ### Witnesses: encoder rules (vectors T1 to T22) -/

/-- T1, T2, T4 (the upper bound 126 of GROW), and its lower bound 2. -/
theorem witness_EncoderCandidateGrows :
    ((encSt .collect 0 0 0 0 0 0 false []).enc.ephase = .collect ∧ (encSt .collect 0 0 0 0 0 0 false []).enc.cnt = 0) ∧
    (let s := encSt .collect 5 1 0 0 0 0 false []
     s.enc.ephase = .collect ∧ s.enc.cnt = 1 ∧ 5 = s.enc.cur ∧ s.enc.litLen = 0) ∧
    (let s := encSt .collect 7 126 0 0 0 0 false []
     s.enc.ephase = .collect ∧ 2 ≤ s.enc.cnt.toNat ∧ s.enc.cnt.toNat ≤ 126 ∧ 7 = s.enc.cur) ∧
    (let s := encSt .collect 2 2 0 0 0 0 false []
     s.enc.ephase = .collect ∧ 2 ≤ s.enc.cnt.toNat ∧ s.enc.cnt.toNat ≤ 126 ∧ 2 = s.enc.cur) := by decide

/-- Before T3: the literal `[1]` held, the candidate 2. -/
def heldOne : State := encSt .collect 2 1 1 0 0 0 false [(0, 1)]
/-- Before T5: 127 bytes 7. -/
def fullRun : State := encSt .collect 7 127 0 0 0 0 false []
/-- Before T10: the bytes 0 to 125 held (entry 0 holds 0 and is not listed), the candidate 126. -/
def fullLit : State :=
  encSt .collect 126 1 126 0 0 0 false ((List.range 125).map fun k => (k + 1, BitVec.ofNat 8 (k + 1)))

theorem encInv_heldOne : EncInv heldOne.enc := by constructor <;> decide
theorem encInv_fullRun : EncInv fullRun.enc := by constructor <;> decide
set_option maxRecDepth 20000 in
theorem encInv_fullLit : EncInv fullLit.enc := by constructor <;> decide

/-- T3, T5, T6. -/
theorem witness_EncoderClosesSegmentOrRun :
    (heldOne.enc.ephase = .collect ∧ heldOne.enc.cnt = 1 ∧ 2 = heldOne.enc.cur ∧ 1 ≤ heldOne.enc.litLen.toNat ∧
      EncInv heldOne.enc) ∧
    (fullRun.enc.ephase = .collect ∧ fullRun.enc.cnt = 127 ∧ 7 = fullRun.enc.cur ∧ EncInv fullRun.enc) ∧
    (fullRun.enc.ephase = .collect ∧ 2 ≤ fullRun.enc.cnt.toNat ∧ (8 : Byte) ≠ fullRun.enc.cur) :=
  ⟨⟨by decide, by decide, by decide, by decide, encInv_heldOne⟩, ⟨by decide, by decide, by decide, encInv_fullRun⟩,
    by decide⟩

/-- T9 (the bound 125 of SINGLE) and T10. -/
theorem witness_EncoderSingleJoinsLiteral :
    (let s := encSt .collect 125 1 125 0 0 0 false []
     s.enc.ephase = .collect ∧ s.enc.cnt = 1 ∧ (126 : Byte) ≠ s.enc.cur ∧ s.enc.litLen.toNat ≤ 125) ∧
    (fullLit.enc.ephase = .collect ∧ fullLit.enc.cnt = 1 ∧ (127 : Byte) ≠ fullLit.enc.cur ∧
      fullLit.enc.litLen = 126 ∧ EncInv fullLit.enc) :=
  ⟨by decide, by decide, by decide, by decide, by decide, encInv_fullLit⟩

/-- T11, T12 (the bound 2 of END-RUN), T14 (the bound 126 of END-LIT). -/
theorem witness_EncoderTakesEnd :
    (let s := encSt .collect 0 0 0 0 0 0 false []
     s.enc.ephase = .collect ∧ s.enc.cnt = 0) ∧
    (let s := encSt .collect 5 2 0 0 0 0 false []
     s.enc.ephase = .collect ∧ 2 ≤ s.enc.cnt.toNat) ∧
    (let s := encSt .collect 126 1 126 0 0 0 false []
     s.enc.ephase = .collect ∧ s.enc.cnt = 1 ∧ s.enc.litLen.toNat ≤ 126) := by decide

/-- The bound 2 of `em_cnt`, T16 and T17. -/
theorem witness_EncoderPutsRunChunk :
    (let s := encSt .runHdr 0 1 0 0 2 7 false []
     s.enc.ephase = .runHdr ∧ 2 ≤ s.enc.emCnt.toNat) ∧
    (encSt .runVal 0 1 0 0 3 2 false []).enc.ephase = .runVal ∧
    (encSt .runVal 0 0 0 0 2 5 true []).enc.ephase = .runVal := by decide

/-- T18, T19, T21 (the bound 126 of `lit_rd`). -/
theorem witness_EncoderPutsLiteralChunk :
    (let s := encSt .litHdr 0 1 127 0 0 0 false []
     s.enc.ephase = .litHdr ∧ 1 ≤ s.enc.litLen.toNat) ∧
    (busy.enc.ephase = .litPay ∧ busy.enc.litRd.toNat + 1 < busy.enc.litLen.toNat) ∧
    (let s := encSt .litPay 0 0 127 126 0 0 true [(126, 0x7E)]
     s.enc.ephase = .litPay ∧ s.enc.litRd.toNat + 1 = s.enc.litLen.toNat) := by decide

/-- T22. -/
theorem witness_EncoderPutsEnd :
    let s := encSt .endOut 0 0 0 0 0 0 true []
    s.enc.ephase = .endOut ∧ EncInv s.enc ∧ completes (exec (.endMsg .eo) s) = true :=
  ⟨by decide, by constructor <;> decide, by decide⟩

theorem witness_LiteralChunkDrains : EncInv drainable.enc ∧ drainable.enc.ephase = .litHdr :=
  ⟨encInv_drainable, by decide⟩

theorem witness_EncoderRulesExhaustiveExclusive :
    (EncInv idle.enc ∧ idle.enc.ephase = .collect) ∧ (EncInv busy.enc ∧ busy.enc.ephase ≠ .collect) :=
  ⟨⟨encInv_idle, by decide⟩, encInv_busy, by decide⟩

/-! ### Witnesses: decoder rules and chunks (vectors U1 to U20) -/

/-- U3, U5, U6. -/
theorem witness_DecoderTakesHeader :
    State.reset.dec.dphase = .hdr ∧ (0x80#8).getLsbD 7 = true ∧
    ((0x01#8).getLsbD 7 = false ∧ 1 ≤ ((0x01#8).extractLsb' 0 7).toNat) := by decide

/-- The bounds 1 and 0 of `dcount` (U9). -/
theorem witness_DecoderTakesRunValue :
    (let s := decSt .runVal 1 0 false false 0
     s.dec.dphase = .runVal ∧ 1 ≤ s.dec.dcount.toNat) ∧
    (let s := decSt .runVal 0 0 false false 0
     s.dec.dphase = .runVal ∧ s.dec.dcount = 0) := by decide

/-- The bound 1 of `dcount` (U13, U18). -/
theorem witness_DecoderStreamsPayload :
    (let s := decSt .litIn 1 0 false false 0
     s.dec.dphase = .litIn ∧ 1 ≤ s.dec.dcount.toNat) ∧
    (let s := decSt .litOut 1 8 false false 0
     s.dec.dphase = .litOut ∧ 1 ≤ s.dec.dcount.toNat) ∧
    (let s := decSt .runOut 1 2 false false 0
     s.dec.dphase = .runOut ∧ 1 ≤ s.dec.dcount.toNat) := by decide

/-- U11, U15. -/
theorem witness_TruncationRaisesMalformedStream :
    (decSt .runVal 2 0 false true 2).dec.dphase = .runVal ∧ (decSt .litIn 1 7 false false 0).dec.dphase = .litIn := by
  decide

theorem witness_DecoderPutsEnd : (decSt .endOut 0 0 true true 2).dec.dphase = .endOut := by decide

theorem witness_DecoderRulesExhaustiveExclusive :
    (DecInv idle.dec ∧ idle.dec.inReady = true) ∧ (DecInv busy.dec ∧ busy.dec.inReady = false) :=
  ⟨⟨decInv_idle, by decide⟩, decInv_busy, by decide⟩

theorem witness_RunChunkEmitsCopies : idle.dec.dphase = .hdr := by decide

theorem witness_LitChunkEmitsPayload :
    idle.dec.dphase = .hdr ∧ ([7, 8] : List Byte).length = (2 : Count).toNat ∧ ([7, 8] : List Byte).length < (3 : Count).toNat ∧
    ([] : List Byte).length < (1 : Count).toNat := by decide

theorem witness_ChunkNeedsBoundary :
    busy.dec.dphase ≠ .hdr ∧ ([7, 8] : List Byte).length = (2 : Count).toNat ∧ ([7] : List Byte).length ≠ (2 : Count).toNat := by decide

theorem witness_ChunkIsItsTransfers : idle.dec.dphase = .hdr ∧ ([7, 8] : List Byte).length = (2 : Count).toNat := by decide

/-! ### Witnesses: frames, exception, invariants -/

theorem witness_UnitsAreIsolated :
    (completes (exec (.byte .ei 5) idle) = true ∧ isEncInstr (.byte .ei 5) = true) ∧
    (completes (exec (.run 3 2) idle) = true ∧ isEncInstr (.run 3 2) = false) := by decide

theorem witness_UnitStepsCommute :
    isEncInstr (.byte .eo 4) = true ∧ isEncInstr (.byteDo 2) = false ∧
    completes (execAll [.byte .eo 4, .byteDo 2] busy) = true := by decide

theorem witness_PayloadBufferFrame :
    (let s := encSt .collect 126 1 126 0 0 0 false []
     completes (exec (.byte .ei 127) s) = true ∧ (127 : Byte) ≠ s.enc.cur ∧ s.enc.ephase = .collect ∧ s.enc.cnt = 1) ∧
    (let s := encSt .collect 9 1 0 0 0 0 false []
     completes (exec (.endMsg .ei) s) = true ∧ s.enc.ephase = .collect ∧ s.enc.cnt = 1) ∧
    (completes (exec (.byte .eo 4) busy) = true ∧ busy.enc.ephase ≠ .collect) := by decide

theorem witness_PhaseTransitionTable :
    completes (exec (.byte .eo 4) busy) = true ∧ completes (exec (.run 3 2) idle) = true ∧
    completes (exec (.lit 2 [7, 8]) idle) = true := by decide

theorem witness_ExceptionExactlyOnTruncation :
    (let s := decSt .runVal 2 0 false false 0
     s.dec.endErr = false ∧ s.dec.decFault = false ∧ s.dec.dphase = .runVal ∧
     completes (exec (.endMsg .di) s) = true) ∧
    (let s := decSt .litIn 1 7 false false 0
     s.dec.endErr = false ∧ s.dec.decFault = false ∧ s.dec.dphase = .litIn ∧
     completes (exec (.endMsg .di) s) = true) ∧
    (let s := decSt .hdr 0 0 false false 0
     s.dec.endErr = false ∧ s.dec.decFault = false ∧ completes (exec (.endMsg .di) s) = true) := by decide

theorem witness_FaultRecordIsSticky :
    (let s := planning [.feedDec [tokenWord .eom]] idle
     completes (step s) = true ∧ (fetch s).rst = false ∧ s.dec.decFault = true) ∧
    completes (exec (.endMsg .di) (decSt .litIn 1 7 false false 0)) = true := by decide

theorem witness_ExecKeepsInvariant :
    Inv busy ∧ completes (exec (.byte .eo 4) busy) = true ∧
    (idle.dec.dphase ≠ .endOut ∧ (after (.endMsg .di) idle).dec.dphase = .endOut) := ⟨inv_busy, by decide, by decide⟩

theorem witness_StepKeepsInvariant :
    let s := planning [.edge { quietPins with eoReady := true, doReady := true }] busy
    Inv s ∧ completes (step s) = true := ⟨inv_busy_planning _, by decide⟩

theorem witness_StepAlwaysCompletes : Inv (planning [.feedDec (messageWords [0x83, 2])] idle) := inv_idle_planning _

/-- `idle` and the reset state agree on what can be read, though no data register of theirs does. -/
theorem agree_idle_reset : Agree (planning [.feedEnc (messageWords [5])] { idle with dec := Decoder.atReset })
    (planning [.feedEnc (messageWords [5])] State.reset) :=
  ⟨by constructor <;> decide, by constructor <;> decide, by decide, by decide, by decide⟩

theorem witness_UnwrittenRegistersAreNeverRead :
    Agree (planning [.feedEnc (messageWords [5])] { idle with dec := Decoder.atReset })
      (planning [.feedEnc (messageWords [5])] State.reset) ∧
    completes (step (planning [.feedEnc (messageWords [5])] { idle with dec := Decoder.atReset })) = true ∧
    EncInv idle.enc ∧ AtReset { idle with dec := Decoder.atReset } :=
  ⟨agree_idle_reset, by decide, encInv_idle, by constructor <;> first | decide | (constructor <;> decide)⟩

/-! ### Witnesses: encodings and functions -/

theorem witness_DecodeEncodeRoundTrip : (Instr.lit 2 [7, 8]).WellFormed := by decide

theorem witness_EveryHeaderDecodes :
    (0x80#8).getLsbD 7 = true ∧
    ((0x02#8).getLsbD 7 = false ∧ ([7, 8] : List Byte).length = ((0x02#8).extractLsb' 0 7).toNat) := by decide

theorem witness_PortWordsDecode : (1 : Byte) ≠ 0 := by decide

/-- The bytes 0 to 126, and 127 after them: no two neighbours are equal. -/
def ascending : List Byte := (List.range 127).map (BitVec.ofNat 8)

set_option maxRecDepth 8000 in
theorem witness_LiteralCapSplits :
    ascending.IsChain (· ≠ ·) ∧ ascending.length = 127 ∧ (ascending ++ [127]).IsChain (· ≠ ·) := by decide

/-- Two states with equal registers that differ elsewhere. -/
theorem witness_ReadyValidByPhase :
    (planning [.edge quietPins] busy).enc = busy.enc ∧ (planning [.edge quietPins] busy).dec = busy.dec ∧
    planning [.edge quietPins] busy ≠ busy := by decide

/-- Both sides of the equivalence, on the chunks of R265. -/
theorem witness_CanonicalSequences :
    Canonical [.lit 1 [1], .run 3 2, .lit 1 [3]] ∧ encodeChunks [1, 2, 2, 2, 3] = [.lit 1 [1], .run 3 2, .lit 1 [3]] := by
  refine ⟨⟨?_, ?_⟩, by decide⟩
  · simp [canonicalChunk]
  · simp [canonicalNext, chunkOutput, List.replicate]

theorem witness_EncoderOutputIsWellFormed :
    Instr.run 2 5 ∈ encodeChunks [5, 5] ∧ Instr.lit 1 [9] ∈ encodeChunks [9] := by decide

/-- Vectors D12 and R203: one result of each case. -/
theorem witness_DecodeThreeCases :
    decodeBytes [0x80, 0x80] = .ok [] ∧ decodeBytes [0x01, 9, 0x83] = .err .truncRun [9] ∧
    decodeBytes [0x82, 5, 0x02, 6] = .err .truncLit [5, 5, 6] := by decide

theorem witness_SourceVectors : Instr.lit 1 [9] ∈ encodeChunks [9] := by decide

theorem witness_RoundTrip : encodeBytes [5, 5] = encodeBytes [5, 5] := rfl

theorem witness_EncodeLengthBounds : (1 : Byte) ≠ 2 := by decide

theorem witness_DecodeExpansionBound : decodeBytes [0x83, 2] = .ok [2, 2, 2] := by decide

/-! ### Witnesses: level S computes level F -/

theorem witness_EncoderComputesEncode :
    (let s := planning [.feedEnc (messageWords [1, 2, 2])] idle
     Inv s ∧ EncIdle s.enc ∧ s.env.agenda = .feedEnc (messageWords [1, 2, 2]) :: []) ∧
    (let ps := [pinsEi 5, { quietPins with eiValid := true, eiEos := true }, { quietPins with eoReady := true },
       { quietPins with eoReady := true }, { quietPins with eoReady := true }]
     Inv idle ∧ EncIdle idle.enc ∧ (∀ p ∈ ps, p.rst = false) ∧
     ((runEdges false ps idle).map fun r => (r.eiTaken, r.last.enc.ephase)) =
       some (messageTokens [5], .collect)) :=
  ⟨⟨inv_idle_planning _, by decide, by decide⟩, inv_idle_planning [], by decide, by decide, by decide⟩

theorem witness_EncoderOwesTheRest :
    let s := planning [.feedEnc (byteWords [1, 2, 2])] idle
    Inv s ∧ EncIdle s.enc ∧ s.encK = 0 ∧ s.env.agenda = .feedEnc (byteWords [1, 2, 2]) :: [] :=
  ⟨inv_idle_planning _, by decide, by decide, by decide⟩

theorem witness_DecoderComputesDecode :
    (let s := planning [.feedDec (messageWords [0x03, 1, 2])] idle
     Inv s ∧ DecIdle s.dec ∧ s.env.agenda = .feedDec (messageWords [0x03, 1, 2]) :: [] ∧
     decodeBytes [0x03, 1, 2] = .err .truncLit [1, 2] ∧ decodeBytes [0x00] = .ok []) ∧
    (let ps := [{ quietPins with diValid := true }, { quietPins with diValid := true, diEos := true },
       { quietPins with doReady := true }]
     Inv idle ∧ DecIdle idle.dec ∧ (∀ p ∈ ps, p.rst = false) ∧
     ((runEdges false ps idle).map fun r => (r.diTaken, r.last.dec.inReady)) = some (messageTokens [0x00], true)) :=
  ⟨⟨inv_idle_planning _, by decide, by decide, by decide, by decide⟩, inv_idle_planning [], by decide, by decide,
    by decide⟩

/-- The empty message through the link: `END` taken, `END` over the link, `END(0)` put out. -/
theorem witness_HardwareRoundTrip :
    Inv idle ∧ EncIdle idle.enc ∧ DecIdle idle.dec ∧
    (∀ p ∈ [{ quietPins with eiValid := true, eiEos := true }, quietPins, { quietPins with doReady := true }],
      p.rst = false) ∧
    ((runEdges true [{ quietPins with eiValid := true, eiEos := true }, quietPins, { quietPins with doReady := true }]
        idle).map fun r => (r.eiTaken, r.last.enc.ephase, r.last.enc.cnt, r.last.dec.dphase)) =
      some (messageTokens [], .collect, 0, .hdr) :=
  ⟨inv_idle_planning [], by decide, by decide, by decide, by decide⟩

end Sys2Proof.Tests
end

section
/-! Simulation of one run of the model by another, once for every instruction: a relation on states that the four
transfers respect is respected by every instruction, every fetched sequence of instructions and so every step. Reset,
isolation of the units, the fault record and the registers without a reset value are settled from it. -/

namespace Sys2Proof.Proofs

open Sys2Proof.Machine Sys2Proof.Laws

/-! ### Operations that respect a relation -/

/-- `f` respects `R`: from related states, where it completes from the first it completes from the second, and the results
are related again. -/
def Simulates (R : State → State → Prop) (f : State → Host.Outcome State Fault Refusal) : Prop :=
  ∀ ⦃s t s' : State⦄, R s t → f s = .next s' → ∃ t', f t = .next t' ∧ R s' t'

/-- The encoder's two transfers respect `R`. -/
structure EncSimulates (R : State → State → Prop) : Prop where
  takeEi : ∀ tok, Simulates R (takeEi tok)
  acceptEo : ∀ tok, Simulates R (acceptEo tok)

/-- The decoder's two transfers respect `R`, and `R` relates only states in one decoder phase with one token on offer,
which is what the chunk instructions and the port `do` look at. -/
structure DecSimulates (R : State → State → Prop) : Prop where
  dphase : ∀ {s t}, R s t → t.dec.dphase = s.dec.dphase
  offer : ∀ {s t}, R s t → t.dec.offer = s.dec.offer
  takeDi : ∀ tok, Simulates R (takeDi tok)
  putDo : ∀ tok, Simulates R (putDo tok)

section
variable {R : State → State → Prop} {f g : State → Host.Outcome State Fault Refusal}

theorem simulates_next : Simulates R .next := by
  intro s t s' h hs
  cases hs
  exact ⟨t, rfl, h⟩

theorem Simulates.andThen (hf : Simulates R f) (hg : Simulates R g) :
    Simulates R fun s => Machine.andThen (f s) g := by
  intro s t s' h hs
  obtain ⟨a, ha, hs⟩ := andThen_eq_next.1 hs
  obtain ⟨b, hb, hab⟩ := hf h ha
  obtain ⟨t', ht, hr⟩ := hg hab hs
  exact ⟨t', andThen_eq_next.2 ⟨b, hb, ht⟩, hr⟩

theorem EncSimulates.exec (h : EncSimulates R) : ∀ {i : Instr}, isEncInstr i = true → Simulates R (exec i)
  | .byte .ei b, _ => h.takeEi (.byte b)
  | .byte .eo b, _ => h.acceptEo (.byte b)
  | .endMsg .ei, _ => h.takeEi .eom
  | .endMsg .eo, _ => h.acceptEo .eom

theorem DecSimulates.acceptDo (h : DecSimulates R) (tok : DoToken) : Simulates R (acceptDo tok) := by
  intro s t s' hr hs
  unfold Machine.acceptDo at hs ⊢
  rw [h.offer hr]
  cases ho : s.dec.offer with
  | none => simp only [ho] at hs ⊢; exact simulates_next hr hs
  | some u =>
    simp only [ho] at hs ⊢
    split at hs
    · rename_i hu; rw [if_pos hu]; exact h.putDo tok hr hs
    · cases hs

theorem DecSimulates.putCopies (h : DecSimulates R) : ∀ n, Simulates R (putCopies n)
  | 0 => simulates_next
  | n + 1 => by
    intro s t s' hr hs
    unfold Machine.putCopies at hs ⊢
    rw [h.offer hr]
    cases ho : s.dec.offer with
    | none => simp [ho] at hs
    | some u => simp only [ho] at hs ⊢; exact (h.putDo u).andThen (h.putCopies n) hr hs

theorem DecSimulates.passPayload (h : DecSimulates R) : ∀ bs, Simulates R (passPayload bs)
  | [] => simulates_next
  | b :: bs => (h.takeDi (.byte b)).andThen ((h.putCopies 1).andThen (h.passPayload bs))

/-- A chunk instruction looks at the decoder's phase, then makes transfers. -/
theorem DecSimulates.atBoundary (h : DecSimulates R) (hf : Simulates R f) :
    Simulates R fun s => if s.dec.dphase = .hdr then f s else .refused .notAtChunkBoundary := by
  intro s t s' hr hs
  simp only [h.dphase hr] at hs ⊢
  split at hs
  · rename_i hp; rw [if_pos hp]; exact hf hr hs
  · cases hs

theorem DecSimulates.execRun (h : DecSimulates R) (count : Count) (value : Byte) :
    Simulates R (execRun count value) :=
  h.atBoundary ((h.takeDi _).andThen ((h.takeDi _).andThen (h.putCopies _)))

theorem DecSimulates.execLit (h : DecSimulates R) (count : Count) (payload : List Byte) :
    Simulates R (execLit count payload) := by
  intro s t s' hr hs
  unfold Machine.execLit at hs ⊢
  split at hs
  · rename_i hl
    rw [if_pos hl]
    exact h.atBoundary ((h.takeDi _).andThen (h.passPayload payload)) hr hs
  · cases hs

theorem DecSimulates.exec (h : DecSimulates R) : ∀ {i : Instr}, isEncInstr i = false → Simulates R (exec i)
  | .lit count payload, _ => h.execLit count payload
  | .run count value, _ => h.execRun count value
  | .byte .di b, _ => h.takeDi (.byte b)
  | .endMsg .di, _ => h.takeDi .eom
  | .byteDo b, _ => h.acceptDo (.byte b)
  | .endDo err, _ => h.acceptDo (.eom err)

/-- What both units' transfers respect, every instruction respects. -/
theorem exec_simulates (he : EncSimulates R) (hd : DecSimulates R) (i : Instr) : Simulates R (exec i) := by
  cases hi : isEncInstr i
  · exact hd.exec hi
  · exact he.exec hi

theorem execAll_simulates (h : ∀ i, Simulates R (exec i)) : ∀ is, Simulates R (execAll is)
  | [] => simulates_next
  | i :: is => (h i).andThen (execAll_simulates h is)

/-- A map of states that `f` respects and that leaves `s` as it is leaves the result as it is. -/
theorem Simulates.fixed {φ : State → State} (h : Simulates (fun s t => t = φ s) f) {s s' : State} (hφ : φ s = s)
    (hs : f s = .next s') : φ s' = s' := by
  obtain ⟨t', ht, rfl⟩ := h hφ.symm hs
  exact Host.Outcome.next.inj (ht.symm.trans hs)

end

/-! ### Operations that keep a property -/

/-- `f` keeps `P`. -/
def Keeps (P : State → Prop) (f : State → Host.Outcome State Fault Refusal) : Prop :=
  ∀ ⦃s s' : State⦄, P s → f s = .next s' → P s'

section
variable {P : State → Prop} {f : State → Host.Outcome State Fault Refusal}

/-- Keeping a property is respecting equality among the states that have it. -/
theorem keeps_iff_simulates : Keeps P f ↔ Simulates (fun s t => P s ∧ t = s) f := by
  constructor
  · rintro h s t s' ⟨hp, rfl⟩ hs
    exact ⟨s', hs, h hp hs, rfl⟩
  · intro h s s' hp hs
    obtain ⟨_, -, hp', -⟩ := h ⟨hp, rfl⟩ hs
    exact hp'

/-- What the four transfers keep, every instruction keeps. -/
theorem exec_keeps (hei : ∀ tok, Keeps P (takeEi tok)) (heo : ∀ tok, Keeps P (acceptEo tok))
    (hdi : ∀ tok, Keeps P (takeDi tok)) (hdo : ∀ tok, Keeps P (putDo tok)) (i : Instr) : Keeps P (exec i) := by
  refine keeps_iff_simulates.2 (exec_simulates ⟨?_, ?_⟩ ⟨?_, ?_, ?_, ?_⟩ i)
  · exact fun tok => keeps_iff_simulates.1 (hei tok)
  · exact fun tok => keeps_iff_simulates.1 (heo tok)
  · rintro s t ⟨-, rfl⟩; rfl
  · rintro s t ⟨-, rfl⟩; rfl
  · exact fun tok => keeps_iff_simulates.1 (hdi tok)
  · exact fun tok => keeps_iff_simulates.1 (hdo tok)

theorem execAll_keeps (h : ∀ i, Keeps P (exec i)) (is : List Instr) : Keeps P (execAll is) :=
  keeps_iff_simulates.2 (execAll_simulates (fun i => keeps_iff_simulates.1 (h i)) is)

end

/-! ### When a transfer happens (R63), the converses of the inversion lemmas -/

section
variable {s : State}

theorem takeEi_waits (t : Token) (h : s.enc.ephase ≠ .collect) : takeEi t s = .next s := by
  simp [takeEi, Encoder.inReady, h]

theorem takeEi_steps {t : Token} {e : Encoder} (h : s.enc.ephase = .collect)
    (he : encStep (encRuleIn t s.enc) t s.enc = .next e) :
    takeEi t s = .next { s with enc := e, encK := positionAfter t s.encK } := by
  simp [takeEi, Encoder.inReady, h, he]

theorem acceptEo_waits (t : Token) (h : s.enc.ephase = .collect) : acceptEo t s = .next s := by
  simp [acceptEo, Encoder.outValid, h]

theorem acceptEo_steps {t : Token} {e : Encoder} (h : s.enc.ephase ≠ .collect) (ho : s.enc.offer = some t)
    (he : encStep (encRuleOut s.enc) t s.enc = .next e) :
    acceptEo t s = .next (outputEo t { s with enc := e }) := by
  simp [acceptEo, putEo, Encoder.outValid, h, ho, he]

theorem takeDi_waits (t : Token) (h : s.dec.inReady = false) : takeDi t s = .next s := by
  simp [takeDi, h]

theorem takeDi_steps {t : Token} {d : Decoder} (h : s.dec.inReady = true)
    (hd : decStep (decRuleIn t s.dec) (tokenByte t) s.dec = .next d) :
    takeDi t s = .next { s with dec := d, decK := positionAfter t s.decK } := by
  simp [takeDi, h, hd]

theorem putDo_steps (t : DoToken) {d : Decoder} (hd : decStep (decRuleOut s.dec) 0 s.dec = .next d) :
    putDo t s = .next (outputDo t { s with dec := d }) := by
  rw [putDo, hd, andThen_next]

end

/-! ### Isolation of the units (R20) -/

/-- Everything but the encoder's side put at other values. -/
def outsideEnc (d : Decoder) (k : Nat) (o : List DoToken) (a : List HostEvent) (n : Nat) (s : State) : State :=
  { s with dec := d, decK := k, env := ⟨a, s.env.eoOut, o, n⟩ }

/-- Everything but the decoder's side put at other values. -/
def outsideDec (e : Encoder) (k : Nat) (o : List Token) (a : List HostEvent) (n : Nat) (s : State) : State :=
  { s with enc := e, encK := k, env := ⟨a, o, s.env.doOut, n⟩ }

/-- The encoder's transfers are the same whatever stands outside the encoder. -/
theorem encSimulates_outsideEnc (d : Decoder) (k : Nat) (o : List DoToken) (a : List HostEvent) (n : Nat) :
    EncSimulates fun s t => t = outsideEnc d k o a n s where
  takeEi tok := by
    rintro s _ s' rfl hs
    rcases takeEi_next hs with ⟨hp, rfl⟩ | ⟨hp, e, he, rfl⟩
    · exact ⟨_, takeEi_waits tok hp, rfl⟩
    · exact ⟨_, takeEi_steps hp he, rfl⟩
  acceptEo tok := by
    rintro s _ s' rfl hs
    rcases acceptEo_next hs with ⟨hp, rfl⟩ | ⟨hp, ho, e, he, rfl⟩
    · exact ⟨_, acceptEo_waits tok hp, rfl⟩
    · exact ⟨_, acceptEo_steps hp ho he, rfl⟩

/-- The decoder's transfers are the same whatever stands outside the decoder. -/
theorem decSimulates_outsideDec (e : Encoder) (k : Nat) (o : List Token) (a : List HostEvent) (n : Nat) :
    DecSimulates fun s t => t = outsideDec e k o a n s where
  dphase := by rintro s _ rfl; rfl
  offer := by rintro s _ rfl; rfl
  takeDi tok := by
    rintro s _ s' rfl hs
    rcases takeDi_next hs with ⟨hp, rfl⟩ | ⟨hp, d, hd, rfl⟩
    · exact ⟨_, takeDi_waits tok hp, rfl⟩
    · exact ⟨_, takeDi_steps hp hd, rfl⟩
  putDo tok := by
    rintro s _ s' rfl hs
    obtain ⟨d, hd, rfl⟩ := putDo_next hs
    exact ⟨_, putDo_steps tok hd, rfl⟩

theorem exec_outsideEnc {i : Instr} {s t : State} (hi : isEncInstr i = true) (h : exec i s = .next t) (d : Decoder)
    (k : Nat) (o : List DoToken) (a : List HostEvent) (n : Nat) :
    exec i (outsideEnc d k o a n s) = .next (outsideEnc d k o a n t) := by
  obtain ⟨t', ht, rfl⟩ := (encSimulates_outsideEnc d k o a n).exec hi rfl h
  exact ht

theorem exec_outsideDec {i : Instr} {s t : State} (hi : isEncInstr i = false) (h : exec i s = .next t) (e : Encoder)
    (k : Nat) (o : List Token) (a : List HostEvent) (n : Nat) :
    exec i (outsideDec e k o a n s) = .next (outsideDec e k o a n t) := by
  obtain ⟨t', ht, rfl⟩ := (decSimulates_outsideDec e k o a n).exec hi rfl h
  exact ht

/-- An encoder instruction leaves everything outside the encoder as it was: with those values put where they stand, it
does the same. -/
theorem exec_enc_frame {i : Instr} {s t : State} (hi : isEncInstr i = true) (h : exec i s = .next t) :
    t.dec = s.dec ∧ t.decK = s.decK ∧ t.env.doOut = s.env.doOut ∧ t.env.agenda = s.env.agenda ∧
      t.env.free = s.env.free := by
  have ht := ((encSimulates_outsideEnc s.dec s.decK s.env.doOut s.env.agenda s.env.free).exec hi).fixed rfl h
  rw [← ht]
  exact ⟨rfl, rfl, rfl, rfl, rfl⟩

/-- A decoder instruction leaves everything outside the decoder as it was. -/
theorem exec_dec_frame {i : Instr} {s t : State} (hi : isEncInstr i = false) (h : exec i s = .next t) :
    t.enc = s.enc ∧ t.encK = s.encK ∧ t.env.eoOut = s.env.eoOut ∧ t.env.agenda = s.env.agenda ∧
      t.env.free = s.env.free := by
  have ht := ((decSimulates_outsideDec s.enc s.encK s.env.eoOut s.env.agenda s.env.free).exec hi).fixed rfl h
  rw [← ht]
  exact ⟨rfl, rfl, rfl, rfl, rfl⟩

/-- Settles O33: the units' transfers respect every change outside their unit, so every instruction does. -/
theorem unitsAreIsolated : Obligations.UnitsAreIsolated := by
  intro i s t h
  cases hi : isEncInstr i
  · obtain ⟨henc, hk, hout, hagenda, hfree⟩ := exec_dec_frame hi h
    refine ⟨hagenda, hfree, nofun, fun _ e k o => ⟨henc, hk, hout, ?_⟩⟩
    simpa only [outsideDec, hagenda, hfree] using exec_outsideDec hi h e k o s.env.agenda s.env.free
  · obtain ⟨hdec, hk, hout, hagenda, hfree⟩ := exec_enc_frame hi h
    refine ⟨hagenda, hfree, fun _ d k o => ⟨hdec, hk, hout, ?_⟩, nofun⟩
    simpa only [outsideEnc, hagenda, hfree] using exec_outsideEnc hi h d k o s.env.agenda s.env.free

/-! ### The host's move -/

/-- What is fetched leaves the state as it was but for the host's side. -/
theorem fetch_after (s : State) : ∃ a, (fetch s).after = advance a s := by
  unfold fetch
  split
  · exact ⟨_, rfl⟩
  · unfold edgeFetch; split <;> exact ⟨_, rfl⟩
  · unfold edgeFetch; split <;> exact ⟨_, rfl⟩
  · unfold feedEncFetch
    split
    · split <;> exact ⟨_, rfl⟩
    · exact ⟨_, rfl⟩
  · unfold feedDecFetch feedDecToken
    split
    · split
      · split
        · exact ⟨_, rfl⟩
        · split <;> exact ⟨_, rfl⟩
      · split <;> exact ⟨_, rfl⟩
    · exact ⟨_, rfl⟩

theorem fetch_after_enc (s : State) : (fetch s).after.enc = s.enc := by
  obtain ⟨a, ha⟩ := fetch_after s
  rw [ha, advance_enc]

theorem fetch_after_dec (s : State) : (fetch s).after.dec = s.dec := by
  obtain ⟨a, ha⟩ := fetch_after s
  rw [ha, advance_dec]

/-- A step that is no reset runs the fetched instructions. -/
theorem step_of_not_rst {s : State} (h : (fetch s).rst = false) :
    step s = execAll (fetch s).instrs (fetch s).after := by
  simp [step, runFetched, h]

theorem step_of_rst {s : State} (h : (fetch s).rst = true) : step s = .next (resetUnits (fetch s).after) := by
  simp [step, runFetched, h]

/-! ### The fault record (R34, R287) -/

/-- The decoder with another fault record. -/
def withRecord (f : Bool) (c : BitVec 2) (d : Decoder) : Decoder := { d with decFault := f, decFaultCode := c }

/-- No rule of the decoder reads the record, except to keep it. -/
theorem decApply_withRecord (f : Bool) (c : BitVec 2) (r : DecRule) (b : Byte) (d : Decoder) :
    ∃ f' c', decApply r b (withRecord f c d) = withRecord f' c' (decApply r b d) := by
  cases r
  case runTrunc => exact ⟨true, if f then c else causeCode .truncRun, rfl⟩
  case litTrunc => exact ⟨true, if f then c else causeCode .truncLit, rfl⟩
  all_goals exact ⟨f, c, rfl⟩

theorem decStep_withRecord {r : Option DecRule} {b : Byte} {d d' : Decoder} (f : Bool) (c : BitVec 2)
    (h : decStep r b d = .next d') : ∃ f' c', decStep r b (withRecord f c d) = .next (withRecord f' c' d') := by
  cases r with
  | none => cases h
  | some r =>
    cases h
    obtain ⟨f', c', hr⟩ := decApply_withRecord f c r b d
    exact ⟨f', c', congrArg _ hr⟩

/-- The two states differ in the fault record at most. -/
def SameButRecord (s t : State) : Prop := ∃ f c, t = { s with dec := withRecord f c s.dec }

theorem encSimulates_sameButRecord : EncSimulates SameButRecord where
  takeEi tok := by
    rintro s _ s' ⟨f, c, rfl⟩ hs
    rcases takeEi_next hs with ⟨hp, rfl⟩ | ⟨hp, e, he, rfl⟩
    · exact ⟨_, takeEi_waits tok hp, f, c, rfl⟩
    · exact ⟨_, takeEi_steps hp he, f, c, rfl⟩
  acceptEo tok := by
    rintro s _ s' ⟨f, c, rfl⟩ hs
    rcases acceptEo_next hs with ⟨hp, rfl⟩ | ⟨hp, ho, e, he, rfl⟩
    · exact ⟨_, acceptEo_waits tok hp, f, c, rfl⟩
    · exact ⟨_, acceptEo_steps hp ho he, f, c, rfl⟩

theorem decSimulates_sameButRecord : DecSimulates SameButRecord where
  dphase := by rintro s _ ⟨f, c, rfl⟩; rfl
  offer := by rintro s _ ⟨f, c, rfl⟩; rfl
  takeDi tok := by
    rintro s _ s' ⟨f, c, rfl⟩ hs
    rcases takeDi_next hs with ⟨hp, rfl⟩ | ⟨hp, d, hd, rfl⟩
    · exact ⟨_, takeDi_waits tok hp, f, c, rfl⟩
    · obtain ⟨f', c', hd'⟩ := decStep_withRecord f c hd
      exact ⟨_, takeDi_steps hp hd', f', c', rfl⟩
  putDo tok := by
    rintro s _ s' ⟨f, c, rfl⟩ hs
    obtain ⟨d, hd, rfl⟩ := putDo_next hs
    obtain ⟨f', c', hd'⟩ := decStep_withRecord f c hd
    exact ⟨_, putDo_steps tok hd', f', c', rfl⟩

/-- A fault with code `c` is on record. -/
def FaultRecorded (c : BitVec 2) (d : Decoder) : Prop := d.decFault = true ∧ d.decFaultCode = c

/-- A rule of the decoder keeps the first cause. -/
theorem decStep_keeps_record {c : BitVec 2} {r : Option DecRule} {b : Byte} {d d' : Decoder}
    (h : FaultRecorded c d) (hd : decStep r b d = .next d') : FaultRecorded c d' := by
  obtain ⟨hf, hc⟩ := h
  cases r with
  | none => cases hd
  | some r =>
    cases hd
    cases r
    case runTrunc => exact ⟨rfl, by simp [decApply, decRunTrunc, hf, hc]⟩
    case litTrunc => exact ⟨rfl, by simp [decApply, decLitTrunc, hf, hc]⟩
    all_goals exact ⟨hf, hc⟩

theorem exec_keeps_record (c : BitVec 2) (i : Instr) : Keeps (fun s => FaultRecorded c s.dec) (exec i) := by
  refine exec_keeps (fun tok s s' h hs => ?_) (fun tok s s' h hs => ?_) (fun tok s s' h hs => ?_)
    (fun tok s s' h hs => ?_) i
  · rcases takeEi_next hs with ⟨-, rfl⟩ | ⟨-, e, -, rfl⟩ <;> exact h
  · rcases acceptEo_next hs with ⟨-, rfl⟩ | ⟨-, -, e, -, rfl⟩ <;> exact h
  · rcases takeDi_next hs with ⟨-, rfl⟩ | ⟨-, d, hd, rfl⟩
    · exact h
    · exact decStep_keeps_record h hd
  · obtain ⟨d, hd, rfl⟩ := putDo_next hs
    exact decStep_keeps_record h hd

/-- Settles O38: every rule of the decoder keeps a recorded first cause, and none reads the record otherwise. -/
theorem faultRecordIsSticky : Obligations.FaultRecordIsSticky := by
  refine ⟨fun s t hs hr hf => ?_, fun i s t f c hs => ?_⟩
  · rw [step_of_not_rst hr] at hs
    refine execAll_keeps (exec_keeps_record s.dec.decFaultCode) _ ?_ hs
    rw [fetch_after_dec]
    exact ⟨hf, rfl⟩
  · obtain ⟨_, ht, f', c', rfl⟩ :=
      exec_simulates encSimulates_sameButRecord decSimulates_sameButRecord i ⟨f, c, rfl⟩ hs
    exact ⟨f', c', ht⟩

/-! ### Registers that are not read before they are written (R41): the encoder -/

theorem encAgree_refl (e : Encoder) : EncAgree e e :=
  ⟨rfl, rfl, rfl, rfl, rfl, fun _ => rfl, fun _ => rfl, fun _ => rfl, fun _ _ => rfl⟩

/-- The rules whose tests or writes use the candidate `cur` (R153 to R159, R161, R162). -/
def readsCandidate : EncRule → Bool
  | .pair | .pairFlush | .grow | .cap | .runClose | .single | .singleCap | .endRun | .endLit => true
  | .first | .endEmpty | .runHdr | .runVal | .litHdr | .litPay | .litLast | .endOut => false

/-- The phase whose steps follow a rule (R151). -/
def encRulePhase : EncRule → EPhase
  | .runHdr => .runHdr
  | .runVal => .runVal
  | .litHdr => .litHdr
  | .litPay | .litLast => .litPay
  | .endOut => .endOut
  | .first | .pair | .pairFlush | .grow | .cap | .runClose | .single | .singleCap | .endEmpty | .endRun | .endLit =>
    .collect

section
variable {e f : Encoder}

/-- The candidate is used only when there is one. -/
theorem cnt_ne_zero_of_readsCandidate {t : Token} {r : EncRule} (hr : encRuleIn t e = some r)
    (hc : readsCandidate r = true) : e.cnt ≠ 0 := by
  intro h0
  cases t <;> simp only [encRuleIn, h0, if_true, Option.some.injEq] at hr
  case byte => subst hr; cases hc
  case eom => subst hr; cases hc

/-- An output step does not use the candidate. -/
theorem encRuleOut_not_readsCandidate {r : EncRule} (hr : encRuleOut e = some r) : readsCandidate r = false := by
  unfold encRuleOut at hr
  cases hp : e.ephase <;> simp only [hp] at hr
  case litPay =>
    split at hr
    · cases hr; rfl
    · split at hr <;> cases hr; rfl
  all_goals cases hr <;> rfl

theorem encRulePhase_of_encRuleIn {t : Token} {r : EncRule} (hr : encRuleIn t e = some r) :
    encRulePhase r = .collect := by
  cases t with
  | byte b =>
    dsimp only [encRuleIn] at hr
    split_ifs at hr <;> cases hr <;> rfl
  | eom =>
    dsimp only [encRuleIn] at hr
    split_ifs at hr <;> cases hr <;> rfl

theorem encRulePhase_of_encRuleOut {r : EncRule} (hr : encRuleOut e = some r) : encRulePhase r = e.ephase := by
  unfold encRuleOut at hr
  cases hp : e.ephase <;> simp only [hp] at hr
  case litPay =>
    split at hr
    · cases hr; rfl
    · split at hr <;> cases hr; rfl
  all_goals cases hr <;> rfl

/-- The rule for a token taken depends on nothing R41 leaves out. -/
theorem encRuleIn_agree (h : EncAgree e f) (t : Token) : encRuleIn t f = encRuleIn t e := by
  cases t with
  | byte b =>
    by_cases h0 : e.cnt = 0
    · simp only [encRuleIn, ← h.cnt, if_pos h0]
    · simp only [encRuleIn, ← h.cnt, ← h.litLen, ← h.cur h0]
  | eom => simp only [encRuleIn, ← h.cnt]

/-- Nor does the rule for an output step. -/
theorem encRuleOut_agree (h : EncAgree e f) : encRuleOut f = encRuleOut e := by
  have hm : morePayload f = morePayload e := by simp only [morePayload, h.litLen, h.litRd]
  have hl : lastPayload f = lastPayload e := by simp only [lastPayload, h.litLen, h.litRd]
  simp only [encRuleOut, ← h.ephase, hm, hl]

theorem afterEmission_agree (h : EncAgree e f) : afterEmission e = afterEmission f := by
  simp only [afterEmission, h.eosPend]

theorem afterEmission_ne (e : Encoder) : afterEmission e ≠ .runHdr ∧ afterEmission e ≠ .runVal := by
  unfold afterEmission; split <;> simp

/-- The append writes the candidate where both buffers then hold it. -/
theorem appendSingle_agree {a : Encoder} (h : EncAgree e f) (hc : e.cur = f.cur) (ha : appendSingle e = .next a) :
    ∃ b, appendSingle f = .next b ∧ EncAgree a b := by
  obtain ⟨hl, rfl⟩ := appendSingle_eq_next.1 ha
  refine ⟨_, appendSingle_next (h.litLen ▸ hl), { h with litLen := by simp [h.litLen], litBuf := fun k hk => ?_ }⟩
  have hk : k < e.litLen.toNat + 1 := append_litLen hl ▸ hk
  simp only [read_write, ← h.litLen, hc]
  split
  · rfl
  · exact h.litBuf k (by omega)

/-- A rule does the same to what may be read later, for it reads nothing else: the candidate only where there is one, the
value of a run chunk only after its header. -/
theorem encApply_agree {r : EncRule} {t : Token} {e' : Encoder} (h : EncAgree e f)
    (hc : readsCandidate r = true → e.cnt ≠ 0) (hp : e.ephase = encRulePhase r)
    (he : encApply r t e = .next e') : ∃ f', encApply r t f = .next f' ∧ EncAgree e' f' := by
  have hcur : readsCandidate r = true → e.cur = f.cur := fun hr => h.cur (hc hr)
  cases r
  case first => cases he; exact ⟨_, rfl, { h with cnt := rfl, cur := fun _ => rfl }⟩
  case pair => cases he; exact ⟨_, rfl, { h with cnt := rfl, cur := fun _ => hcur rfl }⟩
  case pairFlush =>
    cases he
    exact ⟨_, rfl, { h with ephase := rfl, cnt := rfl, cur := fun _ => hcur rfl, emCnt := nofun, emVal := nofun }⟩
  case grow => cases he; exact ⟨_, rfl, { h with cnt := congrArg (· + 1) h.cnt, cur := fun _ => hcur rfl }⟩
  case cap =>
    cases he
    exact ⟨_, rfl, { h with ephase := rfl, cnt := rfl, cur := fun _ => hcur rfl, emCnt := fun _ => rfl,
                            emVal := fun _ => hcur rfl }⟩
  case runClose =>
    cases he
    exact ⟨_, rfl, { h with ephase := rfl, cnt := rfl, cur := fun _ => rfl, emCnt := fun _ => h.cnt,
                            emVal := fun _ => hcur rfl }⟩
  case single =>
    obtain ⟨a, ha, he⟩ := andThen_eq_next.1 he
    obtain ⟨b, hb, hab⟩ := appendSingle_agree h (hcur rfl) ha
    cases he
    exact ⟨_, andThen_eq_next.2 ⟨b, hb, rfl⟩, { hab with cnt := rfl, cur := fun _ => rfl }⟩
  case singleCap =>
    obtain ⟨a, ha, he⟩ := andThen_eq_next.1 he
    obtain ⟨b, hb, hab⟩ := appendSingle_agree h (hcur rfl) ha
    cases he
    exact ⟨_, andThen_eq_next.2 ⟨b, hb, rfl⟩,
      { hab with ephase := rfl, cnt := rfl, cur := fun _ => rfl, emCnt := nofun, emVal := nofun }⟩
  case endEmpty =>
    cases he; exact ⟨_, rfl, { h with ephase := rfl, eosPend := rfl, emCnt := nofun, emVal := nofun }⟩
  case endRun =>
    cases he
    exact ⟨_, rfl, { h with ephase := rfl, eosPend := rfl, cnt := rfl, cur := fun h0 => absurd rfl h0,
                            emCnt := fun _ => h.cnt, emVal := fun _ => hcur rfl }⟩
  case endLit =>
    obtain ⟨a, ha, he⟩ := andThen_eq_next.1 he
    obtain ⟨b, hb, hab⟩ := appendSingle_agree h (hcur rfl) ha
    cases he
    exact ⟨_, andThen_eq_next.2 ⟨b, hb, rfl⟩,
      { hab with ephase := rfl, eosPend := rfl, cnt := rfl, cur := fun h0 => absurd rfl h0, emCnt := nofun,
                 emVal := nofun }⟩
  case runHdr =>
    cases he; exact ⟨_, rfl, { h with ephase := rfl, emCnt := nofun, emVal := fun _ => h.emVal (.inl hp) }⟩
  case runVal =>
    cases he
    exact ⟨_, rfl, { h with ephase := afterEmission_agree h, emCnt := fun hp => absurd hp (afterEmission_ne e).1,
                            emVal := fun hp => absurd hp (not_or.2 (afterEmission_ne e)) }⟩
  case litHdr =>
    cases he; exact ⟨_, rfl, { h with ephase := rfl, litRd := rfl, emCnt := nofun, emVal := nofun }⟩
  case litPay => cases he; exact ⟨_, rfl, { h with litRd := congrArg (· + 1) h.litRd }⟩
  case litLast =>
    cases he
    exact ⟨_, rfl, { h with ephase := afterEmission_agree h, litLen := rfl, litRd := rfl, litBuf := nofun,
                            emCnt := fun hp => absurd hp (afterEmission_ne e).1,
                            emVal := fun hp => absurd hp (not_or.2 (afterEmission_ne e)) }⟩
  case endOut =>
    cases he; exact ⟨_, rfl, { h with ephase := rfl, eosPend := rfl, emCnt := nofun, emVal := nofun }⟩

theorem encStep_in_agree {t : Token} {e' : Encoder} (h : EncAgree e f) (hp : e.ephase = .collect)
    (he : encStep (encRuleIn t e) t e = .next e') :
    ∃ f', encStep (encRuleIn t f) t f = .next f' ∧ EncAgree e' f' := by
  rw [encRuleIn_agree h]
  cases hr : encRuleIn t e with
  | none => rw [hr] at he; cases he
  | some r =>
    rw [hr] at he
    exact encApply_agree h (cnt_ne_zero_of_readsCandidate hr) (hp.trans (encRulePhase_of_encRuleIn hr).symm) he

theorem encStep_out_agree {t : Token} {e' : Encoder} (h : EncAgree e f)
    (he : encStep (encRuleOut e) t e = .next e') :
    ∃ f', encStep (encRuleOut f) t f = .next f' ∧ EncAgree e' f' := by
  rw [encRuleOut_agree h]
  cases hr : encRuleOut e with
  | none => rw [hr] at he; cases he
  | some r =>
    rw [hr] at he
    refine encApply_agree h (fun hc => ?_) (encRulePhase_of_encRuleOut hr).symm he
    rw [encRuleOut_not_readsCandidate hr] at hc
    cases hc

/-- The token offered depends on nothing R41 leaves out, while `lit_rd` is below `lit_len`. -/
theorem encoder_offer_agree (h : EncAgree e f) (hr : e.ephase = .litPay → e.litRd.toNat < e.litLen.toNat) :
    f.offer = e.offer := by
  cases hp : e.ephase <;> simp only [Encoder.offer, Encoder.outByte, ← h.ephase, hp]
  case runHdr => rw [h.emCnt hp]
  case runVal => rw [h.emVal (.inr hp)]
  case litHdr => rw [h.litLen]
  case litPay => rw [← h.litRd, h.litBuf _ (hr hp)]

end

/-! ### The decoder -/

theorem decAgree_refl (d : Decoder) : DecAgree d d :=
  ⟨rfl, rfl, rfl, rfl, fun _ => rfl, fun _ => rfl⟩

/-- The phase whose steps follow a rule (R236). -/
def decRulePhase : DecRule → DPhase
  | .hdrRun | .hdrLit | .hdrLit0 | .hdrEnd => .hdr
  | .runVal | .runVal0 | .runTrunc => .runVal
  | .runOut => .runOut
  | .litIn | .litTrunc => .litIn
  | .litOut => .litOut
  | .endOut => .endOut

section
variable {d g : Decoder}

theorem decRulePhase_of_decRuleIn {t : Token} {r : DecRule} (hr : decRuleIn t d = some r) :
    decRulePhase r = d.dphase := by
  unfold decRuleIn at hr
  cases hp : d.dphase <;> simp only [hp] at hr
  case hdr =>
    cases t with
    | byte b =>
      dsimp only at hr
      split_ifs at hr <;> cases hr <;> rfl
    | eom => cases hr; rfl
  case runVal =>
    cases t with
    | byte b => split_ifs at hr <;> cases hr <;> rfl
    | eom => cases hr; rfl
  case litIn => cases t <;> cases hr <;> rfl
  all_goals cases hr

theorem decRulePhase_of_decRuleOut {r : DecRule} (hr : decRuleOut d = some r) : decRulePhase r = d.dphase := by
  unfold decRuleOut at hr
  cases hp : d.dphase <;> simp only [hp] at hr
  case runOut => split_ifs at hr; cases hr; rfl
  case litOut => split_ifs at hr; cases hr; rfl
  case endOut => cases hr; rfl
  all_goals cases hr

theorem decRuleIn_agree (h : DecAgree d g) (t : Token) : decRuleIn t g = decRuleIn t d := by
  unfold decRuleIn
  rw [← h.dphase]
  cases hp : d.dphase
  case runVal => rw [h.dcount (.inl hp)]
  all_goals cases t <;> rfl

theorem decRuleOut_agree (h : DecAgree d g) : decRuleOut g = decRuleOut d := by
  unfold decRuleOut
  rw [← h.dphase]
  cases hp : d.dphase
  case runOut => rw [h.dcount (.inr (.inl hp))]
  case litOut => rw [h.dcount (.inr (.inr (.inr hp)))]
  all_goals rfl

/-- A rule does the same to what may be read later, for it reads nothing else. -/
theorem decApply_agree {r : DecRule} (h : DecAgree d g) (hp : d.dphase = decRulePhase r) (b : Byte) :
    DecAgree (decApply r b d) (decApply r b g) := by
  cases r
  case hdrRun => exact { h with dphase := rfl, dcount := fun _ => rfl, dval := nofun }
  case hdrLit => exact { h with dphase := rfl, dcount := fun _ => rfl, dval := nofun }
  case hdrLit0 => exact { h with dcount := fun _ => rfl }
  case hdrEnd => exact { h with dphase := rfl, dcount := nofun, dval := nofun }
  case runVal => exact { h with dphase := rfl, dcount := fun _ => h.dcount (.inl hp), dval := fun _ => rfl }
  case runVal0 => exact { h with dphase := rfl, dcount := nofun, dval := nofun }
  case runTrunc =>
    exact ⟨rfl, rfl, rfl, by simp [decApply, decRunTrunc, h.decFault, h.decFaultCode], nofun, nofun⟩
  case runOut =>
    have hc := h.dcount (.inr (.inl hp))
    exact { h with
      dphase := by simp only [decApply, decRunOut, hc]
      dcount := fun _ => congrArg (· - 1) hc
      dval := fun _ => h.dval (.inl hp) }
  case litIn =>
    exact { h with dphase := rfl, dcount := fun _ => h.dcount (.inr (.inr (.inl hp))), dval := fun _ => rfl }
  case litTrunc =>
    exact ⟨rfl, rfl, rfl, by simp [decApply, decLitTrunc, h.decFault, h.decFaultCode], nofun, nofun⟩
  case litOut =>
    have hc := h.dcount (.inr (.inr (.inr hp)))
    exact { h with
      dphase := by simp only [decApply, decLitOut, hc]
      dcount := fun _ => congrArg (· - 1) hc
      dval := fun _ => h.dval (.inr hp) }
  case endOut => exact { h with dphase := rfl, endErr := rfl, dcount := nofun, dval := nofun }

theorem decStep_agree {r : Option DecRule} {b : Byte} {d' : Decoder} (h : DecAgree d g)
    (hp : ∀ r', r = some r' → decRulePhase r' = d.dphase) (hd : decStep r b d = .next d') :
    ∃ g', decStep r b g = .next g' ∧ DecAgree d' g' := by
  cases r with
  | none => cases hd
  | some r => cases hd; exact ⟨_, rfl, decApply_agree h (hp r rfl).symm b⟩

theorem decStep_in_agree {t : Token} {b : Byte} {d' : Decoder} (h : DecAgree d g)
    (hd : decStep (decRuleIn t d) b d = .next d') :
    ∃ g', decStep (decRuleIn t g) b g = .next g' ∧ DecAgree d' g' := by
  rw [decRuleIn_agree h]
  exact decStep_agree h (fun _ => decRulePhase_of_decRuleIn) hd

theorem decStep_out_agree {b : Byte} {d' : Decoder} (h : DecAgree d g)
    (hd : decStep (decRuleOut d) b d = .next d') :
    ∃ g', decStep (decRuleOut g) b g = .next g' ∧ DecAgree d' g' := by
  rw [decRuleOut_agree h]
  exact decStep_agree h (fun _ => decRulePhase_of_decRuleOut) hd

theorem decoder_offer_agree (h : DecAgree d g) : g.offer = d.offer := by
  unfold Decoder.offer
  rw [← h.dphase]
  cases hp : d.dphase
  case runOut => rw [h.dval (.inl hp)]
  case litOut => rw [h.dval (.inr hp)]
  case endOut => rw [h.endErr]
  all_goals rfl

theorem decoder_inReady_agree (h : DecAgree d g) : g.inReady = d.inReady := by
  simp only [Decoder.inReady, h.dphase]

end

/-! ### Whole steps -/

section
variable {s t : State}

/-- In `E_LIT_PAY` a step rule applies only where `lit_rd` is below `lit_len`. -/
theorem litRd_lt_of_encStep_out {tok : Token} {e e' : Encoder} (hl : e.ephase = .litPay)
    (he : encStep (encRuleOut e) tok e = .next e') : e.litRd.toNat < e.litLen.toNat := by
  rcases encStep_out he with ⟨hp, -⟩ | ⟨hp, -⟩ | ⟨hp, -⟩ | ⟨-, hlt, -⟩ | ⟨-, hlt, -⟩ | ⟨hp, -⟩
  · cases hl.symm.trans hp
  · cases hl.symm.trans hp
  · cases hl.symm.trans hp
  · omega
  · omega
  · cases hl.symm.trans hp

/-- A token that goes out on `eo` is one that both encoders offer. -/
theorem offer_of_acceptEo {tok : Token} {s' : State} {f : Encoder} (h : EncAgree s.enc f)
    (hp : s.enc.ephase ≠ .collect) (hs : acceptEo tok s = .next s') :
    s.enc.offer = some tok ∧ f.offer = some tok := by
  rcases acceptEo_next hs with ⟨hc, -⟩ | ⟨-, ho, e, he, -⟩
  · exact absurd hc hp
  · exact ⟨ho, (encoder_offer_agree h fun hl => litRd_lt_of_encStep_out hl he).trans ho⟩

theorem encSimulates_agree : EncSimulates Agree where
  takeEi tok := by
    intro s t s' h hs
    rcases takeEi_next hs with ⟨hp, rfl⟩ | ⟨hp, e, he, rfl⟩
    · exact ⟨t, takeEi_waits tok (h.enc.ephase ▸ hp), h⟩
    · obtain ⟨f, hf, hef⟩ := encStep_in_agree h.enc hp he
      exact ⟨_, takeEi_steps (h.enc.ephase ▸ hp) hf, { h with enc := hef, encK := congrArg (positionAfter tok) h.encK }⟩
  acceptEo tok := by
    intro s t s' h hs
    rcases acceptEo_next hs with ⟨hp, rfl⟩ | ⟨hp, -, e, he, rfl⟩
    · exact ⟨t, acceptEo_waits tok (h.enc.ephase ▸ hp), h⟩
    · obtain ⟨f, hf, hef⟩ := encStep_out_agree h.enc he
      obtain ⟨-, ho⟩ := offer_of_acceptEo h.enc hp hs
      exact ⟨_, acceptEo_steps (h.enc.ephase ▸ hp) ho hf, { h with enc := hef, env := by simp only [outputEo, h.env] }⟩

theorem decSimulates_agree : DecSimulates Agree where
  dphase h := h.dec.dphase.symm
  offer h := decoder_offer_agree h.dec
  takeDi tok := by
    intro s t s' h hs
    have hready := decoder_inReady_agree h.dec
    rcases takeDi_next hs with ⟨hp, rfl⟩ | ⟨hp, d, hd, rfl⟩
    · exact ⟨t, takeDi_waits tok (hready.trans hp), h⟩
    · obtain ⟨g, hg, hdg⟩ := decStep_in_agree h.dec hd
      exact ⟨_, takeDi_steps (hready.trans hp) hg, { h with dec := hdg, decK := congrArg (positionAfter tok) h.decK }⟩
  putDo tok := by
    intro s t s' h hs
    obtain ⟨d, hd, rfl⟩ := putDo_next hs
    obtain ⟨g, hg, hdg⟩ := decStep_out_agree h.dec hd
    exact ⟨_, putDo_steps tok hg, { h with dec := hdg, env := by simp only [outputDo, h.env] }⟩

theorem encoder_inReady_agree {e f : Encoder} (h : EncAgree e f) : f.inReady = e.inReady := by
  simp only [Encoder.inReady, h.ephase]

theorem encoder_outValid_agree {e f : Encoder} (h : EncAgree e f) : f.outValid = e.outValid := by
  simp only [Encoder.outValid, h.ephase]

/-- The encoder is ready exactly when it offers nothing (R64). -/
theorem encoder_outValid_eq (e : Encoder) : e.outValid = !e.inReady := rfl

theorem advance_agree (a : List HostEvent) (h : Agree s t) : Agree (advance a s) (advance a t) :=
  { h with env := by simp only [advance, h.env] }

theorem resetUnits_agree (h : Agree s t) : Agree (resetUnits s) (resetUnits t) where
  enc := by simp only [resetUnits_enc, h.env]; exact encAgree_refl _
  dec := by simp only [resetUnits_dec, h.env]; exact decAgree_refl _
  encK := rfl
  decK := rfl
  env := h.env

/-- The token read from port `do` depends on nothing R41 leaves out. -/
theorem doInstr_agree (h : DecAgree s.dec t.dec) (hr : s.dec.inReady = false) : doInstr t = doInstr s := by
  obtain ⟨u, hu⟩ := Option.isSome_iff_exists.1 ((decoder_offer_isSome s.dec).trans (by rw [hr]; rfl))
  rw [doInstr_offer hu, doInstr_offer ((decoder_offer_agree h).trans hu)]

/-- The same things are to be done from states that agree. -/
structure FetchAgree (x y : Fetched) : Prop where
  rst : y.rst = x.rst
  instrs : y.instrs = x.instrs
  after : Agree x.after y.after

/-- The encoder's transfer at an edge, when the lines of `eo` agree where they are read as a transfer. -/
theorem encEdge_agree {p : PinsIn} (h : EncAgree s.enc t.enc)
    (hl : s.enc.inReady = false → p.eoReady = true → t.eoLines = s.eoLines) : encEdge p t = encEdge p s := by
  simp only [encEdge, eoInstr, encoder_inReady_agree h]
  split
  · rfl
  · rename_i hr
    split
    · rename_i ho; rw [hl (by simpa using hr) ho]
    · rfl

theorem decEdge_agree (p : PinsIn) (h : DecAgree s.dec t.dec) : decEdge p t = decEdge p s := by
  simp only [decEdge, decoder_inReady_agree h]
  split
  · rfl
  · rename_i hr; rw [doInstr_agree h (by simpa using hr)]

/-- With `eo` wired to `di` the lines of `eo` are read only while both units are in the middle of a transfer over the
link (R78). -/
theorem wired_transfers_agree (p : PinsIn) (h : Agree s t)
    (hl : s.enc.inReady = false → s.dec.inReady = true → t.eoLines = s.eoLines) :
    encEdge (wired p t) t ++ decEdge (wired p t) t = encEdge (wired p s) s ++ decEdge (wired p s) s := by
  have he := encoder_inReady_agree h.enc
  have hd := decoder_inReady_agree h.dec
  have hv := encoder_outValid_agree h.enc
  cases hse : s.enc.inReady <;> cases hsd : s.dec.inReady
  · simp [encEdge, decEdge, wired, he, hd, hse, hsd, doInstr_agree h.dec hsd]
  · simp [encEdge, decEdge, wired, eoInstr, he, hd, hv, hse, hsd, hl hse hsd]
  · simp [encEdge, decEdge, wired, he, hd, hse, hsd, doInstr_agree h.dec hsd]
  · simp [encEdge, decEdge, wired, he, hd, hv, hse, hsd, encoder_outValid_eq]

theorem edgeFetch_agree {p q : PinsIn} (rest : List HostEvent) (h : Agree s t) (hr : q.rst = p.rst)
    (hi : p.rst = false → encEdge q t ++ decEdge q t = encEdge p s ++ decEdge p s) :
    FetchAgree (edgeFetch p rest s) (edgeFetch q rest t) := by
  unfold edgeFetch
  rw [hr]
  split
  · exact ⟨rfl, rfl, advance_agree rest h⟩
  · rename_i hp; exact ⟨rfl, hi (by simpa using hp), advance_agree rest h⟩

theorem feedDecToken_agree (words : List TokenWord) (rest : List HostEvent) (h : Agree s t) :
    FetchAgree (feedDecToken words rest s) (feedDecToken words rest t) := by
  cases words with
  | nil => exact ⟨rfl, rfl, advance_agree _ h⟩
  | cons w ws => exact ⟨rfl, rfl, advance_agree _ h⟩

theorem feedDecFetch_agree (words : List TokenWord) (rest : List HostEvent) (h : Agree s t) :
    FetchAgree (feedDecFetch words rest s) (feedDecFetch words rest t) := by
  simp only [feedDecFetch, decoder_inReady_agree h.dec, ← h.dec.dphase]
  split
  · split
    · split
      · exact ⟨rfl, rfl, advance_agree _ h⟩
      · exact feedDecToken_agree words rest h
    · exact feedDecToken_agree words rest h
  · rename_i hr; exact ⟨rfl, doInstr_agree h.dec (by simpa using hr), advance_agree _ h⟩

theorem feedEncFetch_agree (words : List TokenWord) (rest : List HostEvent) (h : Agree s t)
    (hl : s.enc.inReady = false → t.eoLines = s.eoLines) :
    FetchAgree (feedEncFetch words rest s) (feedEncFetch words rest t) := by
  simp only [feedEncFetch, eoInstr, encoder_inReady_agree h.enc]
  split
  · cases words with
    | nil => exact ⟨rfl, rfl, advance_agree _ h⟩
    | cons w ws => exact ⟨rfl, rfl, advance_agree _ h⟩
  · rename_i hr; rw [hl (by simpa using hr)]; exact ⟨rfl, rfl, advance_agree _ h⟩

/-- States that agree fetch the same, when the lines of `eo` agree wherever they are read as a transfer: the transfer on
`eo` is then the first to run. -/
theorem fetch_agree (h : Agree s t)
    (hl : (fetch s).rst = false → s.enc.inReady = false → (fetch s).instrs.head? = some (eoInstr s) →
      t.eoLines = s.eoLines) : FetchAgree (fetch s) (fetch t) := by
  have ha : t.env.agenda = s.env.agenda := by rw [h.env]
  cases hs : s.env.agenda with
  | nil => simp only [fetch, ha, hs]; exact ⟨rfl, rfl, advance_agree _ h⟩
  | cons ev rest =>
    cases ev with
    | edge p =>
      simp only [fetch, ha, hs] at hl ⊢
      refine edgeFetch_agree rest h rfl fun hp => ?_
      rw [decEdge_agree p h.dec, encEdge_agree h.enc fun he ho => hl ?_ he ?_]
      · simp [edgeFetch, hp]
      · simp [edgeFetch, encEdge, hp, he, ho]
    | loopEdge p =>
      simp only [fetch, ha, hs] at hl ⊢
      refine edgeFetch_agree rest h rfl fun hp => wired_transfers_agree p h fun he hd => hl ?_ he ?_
      · simp [edgeFetch, hp]
      · have ho : (wired p s).eoReady = true := hd
        simp [edgeFetch, encEdge, hp, he, ho]
    | feedEnc words =>
      simp only [fetch, ha, hs] at hl ⊢
      exact feedEncFetch_agree words rest h fun he => hl (by simp [feedEncFetch, he]) he (by simp [feedEncFetch, he])
    | feedDec words =>
      simp only [fetch, ha, hs]
      exact feedDecFetch_agree words rest h

/-- The lines of `eo` carry the offered token (R172). -/
theorem eoLines_of_offer {tok : Token} (h : s.enc.offer = some tok) : s.eoLines = tokenWord tok := by
  simp only [State.eoLines, h]

/-- The instruction read from port `eo` accepts the token the lines carry. -/
theorem exec_eoInstr (s a : State) : exec (eoInstr s) a = acceptEo (wordToken s.eoLines) a := by
  unfold eoInstr decodeToken
  cases wordToken s.eoLines <;> rfl

/-- Where the transfer on `eo` completes, the lines of `eo` agree. -/
theorem eoLines_agree {a s' : State} (h : EncAgree s.enc t.enc) (hr : s.enc.inReady = false) (ha : a.enc = s.enc)
    (hs : exec (eoInstr s) a = .next s') : t.eoLines = s.eoLines := by
  rw [exec_eoInstr] at hs
  obtain ⟨ho, ho'⟩ := offer_of_acceptEo (ha ▸ h) (by simpa [Encoder.inReady, ha] using hr) hs
  exact (eoLines_of_offer ho').trans (eoLines_of_offer (ha ▸ ho)).symm

/-- A step does the same to what may be read later, for it reads nothing else. -/
theorem step_simulates_agree : Simulates Agree step := by
  intro s t s' h hs
  have hf : FetchAgree (fetch s) (fetch t) := by
    refine fetch_agree h fun hr he hhead => ?_
    obtain ⟨is, his⟩ := List.head?_eq_some_iff.1 hhead
    rw [step_of_not_rst hr, his, execAll_cons] at hs
    obtain ⟨a, ha, -⟩ := andThen_eq_next.1 hs
    exact eoLines_agree h.enc he (fetch_after_enc s) ha
  cases hr : (fetch s).rst
  · rw [step_of_not_rst hr] at hs
    rw [step_of_not_rst (hf.rst.trans hr), hf.instrs]
    exact execAll_simulates (exec_simulates encSimulates_agree decSimulates_agree) _ hf.after hs
  · rw [step_of_rst hr] at hs
    cases hs
    exact ⟨_, step_of_rst (hf.rst.trans hr), resetUnits_agree hf.after⟩

end

/-! ### Reset -/

/-- The reset values are all that may be read of an encoder after reset. -/
theorem encAgree_of_resetValues {e f : Encoder} (he : e.ResetValues) (hf : f.ResetValues) : EncAgree e f where
  ephase := he.ephase.trans hf.ephase.symm
  cnt := he.cnt.trans hf.cnt.symm
  litLen := he.litLen.trans hf.litLen.symm
  litRd := he.litRd.trans hf.litRd.symm
  eosPend := he.eosPend.trans hf.eosPend.symm
  cur h := absurd he.cnt h
  emCnt h := nomatch he.ephase.symm.trans h
  emVal := by simp [he.ephase]
  litBuf := by simp [he.litLen]

/-- The reset values are all that may be read of a decoder after reset. -/
theorem decAgree_of_resetValues {d g : Decoder} (hd : d.ResetValues) (hg : g.ResetValues) : DecAgree d g where
  dphase := hd.dphase.trans hg.dphase.symm
  endErr := hd.endErr.trans hg.endErr.symm
  decFault := hd.decFault.trans hg.decFault.symm
  decFaultCode := hd.decFaultCode.trans hg.decFaultCode.symm
  dcount := by simp [hd.dphase]
  dval := by simp [hd.dphase]

theorem resetValues_encoderAtReset : Encoder.atReset.ResetValues := ⟨rfl, rfl, rfl, rfl, rfl⟩

theorem resetValues_decoderAtReset : Decoder.atReset.ResetValues := ⟨rfl, rfl, rfl, rfl⟩

/-- Settles O1: the values stand in `State.reset`, and the pins follow from the two phases (R64). -/
theorem resetStateIsIdle : Obligations.ResetStateIsIdle :=
  ⟨resetValues_encoderAtReset, resetValues_decoderAtReset, rfl, rfl, ⟨rfl, rfl⟩, rfl, rfl, rfl, rfl, rfl⟩

/-- Settles O42: every step rule reads only what R41 allows, and the token a step puts out on `eo` is read from a buffer
entry below `lit_len`. -/
theorem unwrittenRegistersAreNeverRead : Obligations.UnwrittenRegistersAreNeverRead := by
  refine ⟨fun s t s' h hs => step_simulates_agree h hs, fun s t h hi => ?_, fun s h => ?_⟩
  · have hoffer : s.enc.offer = t.enc.offer := (encoder_offer_agree h.enc fun hp => (hi.litPay hp).1).symm
    exact ⟨(encoder_inReady_agree h.enc).symm, (encoder_outValid_agree h.enc).symm, hoffer,
      (decoder_inReady_agree h.dec).symm, by simp only [State.pins, Decoder.outValid, h.dec.dphase],
      (decoder_offer_agree h.dec).symm, h.dec.decFault, h.dec.decFaultCode⟩
  · exact ⟨encAgree_of_resetValues h.enc resetValues_encoderAtReset,
      decAgree_of_resetValues h.dec resetValues_decoderAtReset, h.encK, h.decK, rfl⟩

end Sys2Proof.Proofs
end

section
/-! One clock edge, once for both units: a unit is what it is ready for, what it offers and its two kinds of step, and at
an edge it stays, takes the token presented to it or puts out the one it offers (R63, R64). Runs of edges, the rules of the
handshake and the loop-back wiring are settled from it. -/

namespace Sys2Proof.Proofs

open Sys2Proof.Machine Sys2Proof.Laws

/-! ### A unit and its side of the state -/

/-- What the handshake sees of a unit: when it is ready, what it offers, and its input and output steps. -/
structure PortUnit (α β : Type) where
  ready : α → Bool
  offer : α → Option β
  take : Token → α → Host.Outcome α Fault Refusal
  put : β → α → Host.Outcome α Fault Refusal

/-- The encoder with ports `ei` and `eo`. -/
def encUnit : PortUnit Encoder Token where
  ready := Encoder.inReady
  offer := Encoder.offer
  take t e := encStep (encRuleIn t e) t e
  put t e := encStep (encRuleOut e) t e

/-- The decoder with ports `di` and `do`. -/
def decUnit : PortUnit Decoder DoToken where
  ready := Decoder.inReady
  offer := Decoder.offer
  take t d := decStep (decRuleIn t d) (tokenByte t) d
  put _ d := decStep (decRuleOut d) 0 d

/-- A unit's side of the state: registers, position, tokens put out. -/
@[ext] structure Side (α β : Type) where
  reg : α
  pos : Nat
  out : List β

/-- The encoder's side: registers, `ENC.k`, the tokens put out on `eo`. -/
def encSide (s : State) : Side Encoder Token := ⟨s.enc, s.encK, s.env.eoOut⟩

/-- The decoder's side: registers, `DEC.k`, the tokens put out on `do`. -/
def decSide (s : State) : Side Decoder DoToken := ⟨s.dec, s.decK, s.env.doOut⟩

theorem encSide_eq {s t : State} :
    encSide t = encSide s ↔ t.enc = s.enc ∧ t.encK = s.encK ∧ t.env.eoOut = s.env.eoOut := Side.ext_iff

theorem decSide_eq {s t : State} :
    decSide t = decSide s ↔ t.dec = s.dec ∧ t.decK = s.decK ∧ t.env.doOut = s.env.doOut := Side.ext_iff

/-! ### The transfers of a unit -/

namespace PortUnit

section
variable {α β : Type} {U : PortUnit α β} {x y z : Side α β}

/-- The transfer of `t` on the input port takes `x` to `y`. -/
structure Takes (U : PortUnit α β) (t : Token) (x y : Side α β) : Prop where
  ready : U.ready x.reg = true
  step : U.take t x.reg = .next y.reg
  pos : y.pos = positionAfter t x.pos
  out : y.out = x.out

/-- The transfer of the offered token `u` on the output port takes `x` to `y`. -/
structure Puts (U : PortUnit α β) (u : β) (x y : Side α β) : Prop where
  ready : U.ready x.reg = false
  offer : U.offer x.reg = some u
  step : U.put u x.reg = .next y.reg
  pos : y.pos = x.pos
  out : y.out = x.out ++ [u]

/-- What a clock edge without reset does to a unit, the lines of its ports being given. -/
inductive Edge (U : PortUnit α β) (valid : Bool) (t : Token) (accepts : Bool) (x y : Side α β) : Prop
  | stays (hin : ¬ (U.ready x.reg = true ∧ valid = true)) (hout : ¬ (U.ready x.reg = false ∧ accepts = true))
      (h : y = x)
  | takes (hv : valid = true) (h : U.Takes t x y)
  | puts (ha : accepts = true) (u : β) (h : U.Puts u x y)

theorem Takes.unique {t : Token} (h : U.Takes t x y) (h' : U.Takes t x z) : y = z :=
  Side.ext (Host.Outcome.next.inj (h.step.symm.trans h'.step)) (h.pos.trans h'.pos.symm) (h.out.trans h'.out.symm)

theorem Puts.unique {u v : β} (h : U.Puts u x y) (h' : U.Puts v x z) : y = z := by
  obtain rfl : u = v := Option.some.inj (h.offer.symm.trans h'.offer)
  exact Side.ext (Host.Outcome.next.inj (h.step.symm.trans h'.step)) (h.pos.trans h'.pos.symm)
    (h.out.trans h'.out.symm)

section
variable {valid accepts : Bool} {t : Token} (h : U.Edge valid t accepts x y)
include h

/-- Without a complete handshake the unit keeps its state (R63). -/
theorem Edge.eq_of_no_handshake (hin : ¬ (U.ready x.reg = true ∧ valid = true))
    (hout : ¬ (U.ready x.reg = false ∧ accepts = true)) : y = x := by
  cases h with
  | stays _ _ h => exact h
  | takes hv h => exact absurd ⟨h.ready, hv⟩ hin
  | puts ha u h => exact absurd ⟨h.ready, ha⟩ hout

theorem Edge.eq_of_not_accepted (hr : U.ready x.reg = false) (ha : accepts = false) : y = x :=
  h.eq_of_no_handshake (by simp [hr]) (by simp [ha])

theorem Edge.eq_of_not_offered (hr : U.ready x.reg = true) (hv : valid = false) : y = x :=
  h.eq_of_no_handshake (by simp [hv]) (by simp [hr])

/-- A complete handshake on the input port is a transfer. -/
theorem Edge.takes_of_handshake (hr : U.ready x.reg = true) (hv : valid = true) : U.Takes t x y := by
  cases h with
  | stays hin _ _ => exact absurd ⟨hr, hv⟩ hin
  | takes _ h => exact h
  | puts _ u h => simp [h.ready] at hr

/-- A complete handshake on the output port is a transfer of the offered token. -/
theorem Edge.puts_of_handshake (hr : U.ready x.reg = false) (ha : accepts = true) : ∃ u, U.Puts u x y := by
  cases h with
  | stays _ hout _ => exact absurd ⟨hr, ha⟩ hout
  | takes _ h => simp [h.ready] at hr
  | puts _ u h => exact ⟨u, h⟩

end

/-! ### Runs without stalls -/

/-- The unit takes the listed tokens, and puts out what it offers in between. No edge is idle. -/
inductive Run (U : PortUnit α β) : List Token → Side α β → Side α β → Prop
  | nil (x : Side α β) : Run U [] x x
  | take {t : Token} {ts : List Token} {x y z : Side α β} (h : U.Takes t x y) (hr : Run U ts y z) : Run U (t :: ts) x z
  | put {u : β} {ts : List Token} {x y z : Side α β} (h : U.Puts u x y) (hr : Run U ts y z) : Run U ts x z

/-- The tokens taken fix where a unit is when it is next ready: what it can do next is fixed by its own registers. -/
theorem Run.unique {ts : List Token} (h : U.Run ts x y) (hy : U.ready y.reg = true) :
    U.Run ts x z → U.ready z.reg = true → y = z := by
  induction h with
  | nil x =>
    intro h' hz
    cases h' with
    | nil => rfl
    | put h _ => simp [h.ready] at hy
  | take h _ ih =>
    intro h' hz
    cases h' with
    | take h1 hr => cases h.unique h1; exact ih hy hr hz
    | put h1 _ => exact absurd h.ready (by simp [h1.ready])
  | put h _ ih =>
    intro h' hz
    cases h' with
    | nil => simp [h.ready] at hz
    | take h1 _ => exact absurd h1.ready (by simp [h.ready])
    | put h1 hr => cases h.unique h1; exact ih hy hr hz

/-- The tokens a unit takes at an edge. -/
def taken (U : PortUnit α β) (valid : Bool) (t : Token) (x : Side α β) : List Token :=
  if U.ready x.reg && valid then [t] else []

/-- An edge in front of a run: where the unit stays, nothing is added. -/
theorem Edge.run {valid accepts : Bool} {t : Token} {ts : List Token} (h : U.Edge valid t accepts x y)
    (hr : U.Run ts y z) : U.Run (U.taken valid t x ++ ts) x z := by
  cases h with
  | stays hin _ h =>
    subst h
    have : U.taken valid t y = [] := by simpa [taken] using hin
    simpa [this] using hr
  | takes hv h => simpa [taken, h.ready, hv] using Run.take h hr
  | puts _ u h => simpa [taken, h.ready] using Run.put h hr

end

end PortUnit

/-! ### The token instructions are the transfers of their unit -/

section
variable {s a t : State}

theorem exec_on_ei (tok : Token) (s : State) : exec (tok.on .ei) s = takeEi tok s := by cases tok <;> rfl

theorem exec_on_eo (tok : Token) (s : State) : exec (tok.on .eo) s = acceptEo tok s := by cases tok <;> rfl

theorem exec_on_di (tok : Token) (s : State) : exec (tok.on .di) s = takeDi tok s := by cases tok <;> rfl

theorem exec_onDo (u : DoToken) (s : State) : exec u.onDo s = acceptDo u s := by cases u <;> rfl

theorem isEncInstr_on_ei (tok : Token) : isEncInstr (tok.on .ei) = true := by cases tok <;> rfl

theorem isEncInstr_on_eo (tok : Token) : isEncInstr (tok.on .eo) = true := by cases tok <;> rfl

theorem isEncInstr_on_di (tok : Token) : isEncInstr (tok.on .di) = false := by cases tok <;> rfl

theorem isEncInstr_onDo (u : DoToken) : isEncInstr u.onDo = false := by cases u <;> rfl

theorem encoder_inReady_iff (e : Encoder) : e.inReady = true ↔ e.ephase = .collect := by simp [Encoder.inReady]

theorem encoder_inReady_of_offer {e : Encoder} {tok : Token} (h : e.offer = some tok) : e.inReady = false := by
  cases hp : e.ephase <;> simp [Encoder.offer, Encoder.inReady, hp] at h ⊢

theorem decoder_inReady_of_offer {d : Decoder} {u : DoToken} (h : d.offer = some u) : d.inReady = false := by
  simpa [h] using (decoder_offer_isSome d).symm

theorem exists_decoder_offer {d : Decoder} (h : d.inReady = false) : ∃ u, d.offer = some u :=
  Option.isSome_iff_exists.1 (by rw [decoder_offer_isSome, h]; rfl)

theorem decoder_offer_none (d : Decoder) : d.offer = none ↔ d.inReady = true := by
  rw [← Option.isNone_iff_eq_none, ← Option.not_isSome, decoder_offer_isSome]; simp

theorem encoder_outValid_iff (e : Encoder) : e.outValid = true ↔ e.inReady = false := by
  rw [encoder_outValid_eq, Bool.not_eq_true']

/-- `do_valid` is the complement of `di_ready` (R64). -/
theorem decoder_outValid_eq (d : Decoder) : d.outValid = !d.inReady := by
  cases hp : d.dphase <;> simp [Decoder.outValid, Decoder.inReady, hp]

theorem decoder_outValid_iff (d : Decoder) : d.outValid = true ↔ d.inReady = false := by
  rw [decoder_outValid_eq, Bool.not_eq_true']

theorem acceptDo_waits (u : DoToken) (h : s.dec.offer = none) : acceptDo u s = .next s := by simp [acceptDo, h]

/-- Accepting a token other than the offered one is refused (log entry 5). -/
theorem acceptEo_other {tok o : Token} (ho : s.enc.offer = some o) (hne : tok ≠ o) :
    acceptEo tok s = .refused .notOffered := by
  have hv : s.enc.outValid = true := by rw [encoder_outValid_eq, encoder_inReady_of_offer ho]; rfl
  simp [acceptEo, hv, ho, hne]

theorem acceptDo_other {u o : DoToken} (ho : s.dec.offer = some o) (hne : u ≠ o) :
    acceptDo u s = .refused .notOffered := by
  simp [acceptDo, ho, hne]

theorem takes_of_takeEi {tok : Token} (hr : s.enc.inReady = true) (h : takeEi tok s = .next t) :
    encUnit.Takes tok (encSide s) (encSide t) := by
  rcases takeEi_next h with ⟨hp, -⟩ | ⟨-, e, he, rfl⟩
  · exact absurd ((encoder_inReady_iff _).1 hr) hp
  · exact ⟨hr, he, rfl, rfl⟩

theorem puts_of_acceptEo {tok : Token} (hr : s.enc.inReady = false) (h : acceptEo tok s = .next t) :
    encUnit.Puts tok (encSide s) (encSide t) := by
  rcases acceptEo_next h with ⟨hp, -⟩ | ⟨-, ho, e, he, rfl⟩
  · simp [(encoder_inReady_iff _).2 hp] at hr
  · exact ⟨hr, ho, he, rfl, rfl⟩

theorem takes_of_takeDi {tok : Token} (hr : s.dec.inReady = true) (h : takeDi tok s = .next t) :
    decUnit.Takes tok (decSide s) (decSide t) := by
  rcases takeDi_next h with ⟨hp, -⟩ | ⟨-, d, hd, rfl⟩
  · simp [hr] at hp
  · exact ⟨hr, hd, rfl, rfl⟩

theorem puts_of_acceptDo {u : DoToken} (hr : s.dec.inReady = false) (h : acceptDo u s = .next t) :
    decUnit.Puts u (decSide s) (decSide t) := by
  rcases acceptDo_next h with ⟨hp, -⟩ | ⟨ho, d, hd, rfl⟩
  · simp [(decoder_offer_none _).1 hp] at hr
  · exact ⟨hr, ho, hd, rfl, rfl⟩

/-! ### What an edge runs -/

/-- The token on the lines of `ei`. -/
def eiToken (p : PinsIn) : Token := wordToken (tokenLines p.eiEos p.eiData)

/-- The token on the lines of `di`. -/
def diToken (p : PinsIn) : Token := wordToken (tokenLines p.diEos p.diData)

/-- With `eo` wired to `di` the token on the lines of `di` is the one on the lines of `eo` (R78). -/
theorem diToken_wired (p : PinsIn) (s : State) : diToken (wired p s) = wordToken s.eoLines := by
  simp [diToken, wired, wordToken]

section
variable {p : PinsIn} {rest : List HostEvent}

theorem encEdge_takes (hr : s.enc.inReady = true) (hv : p.eiValid = true) :
    encEdge p s = [decodeToken .ei (tokenLines p.eiEos p.eiData)] := by simp [encEdge, hr, hv]

theorem encEdge_puts (hr : s.enc.inReady = false) (ho : p.eoReady = true) : encEdge p s = [eoInstr s] := by
  simp [encEdge, hr, ho]

theorem encEdge_none (hin : ¬ (s.enc.inReady = true ∧ p.eiValid = true))
    (hout : ¬ (s.enc.inReady = false ∧ p.eoReady = true)) : encEdge p s = [] := by
  cases hr : s.enc.inReady <;> simp_all [encEdge]

theorem decEdge_takes (hr : s.dec.inReady = true) (hv : p.diValid = true) :
    decEdge p s = [decodeToken .di (tokenLines p.diEos p.diData)] := by simp [decEdge, hr, hv]

theorem decEdge_puts {u : DoToken} (ho : s.dec.offer = some u) (ha : p.doReady = true) : decEdge p s = [u.onDo] := by
  simp [decEdge, decoder_inReady_of_offer ho, ha, doInstr_offer ho]

theorem decEdge_none (hin : ¬ (s.dec.inReady = true ∧ p.diValid = true))
    (hout : ¬ (s.dec.inReady = false ∧ p.doReady = true)) : decEdge p s = [] := by
  cases hr : s.dec.inReady <;> simp_all [decEdge]

/-- What the encoder does at an edge. -/
theorem encEdge_moves (h : execAll (encEdge p s) (advance rest s) = .next a) :
    encUnit.Edge p.eiValid (eiToken p) p.eoReady (encSide s) (encSide a) := by
  by_cases hin : s.enc.inReady = true ∧ p.eiValid = true
  · rw [encEdge_takes hin.1 hin.2, execAll_singleton, decodeToken, exec_on_ei] at h
    exact .takes hin.2 (takes_of_takeEi (s := advance rest s) hin.1 h)
  by_cases hout : s.enc.inReady = false ∧ p.eoReady = true
  · rw [encEdge_puts hout.1 hout.2, execAll_singleton, exec_eoInstr] at h
    exact .puts hout.2 _ (puts_of_acceptEo (s := advance rest s) hout.1 h)
  · rw [encEdge_none hin hout] at h
    cases h
    exact .stays hin hout rfl

/-- What the decoder does at an edge, from a state `a` in which the encoder may have moved. -/
theorem decEdge_moves (ha : decSide a = decSide s) (h : execAll (decEdge p s) a = .next t) :
    decUnit.Edge p.diValid (diToken p) p.doReady (decSide s) (decSide t) := by
  obtain ⟨hdec, -, -⟩ := decSide_eq.1 ha
  rw [← ha]
  by_cases hin : s.dec.inReady = true ∧ p.diValid = true
  · rw [decEdge_takes hin.1 hin.2, execAll_singleton, decodeToken, exec_on_di] at h
    exact .takes hin.2 (takes_of_takeDi (hdec ▸ hin.1) h)
  by_cases hout : s.dec.inReady = false ∧ p.doReady = true
  · obtain ⟨u, hu⟩ := exists_decoder_offer hout.1
    rw [decEdge_puts hu hout.2, execAll_singleton, exec_onDo] at h
    exact .puts hout.2 u (puts_of_acceptDo (hdec ▸ hout.1) h)
  · rw [decEdge_none hin hout] at h
    cases h
    exact .stays (by rwa [← hdec] at hin) (by rwa [← hdec] at hout) rfl

theorem encEdge_isEnc : ∀ i ∈ encEdge p s, isEncInstr i = true := by
  intro i hi
  unfold encEdge eoInstr at hi
  split_ifs at hi
  · rw [List.mem_singleton.1 hi]; exact isEncInstr_on_ei _
  · cases hi
  · rw [List.mem_singleton.1 hi]; exact isEncInstr_on_eo _
  · cases hi

theorem decEdge_isDec : ∀ i ∈ decEdge p s, isEncInstr i = false := by
  intro i hi
  by_cases hin : s.dec.inReady = true ∧ p.diValid = true
  · rw [decEdge_takes hin.1 hin.2, decodeToken] at hi
    rw [List.mem_singleton.1 hi, isEncInstr_on_di]
  by_cases hout : s.dec.inReady = false ∧ p.doReady = true
  · obtain ⟨u, hu⟩ := exists_decoder_offer hout.1
    rw [decEdge_puts hu hout.2] at hi
    rw [List.mem_singleton.1 hi, isEncInstr_onDo]
  · rw [decEdge_none hin hout] at hi; cases hi

end

/-! ### A whole edge -/

theorem execAll_append (is js : List Instr) (s : State) :
    execAll (is ++ js) s = andThen (execAll is s) (execAll js) := by
  induction is generalizing s with
  | nil => rfl
  | cons i is ih =>
    exact (congrArg (andThen (exec i s)) (funext ih)).trans (andThen_assoc _ _ _).symm

theorem step_of_fetch {is : List Instr} (h : fetch s = ⟨false, is, a⟩) : step s = execAll is a := by
  rw [step_of_not_rst (by rw [h]), h]

/-- Encoder instructions leave the decoder's side as it was (R20). -/
theorem execAll_encInstrs {is : List Instr} (hi : ∀ i ∈ is, isEncInstr i = true) (h : execAll is s = .next t) :
    decSide t = decSide s := by
  induction is generalizing s with
  | nil => cases h; rfl
  | cons i is ih =>
    obtain ⟨a, ha, h⟩ := andThen_eq_next.1 h
    obtain ⟨hdec, hk, hout, -⟩ := exec_enc_frame (hi i (by simp)) ha
    exact (ih (fun j hj => hi j (by simp [hj])) h).trans (decSide_eq.2 ⟨hdec, hk, hout⟩)

/-- Decoder instructions leave the encoder's side as it was (R20). -/
theorem execAll_decInstrs {is : List Instr} (hi : ∀ i ∈ is, isEncInstr i = false) (h : execAll is s = .next t) :
    encSide t = encSide s := by
  induction is generalizing s with
  | nil => cases h; rfl
  | cons i is ih =>
    obtain ⟨a, ha, h⟩ := andThen_eq_next.1 h
    obtain ⟨henc, hk, hout, -⟩ := exec_dec_frame (hi i (by simp)) ha
    exact (ih (fun j hj => hi j (by simp [hj])) h).trans (encSide_eq.2 ⟨henc, hk, hout⟩)

section
variable {p : PinsIn} {rest : List HostEvent} (hn : NextEdge s p rest) (hr : p.rst = false)
include hn hr

/-- A step at an edge without reset runs the encoder's transfer and then the decoder's. -/
theorem step_nextEdge : step s = andThen (execAll (encEdge p s) (advance rest s)) (execAll (decEdge p s)) := by
  have hf : fetch s = ⟨false, encEdge p s ++ decEdge p s, advance rest s⟩ := by
    rcases hn with hn | ⟨q, hn, rfl⟩
    · simp [fetch, hn, edgeFetch, hr]
    · simp [fetch, hn, edgeFetch, hr]
  rw [step_of_fetch hf, execAll_append]

/-- What a step at an edge without reset does to each unit. -/
theorem step_nextEdge_moves (h : step s = .next t) :
    encUnit.Edge p.eiValid (eiToken p) p.eoReady (encSide s) (encSide t) ∧
      decUnit.Edge p.diValid (diToken p) p.doReady (decSide s) (decSide t) := by
  rw [step_nextEdge hn hr] at h
  obtain ⟨a, ha, hd⟩ := andThen_eq_next.1 h
  rw [execAll_decInstrs decEdge_isDec hd]
  exact ⟨encEdge_moves ha, decEdge_moves (execAll_encInstrs (s := advance rest s) encEdge_isEnc ha) hd⟩

end

end

/-! ### Runs of edges (R66) -/

theorem eiTransfers_eq {p : PinsIn} (hr : p.rst = false) (s : State) :
    eiTransfers p s = encUnit.taken p.eiValid (eiToken p) (encSide s) := by
  simp only [eiTransfers, hr, Bool.not_false, Bool.true_and]; rfl

theorem diTransfers_eq {p : PinsIn} (hr : p.rst = false) (s : State) :
    diTransfers p s = decUnit.taken p.diValid (diToken p) (decSide s) := by
  simp only [diTransfers, hr, Bool.not_false, Bool.true_and]; rfl

/-- A run of edges without reset, with or without the loop-back wiring, is a run of each unit with the tokens it took. -/
theorem runEdges_runs {link : Bool} {ps : List PinsIn} (hps : ∀ p ∈ ps, p.rst = false) {s : State} {r : EdgeRun}
    (h : runEdges link ps s = some r) :
    encUnit.Run r.eiTaken (encSide s) (encSide r.last) ∧ decUnit.Run r.diTaken (decSide s) (decSide r.last) := by
  induction ps generalizing s r with
  | nil => cases h; exact ⟨.nil _, .nil _⟩
  | cons p ps ih =>
    rw [runEdges] at h
    split at h
    · rename_i t ht
      obtain ⟨r', hr', rfl⟩ := Option.map_eq_some_iff.1 h
      obtain ⟨henc, hdec⟩ := ih (fun q hq => hps q (by simp [hq])) hr'
      have hrst : (if link then wired p s else p).rst = false := by cases link <;> exact hps p (by simp)
      obtain ⟨hencEdge, hdecEdge⟩ := step_nextEdge_moves (p := if link then wired p s else p) (rest := [])
        (by cases link; exacts [.inl rfl, .inr ⟨p, rfl, rfl⟩]) hrst ht
      rw [eiTransfers_eq hrst, diTransfers_eq hrst]
      exact ⟨hencEdge.run henc, hdecEdge.run hdec⟩
    · cases h
    · cases h

/-- Settles O11: the two runs are runs of the encoder without stalls, and those are fixed by the tokens taken. -/
theorem encoderIgnoresStalls : Obligations.EncoderIgnoresStalls := by
  intro s ps qs r q hps hqs hr hq htaken hrc hqc
  have hr := (runEdges_runs hps hr).1
  have hq := (runEdges_runs hqs hq).1
  rw [htaken] at hr
  obtain ⟨henc, -, hout⟩ := encSide_eq.1 (hr.unique ((encoder_inReady_iff _).2 hrc) hq ((encoder_inReady_iff _).2 hqc))
  exact ⟨henc, hout⟩

/-- Settles O12, as O11: the runs of the decoder without stalls are fixed by the tokens taken. -/
theorem decoderIgnoresStalls : Obligations.DecoderIgnoresStalls := by
  intro s ps qs r q hps hqs hr hq htaken hrr hqr
  have hr := (runEdges_runs hps hr).2
  have hq := (runEdges_runs hqs hq).2
  rw [htaken] at hr
  obtain ⟨hdec, -, hout⟩ := decSide_eq.1 (hr.unique hrr hq hqr)
  exact ⟨hdec, hout⟩

/-! ### Ready, valid and the handshake (R63 to R65) -/

/-- Settles O4: the pins are read off the phase, and an edge makes one transfer of a unit or none. -/
theorem readyValidByPhase : Obligations.ReadyValidByPhase := by
  intro s
  refine ⟨encoder_inReady_iff _, ?_, ?_, ?_, rfl, decoder_outValid_eq _, fun t henc hdec => ?_, fun p => ⟨?_, ?_⟩⟩
  · simp [State.pins, Encoder.outValid]
  · simp [State.pins, Decoder.inReady, or_assoc]
  · simp [State.pins, Decoder.outValid, or_assoc]
  · simp only [State.pins, State.eoLines, State.doLines, henc, hdec]
  · unfold encEdge; split_ifs <;> simp
  · unfold decEdge
    split_ifs
    · simp
    · simp
    · unfold doInstr; cases decoded? (decodeDo s.doLines) <;> simp
    · simp

/-- Settles O7: a unit without a complete handshake stays at an edge, and where both stay nothing is run. -/
theorem edgeWithoutTransferKeepsUnit : Obligations.EdgeWithoutTransferKeepsUnit := by
  intro s p rest hn hr
  have henc : ¬ (s.enc.outValid = true ∧ p.eoReady = true) → ¬ (s.enc.inReady = false ∧ p.eoReady = true) :=
    mt (And.imp_left (encoder_outValid_iff _).2)
  have hdec : ¬ (s.dec.outValid = true ∧ p.doReady = true) → ¬ (s.dec.inReady = false ∧ p.doReady = true) :=
    mt (And.imp_left (decoder_outValid_iff _).2)
  refine ⟨fun hi ho t ht => ?_, fun hi ho t ht => ?_, fun hi ho hdi hdo => ?_⟩
  · exact encSide_eq.1 ((step_nextEdge_moves hn hr ht).1.eq_of_no_handshake hi (henc ho))
  · exact decSide_eq.1 ((step_nextEdge_moves hn hr ht).2.eq_of_no_handshake hi (hdec ho))
  · rw [step_nextEdge hn hr, encEdge_none hi (henc ho), decEdge_none hdi (hdec hdo)]
    rfl

/-- Settles O8: while the other side does not complete the handshake the unit keeps its registers, and with them what it
shows on the port. -/
theorem offerStaysUntilTaken : Obligations.OfferStaysUntilTaken := by
  intro s t p rest hn hr ht
  obtain ⟨henc, hdec⟩ := step_nextEdge_moves hn hr ht
  refine ⟨fun hv ha => ?_, fun hv ha => ?_, fun hready hv => ?_, fun hready hv => ?_⟩
  · obtain ⟨h, -⟩ := encSide_eq.1 (henc.eq_of_not_accepted ((encoder_outValid_iff _).1 hv) ha)
    exact ⟨(congrArg Encoder.outValid h).trans hv, congrArg Encoder.offer h⟩
  · obtain ⟨h, -⟩ := decSide_eq.1 (hdec.eq_of_not_accepted ((decoder_outValid_iff _).1 hv) ha)
    exact ⟨(congrArg Decoder.outValid h).trans hv, congrArg Decoder.offer h⟩
  · obtain ⟨h, -⟩ := encSide_eq.1 (henc.eq_of_not_offered hready hv)
    exact (congrArg Encoder.inReady h).trans hready
  · obtain ⟨h, -⟩ := decSide_eq.1 (hdec.eq_of_not_offered hready hv)
    exact (congrArg Decoder.inReady h).trans hready

/-- Settles O10: with the wiring, `eo_ready` is `di_ready` and the lines of `di` are those of `eo`. -/
theorem linkTransferIsOneToken : Obligations.LinkTransferIsOneToken := by
  intro s s' p rest tok hagenda hr hoffer hs
  obtain ⟨henc, hdec⟩ := step_nextEdge_moves (p := wired p s) (.inr ⟨p, hagenda, rfl⟩) hr hs
  have hbusy := encoder_inReady_of_offer hoffer
  refine ⟨fun hready => ?_, fun hstall => ?_⟩
  · obtain ⟨u, hu⟩ := henc.puts_of_handshake hbusy hready
    obtain rfl : tok = u := Option.some.inj (hoffer.symm.trans hu.offer)
    have htok : diToken (wired p s) = tok := by
      rw [diToken_wired, eoLines_of_offer hoffer, wordToken_tokenWord]
    have hd := hdec.takes_of_handshake hready (by simp [wired, encoder_outValid_eq, hbusy])
    exact ⟨hu.out, htok ▸ hd.step⟩
  · obtain ⟨he, -, hout⟩ := encSide_eq.1 (henc.eq_of_not_accepted hbusy hstall)
    exact ⟨hout, he⟩

/-- Settles O13: an input port is looked at only while ready, an output port only while a token is on offer, and then for
that token. -/
theorem noHandshakeNoTransfer : Obligations.NoHandshakeNoTransfer := by
  intro s b err tok u
  have hidle : s.dec.outValid = false → ∀ v, acceptDo v s = .next s := fun hv v =>
    acceptDo_waits v ((decoder_offer_none _).2 (by simpa [decoder_outValid_eq] using hv))
  refine ⟨fun hr => ?_, fun hr => ?_, fun hv => ?_, fun hv => ⟨hidle hv (.byte b), hidle hv (.eom err)⟩,
    fun o ho hne => ?_, fun o ho hne => ?_⟩
  · rw [exec_on_ei, takeEi_waits tok fun hp => by simp [State.pins, (encoder_inReady_iff _).2 hp] at hr]
  · rw [exec_on_di, takeDi_waits tok hr]
  · rw [exec_on_eo, acceptEo_waits tok (by simpa [State.pins, Encoder.outValid] using hv)]
  · rw [exec_on_eo, acceptEo_other ho hne]
  · rw [exec_onDo, acceptDo_other ho hne]

/-! ### What a step runs -/

/-- At a chunk boundary, a host that feeds the decoder has the whole chunk run that its next bytes are (R191). -/
theorem fetch_feedDec_chunk {s : State} {rest : List HostEvent} {bytes : List Byte} {more : List TokenWord} {i : Instr}
    (ha : s.env.agenda = .feedDec (byteWords bytes ++ more) :: rest) (hp : s.dec.dphase = .hdr)
    (hi : decode (.chunk bytes) = .ok i) : fetch s = ⟨false, [i], advance (.feedDec more :: rest) s⟩ := by
  have hchunk : decodeChunk (leadingBytes (byteWords bytes ++ more)) = .ok (i, leadingBytes more) := by
    rw [leadingBytes_byteWords]
    exact decodeChunk_append (decode_chunk_ok hi) (leadingBytes more)
  have hdrop : (byteWords bytes ++ more).drop
      ((leadingBytes (byteWords bytes ++ more)).length - (leadingBytes more).length) = more := by
    rw [leadingBytes_byteWords, List.length_append, Nat.add_sub_cancel]
    exact List.drop_left' (by simp [byteWords])
  simp only [fetch, ha, feedDecFetch, Decoder.inReady, hp, hchunk, hdrop]
  rfl

/-- Settles O9: an edge runs the instructions of its two transfers, a feeding host has one token or one chunk run. -/
theorem stepRunsDecodedInstruction : Obligations.StepRunsDecodedInstruction := by
  intro s p rest
  refine ⟨fun hn hr => ?_, fun bytes more i ha hp hi => ?_, fun w ws ha hready => ?_⟩
  · have hencOnly : ∀ i, encEdge p s = [i] → decEdge p s = [] → step s = exec i (advance rest s) := by
      intro i hi hd
      rw [step_nextEdge hn hr, hi, hd, execAll_singleton]
      cases exec i (advance rest s) <;> rfl
    have hdecOnly : ∀ j, encEdge p s = [] → decEdge p s = [j] → step s = exec j (advance rest s) := by
      intro j he hj
      rw [step_nextEdge hn hr, he, hj, execAll_nil, andThen_next, execAll_singleton]
    refine ⟨fun hready hv => hencOnly _ (encEdge_takes hready hv),
      fun hready hv he => hdecOnly _ he (decEdge_takes hready hv), fun t ho ha => ?_,
      fun t ho ha he => hdecOnly _ he (decEdge_puts ho ha), fun i j hi hj => ?_⟩
    · exact hencOnly _ (by rw [encEdge_puts (encoder_inReady_of_offer ho) ha, eoInstr_offer ho])
    · rw [step_nextEdge hn hr, hi, hj, execAll_singleton, funext (execAll_singleton j)]
  · rw [step_of_fetch (fetch_feedDec_chunk ha hp hi), execAll_singleton]
  · have hf : fetch s = ⟨false, [decodeToken .ei w], advance (.feedEnc ws :: rest) s⟩ := by
      have hr : s.enc.inReady = true := hready
      simp [fetch, ha, feedEncFetch, hr]
    rw [step_of_fetch hf, execAll_singleton]

end Sys2Proof.Proofs
end

section
/-! The payload buffer and the two units' sides of the state: that an encoder instruction and a decoder instruction can be
run in either order, which steps write the buffer and where, and how a literal chunk is put out from it. -/

namespace Sys2Proof.Proofs

open Sys2Proof.Machine Sys2Proof.Laws

/-! ### Steps of the two units commute (R74) -/

/-- The encoder's side and the host's move of `x` with the decoder's side of `y`. -/
def joined (x y : State) : State := outsideEnc y.dec y.decK y.env.doOut x.env.agenda x.env.free x

section
variable {i j : Instr} {s t x y : State}

/-- What an encoder instruction gives has the decoder's side it started with. -/
theorem joined_enc (hi : isEncInstr i = true) (h : exec i s = .next x) : joined x s = x := by
  obtain ⟨hdec, hk, hout, -⟩ := exec_enc_frame hi h
  rw [joined, ← hdec, ← hk, ← hout]
  rfl

/-- What a decoder instruction gives has the encoder's side it started with. -/
theorem joined_dec (hj : isEncInstr j = false) (h : exec j s = .next y) : joined s y = y := by
  obtain ⟨henc, hk, hout, hagenda, hfree⟩ := exec_dec_frame hj h
  rw [joined, outsideEnc, ← henc, ← hk, ← hout, ← hagenda, ← hfree]

/-- An encoder instruction does the same beside any decoder. -/
theorem exec_joined_enc (hi : isEncInstr i = true) (h : exec i s = .next x) (y : State) :
    exec i (joined s y) = .next (joined x y) := by
  obtain ⟨-, -, -, hagenda, hfree⟩ := exec_enc_frame hi h
  rw [joined, joined, hagenda, hfree]
  exact exec_outsideEnc hi h ..

/-- A decoder instruction does the same beside any encoder. -/
theorem exec_joined_dec (hj : isEncInstr j = false) (h : exec j s = .next y) (x : State) :
    exec j (joined x s) = .next (joined x y) :=
  exec_outsideDec hj h x.enc x.encK x.env.eoOut x.env.agenda x.env.free

theorem exec_of_joined_enc (hi : isEncInstr i = true) (h : exec i (joined s y) = .next t) :
    ∃ x, exec i s = .next x ∧ t = joined x y :=
  ⟨joined t s, exec_joined_enc hi h s, (joined_enc hi h).symm⟩

theorem exec_of_joined_dec (hj : isEncInstr j = false) (h : exec j (joined x s) = .next t) :
    ∃ y, exec j s = .next y ∧ t = joined x y :=
  ⟨joined s t, exec_joined_dec hj h s, (joined_dec hj h).symm⟩

end

/-- Settles O34: in either order the result has the encoder's side of the one instruction's result and the decoder's side
of the other's. -/
theorem unitStepsCommute : Obligations.UnitStepsCommute := by
  intro i j s t hi hj
  simp only [execAll_cons, andThen_eq_next, execAll_nil, Host.Outcome.next.injEq, exists_eq_right]
  constructor
  · rintro ⟨x, hx, ht⟩
    rw [← joined_enc hi hx] at ht
    obtain ⟨y, hy, rfl⟩ := exec_of_joined_dec hj ht
    exact ⟨y, hy, joined_dec hj hy ▸ exec_joined_enc hi hx y⟩
  · rintro ⟨y, hy, ht⟩
    rw [← joined_dec hj hy] at ht
    obtain ⟨x, hx, rfl⟩ := exec_of_joined_enc hi ht
    exact ⟨x, hx, joined_enc hi hx ▸ exec_joined_dec hj hy x⟩

/-! ### Writes of the payload buffer (R80) -/

/-- The tokens with which a single joins the literal segment: a candidate held once, and `END` or a different byte. -/
def AppendsSingle (t : Token) (e : Encoder) : Prop := e.cnt = 1 ∧ t ≠ .byte e.cur

/-- An input step writes the candidate at `lit_len` when a single joins the literal segment, and nothing otherwise. -/
theorem encStep_in_litBuf {t : Token} {e f : Encoder} (h : encStep (encRuleIn t e) t e = .next f) :
    (AppendsSingle t e ∧ e.litLen.toNat ≤ 126 ∧ f.litBuf = Memory.write e.litBuf e.litLen.toNat e.cur) ∨
      (¬ AppendsSingle t e ∧ f.litBuf = e.litBuf) := by
  have hz : ¬ (0 : Count) = 1 := by decide
  have hcap : ¬ (127 : Count) = 1 := by decide
  cases t with
  | byte b =>
    rcases encStep_byte h with ⟨h0, rfl⟩ | ⟨-, rfl, -, rfl⟩ | ⟨-, rfl, -, rfl⟩ | ⟨-, h1, -, -, rfl⟩ | ⟨hc, -, rfl⟩ |
      ⟨-, h1, -, rfl⟩ | ⟨h1, hb, hl, rfl⟩ | ⟨h1, hb, hl, rfl⟩
    · exact .inr ⟨fun ha => hz (h0 ▸ ha.1), rfl⟩
    · exact .inr ⟨fun ha => ha.2 rfl, rfl⟩
    · exact .inr ⟨fun ha => ha.2 rfl, rfl⟩
    · exact .inr ⟨fun ha => h1 ha.1, rfl⟩
    · exact .inr ⟨fun ha => hcap (hc ▸ ha.1), rfl⟩
    · exact .inr ⟨fun ha => h1 ha.1, rfl⟩
    · exact .inl ⟨⟨h1, fun hb' => hb (Token.byte.inj hb')⟩, Nat.le_succ_of_le hl, rfl⟩
    · exact .inl ⟨⟨h1, fun hb' => hb (Token.byte.inj hb')⟩, by rw [hl]; decide, rfl⟩
  | eom =>
    rcases encStep_eom h with ⟨h0, rfl⟩ | ⟨-, h1, rfl⟩ | ⟨h1, hl, rfl⟩
    · exact .inr ⟨fun ha => hz (h0 ▸ ha.1), rfl⟩
    · exact .inr ⟨fun ha => h1 ha.1, rfl⟩
    · exact .inl ⟨⟨h1, nofun⟩, hl, rfl⟩

/-- An output step only reads the buffer. -/
theorem encStep_out_litBuf {t : Token} {e f : Encoder} (h : encStep (encRuleOut e) t e = .next f) :
    f.litBuf = e.litBuf := by
  rcases encStep_out h with ⟨-, rfl⟩ | ⟨-, rfl⟩ | ⟨-, rfl⟩ | ⟨-, -, rfl⟩ | ⟨-, -, rfl⟩ | ⟨-, rfl⟩ <;> rfl

/-- An instruction writes the buffer when it is the transfer on `ei` of a token with which a single joins the literal
segment. -/
def WritesBuffer (i : Instr) (s : State) : Prop :=
  ∃ t : Token, i = t.on .ei ∧ s.enc.ephase = .collect ∧ AppendsSingle t s.enc

theorem token_on_inj {t u : Token} {p q : Port} : t.on p = u.on q ↔ t = u ∧ p = q := by
  cases t <;> cases u <;> simp [Token.on, and_comm]

/-- The encoder's instructions are the transfers on its two ports. -/
theorem exists_on_of_isEncInstr : ∀ {i : Instr}, isEncInstr i = true → ∃ t : Token, i = t.on .ei ∨ i = t.on .eo
  | .byte .ei b, _ => ⟨.byte b, .inl rfl⟩
  | .byte .eo b, _ => ⟨.byte b, .inr rfl⟩
  | .endMsg .ei, _ => ⟨.eom, .inl rfl⟩
  | .endMsg .eo, _ => ⟨.eom, .inr rfl⟩

theorem exec_litBuf {i : Instr} {s t : State} (h : exec i s = .next t) :
    (WritesBuffer i s ∧ s.enc.litLen.toNat ≤ 126 ∧
        t.enc.litBuf = Memory.write s.enc.litBuf s.enc.litLen.toNat s.enc.cur) ∨
      (¬ WritesBuffer i s ∧ t.enc.litBuf = s.enc.litBuf) := by
  cases hi : isEncInstr i
  · refine .inr ⟨?_, by rw [(exec_dec_frame hi h).1]⟩
    rintro ⟨tok, rfl, -⟩
    simp [isEncInstr_on_ei] at hi
  obtain ⟨tok, rfl | rfl⟩ := exists_on_of_isEncInstr hi
  · rw [exec_on_ei] at h
    rcases takeEi_next h with ⟨hp, rfl⟩ | ⟨hp, e, he, rfl⟩
    · exact .inr ⟨fun ⟨_, _, hp', _⟩ => hp hp', rfl⟩
    · refine (encStep_in_litBuf he).imp (And.imp_left fun ha => ⟨tok, rfl, hp, ha⟩) (And.imp_left fun ha => ?_)
      rintro ⟨u, hu, -, hau⟩
      exact ha ((token_on_inj.1 hu).1 ▸ hau)
  · refine .inr ⟨fun ⟨u, hu, _⟩ => absurd (token_on_inj.1 hu).2 (by decide), ?_⟩
    rw [exec_on_eo] at h
    rcases acceptEo_next h with ⟨-, rfl⟩ | ⟨-, -, e, he, rfl⟩
    · rfl
    · exact encStep_out_litBuf he

theorem writesBuffer_iff {i : Instr} {s : State} : WritesBuffer i s ↔
    (i = .endMsg .ei ∨ ∃ b, i = .byte .ei b ∧ b ≠ s.enc.cur) ∧ s.enc.ephase = .collect ∧ s.enc.cnt = 1 := by
  constructor
  · rintro ⟨tok, rfl, hp, h1, hne⟩
    refine ⟨?_, hp, h1⟩
    cases tok with
    | byte b => exact .inr ⟨b, rfl, fun hb => hne (congrArg _ hb)⟩
    | eom => exact .inl rfl
  · rintro ⟨rfl | ⟨b, rfl, hb⟩, hp, h1⟩
    · exact ⟨.eom, rfl, hp, h1, nofun⟩
    · exact ⟨.byte b, rfl, hp, h1, fun hb' => hb (Token.byte.inj hb')⟩

/-- Settles O35: the buffer is written at `lit_len` or not at all. -/
theorem payloadBufferFrame : Obligations.PayloadBufferFrame := by
  intro i s t h
  simp only [← and_imp, ← writesBuffer_iff]
  rcases exec_litBuf h with ⟨hw, hl, hbuf⟩ | ⟨hw, hbuf⟩
  · rw [hbuf]
    exact ⟨fun a ha => read_write_other _ _ ha, fun _ => ⟨hl, read_write_same _ _ _⟩, fun hn => absurd hw hn⟩
  · rw [hbuf]
    exact ⟨fun _ _ => rfl, fun hw' => absurd hw' hw, fun _ => rfl⟩

/-! ### A literal chunk going out (R165 to R167) -/

/-- The `n` bytes of the buffer from entry `a` on. -/
def bytesFrom (m : Memory) (a n : Nat) : List Byte := (List.range' a n).map (Memory.read m)

theorem heldBytes_eq (e : Encoder) : heldBytes e = bytesFrom e.litBuf 0 e.litLen.toNat := by
  rw [heldBytes, List.range_eq_range']; rfl

theorem bytesFrom_succ (m : Memory) (a n : Nat) :
    bytesFrom m a (n + 1) = Memory.read m a :: bytesFrom m (a + 1) n := by
  rw [bytesFrom, List.range'_succ]; rfl

/-- The bytes `bs` have gone out on `eo`, and the encoder is now `e`. -/
def afterBytes (e : Encoder) (bs : List Byte) (s : State) : State :=
  { s with enc := e, env := { s.env with eoOut := s.env.eoOut ++ bs.map Token.byte } }

section
variable {s : State} {e f : Encoder} {b : Byte} {bs : List Byte}

theorem exec_byte_eo (hp : s.enc.ephase ≠ .collect) (ho : s.enc.offer = some (.byte b))
    (he : encStep (encRuleOut s.enc) (.byte b) s.enc = .next e) :
    exec (.byte .eo b) s = .next (afterBytes e [b] s) := acceptEo_steps hp ho he

/-- A byte goes out in front of others. -/
theorem execAll_byte_eo_cons (hb : exec (.byte .eo b) s = .next (afterBytes e [b] s))
    (hbs : execAll (bs.map (Instr.byte .eo)) (afterBytes e [b] s) = .next (afterBytes f bs (afterBytes e [b] s))) :
    execAll ((b :: bs).map (Instr.byte .eo)) s = .next (afterBytes f (b :: bs) s) := by
  rw [List.map_cons, execAll_cons, hb, andThen_next, hbs]
  simp [afterBytes]

theorem exec_litHdr (hp : s.enc.ephase = .litHdr) :
    exec (.byte .eo (litHeader s.enc.litLen)) s = .next (afterBytes (encLitHdr s.enc) [litHeader s.enc.litLen] s) :=
  exec_byte_eo (by simp [hp]) (by simp [Encoder.offer, Encoder.outByte, hp])
    (by simp [encRuleOut, hp, encStep, encApply])

/-- The payload byte at `lit_rd` goes out by whichever of R166, R167 applies. -/
theorem exec_litPay (hp : s.enc.ephase = .litPay) (hr : s.enc.litRd.toNat < s.enc.litLen.toNat)
    (hb : b = Memory.read s.enc.litBuf s.enc.litRd.toNat)
    (he : encStep (encRuleOut s.enc) (.byte b) s.enc = .next e) :
    exec (.byte .eo b) s = .next (afterBytes e [b] s) := by
  have hdepth : s.enc.litRd.toNat < Config.litBufDepth := lt_of_lt_of_le hr (Nat.le_of_lt_succ s.enc.litLen.isLt)
  exact exec_byte_eo (by simp [hp]) (by simp [Encoder.offer, Encoder.outByte, hp, hdepth, hb]) he

end

/-- What is left of the payload goes out in order, and the literal segment is empty after it. -/
theorem execAll_litPay (n : Nat) : ∀ {s : State} {a : Nat}, s.enc.ephase = .litPay → s.enc.litRd.toNat = a →
    s.enc.litLen.toNat = a + (n + 1) →
    execAll ((bytesFrom s.enc.litBuf a (n + 1)).map (Instr.byte .eo)) s =
      .next (afterBytes (encLitLast s.enc) (bytesFrom s.enc.litBuf a (n + 1)) s) := by
  induction n with
  | zero =>
    rintro s a hp rfl hn
    rw [bytesFrom_succ]
    refine execAll_byte_eo_cons (e := encLitLast s.enc) (exec_litPay hp (by omega) rfl ?_) ?_
    · simp [encRuleOut, hp, morePayload, lastPayload, hn, encStep, encApply]
    · simp [bytesFrom, afterBytes]
  | succ n ih =>
    rintro s a hp rfl hn
    have hrd : (encLitPay s.enc).litRd.toNat = s.enc.litRd.toNat + 1 :=
      append_litLen (by have := s.enc.litLen.isLt; omega)
    rw [bytesFrom_succ]
    refine execAll_byte_eo_cons (e := encLitPay s.enc) (exec_litPay hp (by omega) rfl ?_) ?_
    · simp [encRuleOut, hp, morePayload, hn, encStep, encApply]
    · exact ih (s := afterBytes (encLitPay s.enc) _ s) hp hrd (hn.trans (by omega))

/-- Settles O21: R165 puts out the header, then R166 and R167 the bytes held. -/
theorem literalChunkDrains : Obligations.LiteralChunkDrains := by
  intro s hi hp
  obtain ⟨hlen, -⟩ := hi.litHdr hp
  obtain ⟨n, hn⟩ := Nat.exists_eq_add_of_le' hlen
  have hheld : heldBytes s.enc = bytesFrom s.enc.litBuf 0 (n + 1) := by rw [heldBytes_eq, hn]
  refine ⟨by simp [hheld, bytesFrom_succ], by simp [heldBytes], ?_⟩
  rw [hheld]
  exact execAll_byte_eo_cons (exec_litHdr hp)
    (execAll_litPay n (s := afterBytes (encLitHdr s.enc) _ s) rfl rfl (hn.trans (Nat.zero_add _).symm))

end Sys2Proof.Proofs
end

section
/-! The encodings (R90 to R97): the header byte as 128 * flag + count, the words of port `do` by their lines, and decode
against encode. -/

namespace Sys2Proof.Proofs

open Sys2Proof.Laws

/-! ### The header byte (R92, R95) -/

/-- The masked count of R95 is the low seven bits. -/
theorem headerCount_eq_extractLsb' (h : Byte) : headerCount h = h.extractLsb' 0 7 := by
  rw [headerCount, BitVec.setWidth_and, ← BitVec.setWidth_eq_extractLsb' (by decide)]
  exact BitVec.and_allOnes

theorem headerFlag_eq_decide (h : Byte) : headerFlag h = decide (128 ≤ h.toNat) := by
  rw [headerFlag, ← BitVec.msb_eq_getLsbD_last, BitVec.msb_eq_decide]

theorem headerCount_toNat (h : Byte) : (headerCount h).toNat = h.toNat % 128 := by
  simp [headerCount_eq_extractLsb']

/-- The reading of a header that every fact about its two fields rests on. -/
theorem header_toNat (h : Byte) : h.toNat = (if headerFlag h then 128 else 0) + (headerCount h).toNat := by
  simp only [headerFlag_eq_decide, headerCount_toNat, decide_eq_true_eq]
  split_ifs <;> omega

@[simp] theorem headerFlag_runHeader (c : Count) : headerFlag (runHeader c) = true := by
  simp [headerFlag_eq_decide, runHeader_toNat]

@[simp] theorem headerFlag_litHeader (c : Count) : headerFlag (litHeader c) = false := by
  simp [headerFlag_eq_decide, litHeader_toNat, c.isLt]

@[simp] theorem headerCount_runHeader (c : Count) : headerCount (runHeader c) = c :=
  BitVec.eq_of_toNat_eq (by simpa [runHeader_toNat] using (header_toNat (runHeader c)).symm)

@[simp] theorem headerCount_litHeader (c : Count) : headerCount (litHeader c) = c :=
  BitVec.eq_of_toNat_eq (by simpa [litHeader_toNat] using (header_toNat (litHeader c)).symm)

theorem runHeader_headerCount {h : Byte} (hf : headerFlag h = true) : runHeader (headerCount h) = h :=
  BitVec.eq_of_toNat_eq (by simp [runHeader_toNat, header_toNat h, hf])

theorem litHeader_headerCount {h : Byte} (hf : headerFlag h = false) : litHeader (headerCount h) = h :=
  BitVec.eq_of_toNat_eq (by simp [litHeader_toNat, header_toNat h, hf])

/-! ### Chunks (R96) -/

theorem decodeChunk_run {h : Byte} (hf : headerFlag h = true) (v : Byte) (more : List Byte) :
    decodeChunk (h :: v :: more) = .ok (.run (headerCount h) v, more) := by
  simp [decodeChunk, hf]

theorem decodeChunk_lit {h : Byte} (hf : headerFlag h = false) {payload : List Byte}
    (hl : payload.length = (headerCount h).toNat) (more : List Byte) :
    decodeChunk (h :: (payload ++ more)) = .ok (.lit (headerCount h) payload, more) := by
  simp [decodeChunk, hf, ← hl]

/-- The converse of `decode_chunk_ok`. -/
theorem decode_chunk_of_decodeChunk {bytes : List Byte} {i : Instr} (h : decodeChunk bytes = .ok (i, [])) :
    decode (.chunk bytes) = .ok i := by
  simp [decode, h]

/-- Settles O44: bit 7 picks the chunk kind, and `header_toNat` gives the header back from kind and count. -/
theorem everyHeaderDecodes : Obligations.EveryHeaderDecodes := by
  intro h
  simp only [← headerCount_eq_extractLsb']
  exact ⟨decodeChunk_run, fun hf _ more hl => decodeChunk_lit hf hl more, header_toNat h, runHeader_headerCount,
    litHeader_headerCount⟩

/-! ### The words of port `do` (R91) -/

@[simp] theorem setWidth_doLines (err eos : Bool) (b : Byte) : (doLines err eos b).setWidth 9 = tokenLines eos b :=
  BitVec.setWidth_append_eq_right

@[simp] theorem lineErr_doLines (err eos : Bool) (b : Byte) : lineErr (doLines err eos b) = err :=
  BitVec.getLsbD_append.trans (by simp)

/-- `decodeDo` by the three lines of the word. -/
theorem decodeDo_doLines (err eos : Bool) (b : Byte) :
    decodeDo (doLines err eos b) =
      if eos then (if b = 0 then .ok (.endDo err) else .error .dataOnEndDo)
      else if err then .error .errOnByte else .ok (.byteDo b) := by
  simp [decodeDo]

/-- A TOKEN word is its two lines. -/
theorem tokenLines_lines (w : TokenWord) : tokenLines (lineEos w) (lineData w) = w :=
  BitVec.cons_msb_setWidth w

/-- Settles O45: a word is read line by line, and each TOKEN word is the word of its lines. -/
theorem portWordsDecode : Obligations.PortWordsDecode := by
  refine ⟨fun p b => ?_, fun b err => ?_, fun w => ?_⟩
  · simp [decodeToken, wordToken, Token.on]
  · simp +contextual [decodeDo_doLines]
  · rw [← BitVec.setWidth_eq_extractLsb' (by decide)]
    exact (tokenLines_lines w).symm

/-! ### Decode and encode -/

/-- Settles O43, by the instruction: a chunk's header gives kind and count back, a token is on the lines of its word. -/
theorem decodeEncodeRoundTrip : Obligations.DecodeEncodeRoundTrip := by
  intro i hwf
  cases i with
  | lit count payload =>
    have hl : payload.length = (headerCount (litHeader count)).toNat := by simpa [Instr.WellFormed, Instr.wf] using hwf
    have hd := decodeChunk_lit (headerFlag_litHeader count) hl []
    rw [List.append_nil, headerCount_litHeader] at hd
    exact decode_chunk_of_decodeChunk hd
  | run count value =>
    have hd := decodeChunk_run (headerFlag_runHeader count) value []
    rw [headerCount_runHeader] at hd
    exact decode_chunk_of_decodeChunk hd
  | byte p b => exact congrArg Except.ok (decodeToken_tokenWord p (.byte b))
  | endMsg p => exact congrArg Except.ok (decodeToken_tokenWord p .eom)
  | byteDo b => exact decodeDo_doTokenWord (.byte b)
  | endDo err => exact decodeDo_doTokenWord (.eom err)

/-- Settles O46: the words are concrete, and the decoder is run on each. -/
theorem writtenOutWordsDecode : Obligations.WrittenOutWordsDecode := by
  unfold Obligations.WrittenOutWordsDecode
  decide

end Sys2Proof.Proofs
end

section
/-! ENCODE at level F (R130, R131). Both descriptions parse their input in the same greedy way: a literal segment or a run
at the front becomes one chunk, and the rest is parsed the same way. Taking the input byte by byte, as the encoder does
(R152 to R162), finds the segments and runs, so that there is only one greedy parse. -/

namespace Sys2Proof.Proofs

open Sys2Proof.Machine Sys2Proof.Laws

/-! ### Greedy parsing -/

/-- In a sequence without equal neighbours no byte is followed by itself. -/
theorem head_ne_of_chain {x : Byte} {xs tail : List Byte} (h : (x :: xs ++ tail.take 1).IsChain (· ≠ ·)) :
    (xs ++ tail).head? ≠ some x := by
  cases xs with
  | nil =>
    cases tail with
    | nil => simp
    | cons c l => simpa [eq_comm] using h
  | cons z zs => simpa [eq_comm] using (List.isChain_cons_cons.1 h).1

/-- The literal chunk with a given payload. -/
def litOf (payload : List Byte) : Instr := .lit (BitVec.ofNat 7 payload.length) payload

/-- `xs` is the literal segment at the front of `xs ++ tail`: no two neighbours are equal, and it ends with 127 bytes,
at the end of the input or in front of a run (R123). -/
structure LitSegment (xs tail : List Byte) : Prop where
  pos : 1 ≤ xs.length
  cap : xs.length ≤ Config.cap
  chain : (xs ++ tail.take 1).IsChain (· ≠ ·)
  ends : xs.length = Config.cap ∨ tail = [] ∨ ∃ c l, tail = c :: c :: l

/-- `n` bytes `v` are the run at the front of the input, `rest` being what follows (R121, R122). -/
structure RunSegment (n : Nat) (v : Byte) (rest : List Byte) : Prop where
  pair : 2 ≤ n
  cap : n ≤ Config.cap
  ends : n = Config.cap ∨ rest.head? ≠ some v

/-- `F` writes the segment or run at the front of its input as one chunk and goes on behind it (R124). -/
structure ParsesGreedily (F : List Byte → List Instr) : Prop where
  nil : F [] = []
  lit : ∀ {xs tail}, LitSegment xs tail → F (xs ++ tail) = litOf xs :: F tail
  run : ∀ {count : Count} {v rest}, RunSegment count.toNat v rest →
    F (List.replicate count.toNat v ++ rest) = .run count v :: F rest

/-! ### What is taken and not yet written -/

/-- The bytes taken and not yet written: the literal segment, and a candidate that stands for `cnt` bytes (R23 to
R28). -/
structure Pending where
  held : List Byte
  cur : Byte
  cnt : Count

namespace Pending

/-- The bytes pending, in the order they were taken. -/
def bytes (p : Pending) : List Byte := p.held ++ List.replicate p.cnt.toNat p.cur

/-- What R169 says of the segment and the candidate. -/
structure Valid (p : Pending) : Prop where
  len : p.held.length ≤ 126
  empty : p.cnt ≠ 1 → p.held = []
  chain : (p.held ++ [p.cur]).IsChain (· ≠ ·)

/-- Taking the byte `b` writes the chunks `cs`; one constructor a rule, R152 to R159. -/
inductive Takes (b : Byte) : Pending → List Instr → Pending → Prop
  | first (v : Byte) : Takes b ⟨[], v, 0⟩ [] ⟨[], b, 1⟩
  | pair : Takes b ⟨[], b, 1⟩ [] ⟨[], b, 2⟩
  | pairFlush {held : List Byte} (hne : held ≠ []) : Takes b ⟨held, b, 1⟩ [litOf held] ⟨[], b, 2⟩
  | grow {cnt : Count} (h0 : cnt ≠ 0) (h1 : cnt ≠ 1) (hcap : cnt ≠ 127) :
    Takes b ⟨[], b, cnt⟩ [] ⟨[], b, cnt + 1⟩
  | cap : Takes b ⟨[], b, 127⟩ [.run 127 b] ⟨[], b, 1⟩
  | runClose {cnt : Count} {v : Byte} (h0 : cnt ≠ 0) (h1 : cnt ≠ 1) (hb : b ≠ v) :
    Takes b ⟨[], v, cnt⟩ [.run cnt v] ⟨[], b, 1⟩
  | single {held : List Byte} {v : Byte} (hb : b ≠ v) (hlen : held.length ≤ 125) :
    Takes b ⟨held, v, 1⟩ [] ⟨held ++ [v], b, 1⟩
  | singleCap {held : List Byte} {v : Byte} (hb : b ≠ v) (hlen : held.length = 126) :
    Takes b ⟨held, v, 1⟩ [litOf (held ++ [v])] ⟨[], b, 1⟩

/-- Taking `END` writes the chunks `cs`; one constructor a rule, R160 to R162. -/
inductive Ends : Pending → List Instr → Prop
  | empty (v : Byte) : Ends ⟨[], v, 0⟩ []
  | run {cnt : Count} (v : Byte) (h0 : cnt ≠ 0) (h1 : cnt ≠ 1) : Ends ⟨[], v, cnt⟩ [.run cnt v]
  | lit (held : List Byte) (v : Byte) : Ends ⟨held, v, 1⟩ [litOf (held ++ [v])]

/-- A rule applies to every byte (R170). -/
theorem Valid.exists_takes {p : Pending} (hp : p.Valid) (b : Byte) : ∃ cs q, Takes b p cs q := by
  obtain ⟨held, v, cnt⟩ := p
  by_cases h1 : cnt = 1
  · subst h1
    by_cases hb : b = v
    · subst hb
      by_cases hne : held = []
      · subst hne; exact ⟨_, _, .pair⟩
      · exact ⟨_, _, .pairFlush hne⟩
    · rcases Nat.lt_or_eq_of_le hp.len with hlen | hlen
      · exact ⟨_, _, .single hb (Nat.le_of_lt_succ hlen)⟩
      · exact ⟨_, _, .singleCap hb hlen⟩
  · obtain rfl : held = [] := hp.empty h1
    by_cases h0 : cnt = 0
    · subst h0; exact ⟨_, _, .first v⟩
    by_cases hb : b = v
    · subst hb
      by_cases hcap : cnt = 127
      · subst hcap; exact ⟨_, _, .cap⟩
      · exact ⟨_, _, .grow h0 h1 hcap⟩
    · exact ⟨_, _, .runClose h0 h1 hb⟩

/-- A rule applies to `END` (R170). -/
theorem Valid.exists_ends {p : Pending} (hp : p.Valid) : ∃ cs, Ends p cs := by
  obtain ⟨held, v, cnt⟩ := p
  by_cases h1 : cnt = 1
  · subst h1; exact ⟨_, .lit held v⟩
  · obtain rfl : held = [] := hp.empty h1
    by_cases h0 : cnt = 0
    · subst h0; exact ⟨_, .empty v⟩
    · exact ⟨_, .run v h0 h1⟩

theorem valid_nil (b : Byte) (cnt : Count) : Valid ⟨[], b, cnt⟩ := ⟨by simp, fun _ => rfl, by simp⟩

theorem chain_snoc {held : List Byte} {v b : Byte} (h : (held ++ [v]).IsChain (· ≠ ·)) (hb : b ≠ v) :
    (held ++ [v] ++ [b]).IsChain (· ≠ ·) := by
  refine List.isChain_append.2 ⟨h, .singleton _, ?_⟩
  simpa using Ne.symm hb

theorem Takes.valid {b : Byte} {p q : Pending} {cs : List Instr} (h : Takes b p cs q) (hp : p.Valid) : q.Valid := by
  cases h
  case single held v hb hlen =>
    exact ⟨by simpa using Nat.succ_le_succ hlen, fun h => absurd rfl h, chain_snoc hp.chain hb⟩
  all_goals exact valid_nil _ _

theorem two_le_count {cnt : Count} (h0 : cnt ≠ 0) (h1 : cnt ≠ 1) : 2 ≤ cnt.toNat :=
  lt_of_le_of_ne (count_pos h0) fun h => h1 (count_eq_one h.symm)

theorem count_le_cap (cnt : Count) : cnt.toNat ≤ Config.cap := Nat.le_of_lt_succ cnt.isLt

end Pending

/-! ### There is only one greedy parse -/

namespace ParsesGreedily

open Pending

variable {F G : List Byte → List Instr}

/-- Of the pending bytes and the rest of the input, a greedy parse writes what taking the next byte writes. -/
theorem takes (hF : ParsesGreedily F) {b : Byte} {p q : Pending} {cs : List Instr} (h : Takes b p cs q) (hp : p.Valid)
    (rest : List Byte) : F (p.bytes ++ b :: rest) = cs ++ F (q.bytes ++ rest) := by
  cases h with
  | first v => rfl
  | pair => rfl
  | @pairFlush held hne =>
    have hseg : LitSegment held (b :: b :: rest) :=
      ⟨List.length_pos_iff.2 hne, Nat.le_succ_of_le hp.len, hp.chain, .inr (.inr ⟨b, rest, rfl⟩)⟩
    simpa [bytes] using hF.lit hseg
  | @grow cnt h0 h1 hcap =>
    have hlt : cnt.toNat ≤ 126 :=
      Nat.le_of_lt_succ (lt_of_le_of_ne (count_le_cap cnt) fun h => hcap (BitVec.eq_of_toNat_eq h))
    simp only [bytes, append_litLen hlt, List.replicate_succ', List.append_assoc]
    rfl
  | cap => exact hF.run (count := 127) ⟨by decide, le_rfl, .inl rfl⟩
  | @runClose cnt v h0 h1 hb =>
    exact hF.run ⟨two_le_count h0 h1, count_le_cap cnt, .inr (by simpa using hb)⟩
  | single hb hlen => simp [bytes]
  | @singleCap held v hb hlen =>
    have hseg : LitSegment (held ++ [v]) (b :: rest) :=
      ⟨by simp, by simp [hlen], chain_snoc hp.chain hb, .inl (by simp [hlen])⟩
    simpa [bytes] using hF.lit hseg

/-- At the end of the input a greedy parse writes what taking `END` writes. -/
theorem ends (hF : ParsesGreedily F) {p : Pending} {cs : List Instr} (h : Ends p cs) (hp : p.Valid) :
    F p.bytes = cs := by
  cases h with
  | empty v => exact hF.nil
  | @run cnt v h0 h1 =>
    have h := hF.run (v := v) (rest := []) ⟨two_le_count h0 h1, count_le_cap cnt, .inr (by simp)⟩
    rwa [hF.nil, List.append_nil] at h
  | lit held v =>
    have hseg : LitSegment (held ++ [v]) [] :=
      ⟨by simp, by simpa using Nat.succ_le_succ hp.len, by simpa using hp.chain, .inr (.inl rfl)⟩
    have h := hF.lit hseg
    rwa [hF.nil, List.append_nil] at h

theorem unique_pending (hF : ParsesGreedily F) (hG : ParsesGreedily G) (rest : List Byte) :
    ∀ {p : Pending}, p.Valid → F (p.bytes ++ rest) = G (p.bytes ++ rest) := by
  induction rest with
  | nil =>
    intro p hp
    obtain ⟨cs, h⟩ := hp.exists_ends
    rw [List.append_nil, hF.ends h hp, hG.ends h hp]
  | cons b rest ih =>
    intro p hp
    obtain ⟨cs, q, h⟩ := hp.exists_takes b
    rw [hF.takes h hp, hG.takes h hp, ih (h.valid hp)]

theorem unique (hF : ParsesGreedily F) (hG : ParsesGreedily G) (data : List Byte) : F data = G data :=
  hF.unique_pending hG data (valid_nil 0 0)

end ParsesGreedily

/-! ### The loop of R130 parses greedily -/

/-- The scan of R121 counts a run to its end or to its limit. -/
theorem countEqual_replicate {v : Byte} {rest : List Byte} (m : Nat) :
    ∀ {n : Nat}, m ≤ n → m = n ∨ rest.head? ≠ some v → countEqual v n (List.replicate m v ++ rest) = m := by
  induction m with
  | zero =>
    intro n _ hends
    cases n with
    | zero => rfl
    | succ n =>
      cases rest with
      | nil => rfl
      | cons b rest => simpa [countEqual] using hends
  | succ m ih =>
    intro n hmn hends
    obtain ⟨n, rfl⟩ := Nat.exists_eq_add_of_le' (Nat.zero_lt_of_lt hmn)
    simpa [countEqual, List.replicate_succ] using ih (Nat.le_of_succ_le_succ hmn) (hends.imp_left Nat.succ.inj)

/-- `runlen` at the front of `n` equal bytes (R121). -/
theorem runLen_replicate {n : Nat} {v : Byte} {rest : List Byte} (hpos : 1 ≤ n) (hcap : n ≤ Config.cap)
    (hends : n = Config.cap ∨ rest.head? ≠ some v) : runLen (List.replicate n v ++ rest) = n := by
  obtain ⟨m, rfl⟩ := Nat.exists_eq_add_of_le' hpos
  have hcount := countEqual_replicate (rest := rest) m (n := Config.cap - 1) (Nat.le_sub_one_of_lt hcap)
    (hends.imp_left fun h => by omega)
  rw [List.replicate_succ, List.cons_append, runLen, hcount, Nat.add_comm]

/-- A segment absorbs the bytes up to its end (R123). -/
theorem absorb_append (ys : List Byte) {tail : List Byte} :
    ∀ {n : Nat}, ys.length ≤ n → (ys ++ tail.take 1).IsChain (· ≠ ·) →
      ys.length = n ∨ tail = [] ∨ (∃ c l, tail = c :: c :: l) → absorb n (ys ++ tail) = ys.length := by
  induction ys with
  | nil =>
    intro n _ _ hends
    rcases hends with rfl | rfl | ⟨c, l, rfl⟩
    · rfl
    · cases n <;> rfl
    · cases n <;> simp [absorb]
  | cons y ys ih =>
    intro n hn hchain hends
    obtain ⟨n, rfl⟩ := Nat.exists_eq_add_of_le' (Nat.zero_lt_of_lt hn)
    have hys := ih (Nat.le_of_succ_le_succ hn) hchain.of_cons (hends.imp_left Nat.succ.inj)
    have hne := head_ne_of_chain hchain
    rw [List.cons_append, List.length_cons, ← hys]
    cases hl : ys ++ tail with
    | nil => cases n <;> rfl
    | cons c l =>
      have hyc : y ≠ c := by simpa [hl, eq_comm] using hne
      simp [absorb, hyc]

namespace LitSegment

variable {xs tail : List Byte}

/-- A literal segment does not begin with a run. -/
theorem runLen_eq (h : LitSegment xs tail) : runLen (xs ++ tail) = 1 := by
  obtain ⟨hpos, -, hchain, -⟩ := h
  cases xs with
  | nil => simp at hpos
  | cons x ys =>
    exact runLen_replicate (n := 1) le_rfl (by decide) (.inr (head_ne_of_chain hchain))

theorem litSpan_eq (h : LitSegment xs tail) : litSpan (xs ++ tail) = xs.length := by
  obtain ⟨hpos, hcap, hchain, hends⟩ := h
  cases xs with
  | nil => simp at hpos
  | cons x ys =>
    have habsorb := absorb_append ys (n := Config.cap - 1) (Nat.le_sub_one_of_lt hcap) hchain.of_cons
      (hends.imp_left Nat.eq_sub_of_add_eq)
    rw [List.cons_append, litSpan, habsorb, List.length_cons, Nat.add_comm]

end LitSegment

/-- A pass of the loop advances. -/
theorem nextAdvance_pos (b : Byte) (bs : List Byte) : 1 ≤ nextAdvance (b :: bs) := by
  unfold nextAdvance
  split_ifs with h
  · exact le_trans (by decide) h
  · exact Nat.le_add_right 1 _

/-- A pass that advances leaves fewer bytes. -/
theorem length_drop_le (b : Byte) (bs : List Byte) {k : Nat} (hk : 1 ≤ k) :
    ((b :: bs).drop k).length ≤ bs.length := by
  rw [List.length_drop, List.length_cons]
  omega

/-- As many passes as there are bytes are enough, and more do nothing (R124). -/
theorem encodeLoop_enough (m : Nat) : ∀ {n : Nat} {data : List Byte}, data.length ≤ m → data.length ≤ n →
    encodeLoop m data = encodeLoop n data := by
  induction m with
  | zero =>
    intro n data hm _
    obtain rfl := List.length_eq_zero_iff.1 (Nat.le_zero.1 hm)
    cases n <;> rfl
  | succ m ih =>
    intro n data hm hn
    cases data with
    | nil => cases n <;> rfl
    | cons b bs =>
      obtain ⟨n, rfl⟩ := Nat.exists_eq_add_of_le' (Nat.zero_lt_of_lt hn)
      have hdrop := length_drop_le b bs (nextAdvance_pos b bs)
      rw [encodeLoop, encodeLoop,
        ih (hdrop.trans (Nat.le_of_succ_le_succ hm)) (hdrop.trans (Nat.le_of_succ_le_succ hn))]

/-- One pass of the loop over an input whose first chunk takes the bytes `xs`. -/
theorem encodeChunks_append {xs tail : List Byte} (hpos : 1 ≤ xs.length) (h : nextAdvance (xs ++ tail) = xs.length) :
    encodeChunks (xs ++ tail) = nextChunk (xs ++ tail) :: encodeChunks tail := by
  cases xs with
  | nil => simp at hpos
  | cons x xs =>
    have hloop : encodeLoop (xs ++ tail).length tail = encodeChunks tail :=
      encodeLoop_enough _ (by simp) le_rfl
    rw [encodeChunks, List.cons_append, List.length_cons, encodeLoop, ← List.cons_append, h, List.drop_left, hloop]

theorem encodeChunks_parsesGreedily : ParsesGreedily encodeChunks where
  nil := rfl
  lit {xs tail} h := by
    have hrun : ¬ Config.runMin ≤ runLen (xs ++ tail) := by rw [h.runLen_eq]; decide
    rw [encodeChunks_append h.pos (by rw [nextAdvance, if_neg hrun, h.litSpan_eq]), nextChunk, if_neg hrun,
      h.litSpan_eq, List.take_left, litOf]
  run {count v rest} h := by
    have hpos : 1 ≤ count.toNat := Nat.le_of_succ_le h.pair
    have hlen := runLen_replicate hpos h.cap h.ends
    have hrun : Config.runMin ≤ runLen (List.replicate count.toNat v ++ rest) := h.pair.trans hlen.ge
    have hhead : (List.replicate count.toNat v ++ rest).headD 0 = v := by
      rw [← Nat.succ_pred_eq_of_pos hpos]; rfl
    rw [encodeChunks_append (by simpa using hpos) (by rw [nextAdvance, if_pos hrun, hlen, List.length_replicate]),
      nextChunk, if_pos hrun, hlen, hhead, BitVec.ofNat_toNat, BitVec.setWidth_eq]

/-! ### The description by run structure parses greedily -/

/-- The items of the input (R131). -/
def itemsOf (data : List Byte) : List Item := (blocks data).flatMap fun vn => blockItems vn.1 vn.2

theorem itemsOf_of_blocks {data : List Byte} {v : Byte} {n : Nat} {more : List (Byte × Nat)}
    (h : blocks data = (v, n) :: more) :
    itemsOf data = blockItems v n ++ more.flatMap fun vn => blockItems vn.1 vn.2 := by
  rw [itemsOf, h, List.flatMap_cons]

/-- The first block is one of the first byte. -/
theorem blocks_cons (v : Byte) (rest : List Byte) : ∃ n more, blocks (v :: rest) = (v, n + 1) :: more := by
  cases h : blocks rest with
  | nil => exact ⟨0, [], by simp [blocks, h]⟩
  | cons un more =>
    obtain ⟨u, n⟩ := un
    by_cases hv : v = u
    · exact ⟨n, more, by simp [blocks, h, hv]⟩
    · exact ⟨0, (u, n) :: more, by simp [blocks, h, hv]⟩

/-- In front of another byte, or of nothing, a block begins. -/
theorem blocks_cons_of_head_ne {v : Byte} {rest : List Byte} (h : rest.head? ≠ some v) :
    blocks (v :: rest) = (v, 1) :: blocks rest := by
  cases rest with
  | nil => rfl
  | cons u rest =>
    obtain ⟨n, more, hu⟩ := blocks_cons u rest
    have hv : v ≠ u := by simpa [eq_comm] using h
    rw [blocks, hu]
    simp [hv]

/-- More of its byte in front makes the first block longer. -/
theorem blocks_replicate_append {v : Byte} {n : Nat} {rest : List Byte} {more : List (Byte × Nat)}
    (h : blocks rest = (v, n) :: more) (m : Nat) : blocks (List.replicate m v ++ rest) = (v, n + m) :: more := by
  induction m with
  | zero => exact h
  | succ m ih => simp [List.replicate_succ, blocks, ih, Nat.add_assoc]

/-- 127 more bytes in a block are one more item. -/
theorem blockItems_add_cap (v : Byte) (n : Nat) :
    blockItems v (n + Config.cap) = .run Config.cap v :: blockItems v n := by
  simp only [blockItems, Nat.add_mod_right, Nat.add_div_right n (show 0 < Config.cap by decide), List.replicate_succ,
    List.cons_append]

/-- A block of at most 127 bytes is one item. -/
theorem blockItems_run {n : Nat} (v : Byte) (hpair : 2 ≤ n) (hcap : n ≤ Config.cap) :
    blockItems v n = [.run n v] := by
  rcases Nat.lt_or_eq_of_le hcap with hlt | rfl
  · simp [blockItems, Nat.mod_eq_of_lt hlt, Nat.div_eq_of_lt hlt, hpair]
  · rfl

theorem itemsOf_cons_of_head_ne {v : Byte} {rest : List Byte} (h : rest.head? ≠ some v) :
    itemsOf (v :: rest) = .single v :: itemsOf rest :=
  itemsOf_of_blocks (blocks_cons_of_head_ne h)

theorem itemsOf_run {n : Nat} {v : Byte} {rest : List Byte} (h : RunSegment n v rest) :
    itemsOf (List.replicate n v ++ rest) = .run n v :: itemsOf rest := by
  by_cases hv : rest.head? = some v
  · obtain rfl : n = Config.cap := h.ends.resolve_right (absurd hv)
    obtain ⟨rest, rfl⟩ : ∃ l, rest = v :: l := List.head?_eq_some_iff.1 hv
    obtain ⟨m, more, hm⟩ := blocks_cons v rest
    rw [itemsOf_of_blocks (blocks_replicate_append hm _), itemsOf_of_blocks hm, blockItems_add_cap, List.cons_append]
  · obtain ⟨m, rfl⟩ := Nat.exists_eq_add_of_le' (Nat.le_of_succ_le h.pair)
    rw [List.replicate_succ', List.append_assoc, List.singleton_append,
      itemsOf_of_blocks (blocks_replicate_append (blocks_cons_of_head_ne hv) m), Nat.add_comm 1 m,
      blockItems_run v h.pair h.cap]
    rfl

/-- Two equal bytes begin with a run. -/
theorem itemsOf_pair (c : Byte) (l : List Byte) : ∃ n items, itemsOf (c :: c :: l) = .run n c :: items := by
  obtain ⟨n, more, hn⟩ := blocks_cons c l
  rw [itemsOf_of_blocks (data := c :: c :: l) (blocks_replicate_append hn 1)]
  rcases Nat.lt_or_ge (n + 1 + 1) Config.cap with hlt | hge
  · rw [blockItems_run c (Nat.le_add_left 2 n) hlt.le]
    exact ⟨_, _, rfl⟩
  · rw [← Nat.sub_add_cancel hge, blockItems_add_cap]
    exact ⟨_, _, rfl⟩

/-- Bytes without equal neighbours are singles. -/
theorem itemsOf_singles (xs : List Byte) {tail : List Byte} (h : (xs ++ tail.take 1).IsChain (· ≠ ·)) :
    itemsOf (xs ++ tail) = xs.map Item.single ++ itemsOf tail := by
  induction xs with
  | nil => rfl
  | cons x xs ih =>
    rw [List.cons_append, itemsOf_cons_of_head_ne (head_ne_of_chain h), ih h.of_cons]
    rfl

/-- As many pieces as there are bytes are enough. -/
theorem pieces_enough (m : Nat) : ∀ {n : Nat} {xs : List Byte}, xs.length ≤ m → xs.length ≤ n →
    pieces m xs = pieces n xs := by
  induction m with
  | zero =>
    intro n xs hm _
    obtain rfl := List.length_eq_zero_iff.1 (Nat.le_zero.1 hm)
    cases n <;> rfl
  | succ m ih =>
    intro n xs hm hn
    cases xs with
    | nil => cases n <;> rfl
    | cons b bs =>
      obtain ⟨n, rfl⟩ := Nat.exists_eq_add_of_le' (Nat.zero_lt_of_lt hn)
      have hdrop := length_drop_le b bs (show 1 ≤ Config.cap by decide)
      rw [pieces, pieces, ih (hdrop.trans (Nat.le_of_succ_le_succ hm)) (hdrop.trans (Nat.le_of_succ_le_succ hn))]

/-- 127 singles, or the last ones, are one LIT chunk. -/
theorem litChunks_append {xs ys : List Byte} (hpos : 1 ≤ xs.length) (hcap : xs.length ≤ Config.cap)
    (hends : xs.length = Config.cap ∨ ys = []) : litChunks (xs ++ ys) = litOf xs :: litChunks ys := by
  have hcut : (xs ++ ys).take Config.cap = xs ∧ (xs ++ ys).drop Config.cap = ys := by
    rcases hends with h | rfl
    · exact ⟨List.take_left' h, List.drop_left' h⟩
    · simp [hcap]
  cases xs with
  | nil => simp at hpos
  | cons x xs =>
    have hpieces : pieces (xs ++ ys).length ys = pieces ys.length ys := pieces_enough _ (by simp) le_rfl
    rw [List.cons_append] at hcut
    rw [litChunks, List.cons_append, List.length_cons, pieces, hcut.1, hcut.2, hpieces]
    rfl

theorem itemChunks_singles (xs : List Byte) (held : List Byte) (items : List Item) :
    itemChunks held (xs.map Item.single ++ items) = itemChunks (held ++ xs) items := by
  induction xs generalizing held with
  | nil => simp
  | cons x xs ih => simpa [itemChunks] using ih (held ++ [x])

/-- The first 127 singles of a sequence are a chunk, whatever follows. -/
theorem itemChunks_cap {xs : List Byte} (h : xs.length = Config.cap) (items : List Item) :
    ∀ held, itemChunks (xs ++ held) items = litOf xs :: itemChunks held items := by
  have hlit : ∀ held, litChunks (xs ++ held) = litOf xs :: litChunks held :=
    fun _ => litChunks_append (h ▸ by decide) h.le (.inl h)
  induction items with
  | nil => exact hlit
  | cons item items ih =>
    intro held
    cases item with
    | single v => simpa only [itemChunks, List.append_assoc] using ih (held ++ [v])
    | run n v => rw [itemChunks, hlit]; rfl

theorem encodeByRuns_parsesGreedily : ParsesGreedily encodeByRuns where
  nil := rfl
  lit {xs tail} h := by
    have hshort : litChunks xs = [litOf xs] :=
      (congrArg litChunks xs.append_nil).symm.trans (litChunks_append h.pos h.cap (.inr rfl))
    change itemChunks [] (itemsOf (xs ++ tail)) = litOf xs :: itemChunks [] (itemsOf tail)
    rw [itemsOf_singles xs h.chain, itemChunks_singles]
    rcases h.ends with hcap | rfl | ⟨c, l, rfl⟩
    · simpa using itemChunks_cap hcap (itemsOf tail) []
    · exact hshort
    · obtain ⟨n, items, hitems⟩ := itemsOf_pair c l
      rw [hitems, List.nil_append, itemChunks, hshort]
      rfl
  run {count v rest} h := by
    change itemChunks [] (itemsOf (List.replicate count.toNat v ++ rest)) = _
    rw [itemsOf_run h, itemChunks, BitVec.ofNat_toNat, BitVec.setWidth_eq]
    rfl

/-- Settles O51: both descriptions are the greedy parse. -/
theorem encodeByRunStructure : Obligations.EncodeByRunStructure :=
  encodeChunks_parsesGreedily.unique encodeByRuns_parsesGreedily

end Sys2Proof.Proofs
end

section
/-! ENCODE at level S (R132). While the encoder collects, its registers hold the bytes pending of a greedy parse, and every
token it takes has it put out the chunks that the parse then writes. With a host that never stalls this is a run of
steps, and a run of edges is fixed by the tokens it takes (R66). -/

namespace Sys2Proof.Proofs

open Sys2Proof.Machine Sys2Proof.Laws

/-! ### Runs of a unit, one after the other -/

namespace PortUnit

variable {α β : Type} {U : PortUnit α β} {x y z : Side α β} {ts us : List Token}

theorem Run.trans (h : U.Run ts x y) (h' : U.Run us y z) : U.Run (ts ++ us) x z := by
  induction h with
  | nil x => exact h'
  | take h _ ih => exact .take h (ih h')
  | put h _ ih => exact .put h (ih h')

theorem Puts.run {u : β} (h : U.Puts u x y) : U.Run [] x y := .put h (.nil y)

end PortUnit

/-! ### The encoder puts out a chunk (R163 to R167) -/

/-- Without a token taken, `e` puts out `out` and is then `f`. -/
def PutsOut (e : Encoder) (out : List Token) (f : Encoder) : Prop :=
  ∀ k o, encUnit.Run [] ⟨e, k, o⟩ ⟨f, k, o ++ out⟩

/-- `e` takes the token `t`, puts out `out` and is then `f`. -/
def Answers (t : Token) (e : Encoder) (out : List Token) (f : Encoder) : Prop :=
  ∀ k o, encUnit.Run [t] ⟨e, k, o⟩ ⟨f, positionAfter t k, o ++ out⟩

section
variable {e f g : Encoder} {t : Token} {r : EncRule} {out out' : List Token}

theorem PutsOut.trans (h : PutsOut e out f) (h' : PutsOut f out' g) : PutsOut e (out ++ out') g := fun k o => by
  simpa using (h k o).trans (h' k (o ++ out))

/-- One token goes out. -/
theorem putsOut_of_step (ho : e.offer = some t) (he : encStep (encRuleOut e) t e = .next f) : PutsOut e [t] f :=
  fun _ _ => PortUnit.Puts.run ⟨encoder_inReady_of_offer ho, ho, he, rfl, rfl⟩

/-- A token is taken. -/
theorem answers_of_step (hp : e.ephase = .collect) (hr : encRuleIn t e = some r) (he : encApply r t e = .next f) :
    Answers t e [] f :=
  fun k o => .take (y := ⟨f, positionAfter t k, o ++ []⟩)
    ⟨(encoder_inReady_iff e).2 hp, (congrArg (encStep · t e) hr).trans he, rfl, o.append_nil⟩ (.nil _)

/-- A token is taken, and what it starts is put out. -/
theorem Answers.putsOut (h : Answers t e out f) (h' : PutsOut f out' g) : Answers t e (out ++ out') g :=
  fun k o => by simpa using (h k o).trans (h' _ _)

/-- Bytes accepted one after the other on `eo` are put out. -/
theorem run_of_execAll_eo (bs : List Byte) : ∀ {s s' : State}, execAll (bs.map (Instr.byte .eo)) s = .next s' →
    encUnit.Run [] (encSide s) (encSide s') := by
  induction bs with
  | nil => intro s s' h; cases h; exact .nil _
  | cons b bs ih =>
    intro s s' h
    rw [List.map_cons, execAll_cons] at h
    obtain ⟨a, ha, h⟩ := andThen_eq_next.1 h
    cases hr : s.enc.inReady with
    | false => exact .put (puts_of_acceptEo hr ha) (ih h)
    | true =>
      obtain rfl : s = a :=
        Host.Outcome.next.inj ((acceptEo_waits (.byte b) ((encoder_inReady_iff _).1 hr)).symm.trans ha)
      exact ih h

/-- The run chunk that `em_cnt`, `em_val` hold goes out (R163, R164). -/
theorem putsOut_run (hp : e.ephase = .runHdr) :
    PutsOut e ((chunkBytes (.run e.emCnt e.emVal)).map .byte) (encRunVal e) := by
  have hhdr : PutsOut e [.byte (runHeader e.emCnt)] (encRunHdr e) :=
    putsOut_of_step (by simp [Encoder.offer, Encoder.outByte, hp]) (by simp [encRuleOut, hp, encStep, encApply])
  have hval : PutsOut (encRunHdr e) [.byte e.emVal] (encRunVal e) := putsOut_of_step rfl rfl
  exact hhdr.trans hval

/-- The literal segment goes out as a chunk (R165 to R167). -/
theorem putsOut_lit (hp : e.ephase = .litHdr) (hlen : 1 ≤ e.litLen.toNat) :
    PutsOut e ((chunkBytes (litOf (heldBytes e))).map .byte) (encLitLast e) := by
  obtain ⟨n, hn⟩ := Nat.exists_eq_add_of_le' hlen
  have hheld : heldBytes e = bytesFrom e.litBuf 0 (n + 1) := by rw [heldBytes_eq, hn]
  have hchunk : chunkBytes (litOf (heldBytes e)) = litHeader e.litLen :: heldBytes e := by
    simp [chunkBytes, litOf, encode, heldBytes]
  intro k o
  have hexec := execAll_byte_eo_cons (s := { State.reset with enc := e, encK := k, env := ⟨[], o, [], 0⟩ })
    (exec_litHdr hp) (execAll_litPay n (s := afterBytes (encLitHdr e) _ _) rfl rfl (hn.trans (Nat.zero_add _).symm))
  rw [hchunk, hheld]
  exact run_of_execAll_eo _ hexec

end

/-! ### The registers as the bytes pending -/

/-- The encoder collects, and its registers hold the bytes pending `p` (R171). -/
structure Collects (e : Encoder) (p : Pending) : Prop where
  ephase : e.ephase = .collect
  eosPend : e.eosPend = false
  held : heldBytes e = p.held
  cur : e.cur = p.cur
  cnt : e.cnt = p.cnt

theorem length_heldBytes (e : Encoder) : (heldBytes e).length = e.litLen.toNat := by simp [heldBytes]

theorem heldBytes_of_litLen_zero {e : Encoder} (h : e.litLen = 0) : heldBytes e = [] := by simp [heldBytes, h]

/-- An idle encoder has nothing pending. -/
theorem collects_of_idle {e : Encoder} (hi : EncInv e) (h : EncIdle e) : Collects e ⟨[], e.cur, 0⟩ where
  ephase := h.1
  eosPend := (hi.collectFlags h.1).1
  held := heldBytes_of_litLen_zero (hi.collectEmpty h.1 (by rw [h.2]; decide))
  cur := rfl
  cnt := h.2

/-- The append of a single (R158, R159, R162). -/
def appended (e : Encoder) : Encoder :=
  { e with litBuf := Memory.write e.litBuf e.litLen.toNat e.cur, litLen := e.litLen + 1 }

section
variable {e f : Encoder} {p q : Pending} {cs : List Instr} {t : Token} {r : EncRule}

theorem appendSingle_eq_appended (h : e.litLen.toNat ≤ 126) : appendSingle e = .next (appended e) :=
  appendSingle_next h

theorem heldBytes_appended (h : e.litLen.toNat ≤ 126) : heldBytes (appended e) = heldBytes e ++ [e.cur] := by
  have hkeep : ∀ k ∈ List.range e.litLen.toNat,
      Memory.read (Memory.write e.litBuf e.litLen.toNat e.cur) k = Memory.read e.litBuf k :=
    fun k hk => read_write_other _ _ (Nat.ne_of_lt (List.mem_range.1 hk))
  simp only [heldBytes, appended, append_litLen h, List.range_succ, List.map_append, List.map_congr_left hkeep,
    List.map_singleton, read_write_same]

/-! ### Tokens taken (R152 to R162) -/

/-- The tokens that carry the chunks `cs`. -/
def streamTokens (cs : List Instr) : List Token := (streamBytes cs).map .byte

theorem streamTokens_singleton (c : Instr) : streamTokens [c] = (chunkBytes c).map .byte := by
  simp [streamTokens, streamBytes]

theorem streamTokens_append (cs ds : List Instr) : streamTokens (cs ++ ds) = streamTokens cs ++ streamTokens ds := by
  simp [streamTokens, streamBytes]

/-- A token that starts a literal chunk is answered with it. -/
theorem answers_lit (hp : e.ephase = .collect) (hr : encRuleIn t e = some r) (he : encApply r t e = .next f)
    (hf : f.ephase = .litHdr) (hne : heldBytes f ≠ []) :
    Answers t e (streamTokens [litOf (heldBytes f)]) (encLitLast f) := by
  rw [streamTokens_singleton]
  exact (answers_of_step hp hr he).putsOut (putsOut_lit hf (length_heldBytes f ▸ List.length_pos_iff.2 hne))

/-- A token that starts a run chunk is answered with it. -/
theorem answers_run (hp : e.ephase = .collect) (hr : encRuleIn t e = some r) (he : encApply r t e = .next f)
    (hf : f.ephase = .runHdr) : Answers t e (streamTokens [.run f.emCnt f.emVal]) (encRunVal f) := by
  rw [streamTokens_singleton]
  exact (answers_of_step hp hr he).putsOut (putsOut_run hf)

theorem afterEmission_collect (h : e.eosPend = false) : afterEmission e = .collect := by simp [afterEmission, h]

theorem collects_encLitLast (h : f.eosPend = false) : Collects (encLitLast f) ⟨[], f.cur, f.cnt⟩ :=
  ⟨afterEmission_collect h, h, rfl, rfl, rfl⟩

/-- A taken byte is answered with the chunks that the greedy parse then writes (R152 to R159). -/
theorem Collects.takes {b : Byte} (hc : Collects e p) (h : p.Takes b cs q) :
    ∃ f, Answers (.byte b) e (streamTokens cs) f ∧ Collects f q := by
  obtain ⟨hp, hs, hheld, hcur, hcnt⟩ := hc
  have hlen := length_heldBytes e
  have h10 : ¬ (1 : Count) = 0 := by decide
  cases h with
  | first v =>
    have hr : encRuleIn (.byte b) e = some .first := by simp only [encRuleIn, hcnt, if_true]
    exact ⟨_, answers_of_step hp hr rfl, hp, hs, hheld, rfl, rfl⟩
  | pair =>
    subst hcur
    have hlen0 : e.litLen = 0 := BitVec.eq_of_toNat_eq (hlen.symm.trans (congrArg List.length hheld))
    have hr : encRuleIn (.byte e.cur) e = some .pair := by
      simp only [encRuleIn, hcnt, if_neg h10, hlen0, if_true]
    exact ⟨_, answers_of_step hp hr rfl, hp, hs, hheld, rfl, rfl⟩
  | pairFlush hne =>
    subst hcur hheld
    have hlen0 : e.litLen ≠ 0 := fun h => hne (heldBytes_of_litLen_zero h)
    have hr : encRuleIn (.byte e.cur) e = some .pairFlush := by
      simp only [encRuleIn, hcnt, if_neg h10, if_neg hlen0, if_true]
    exact ⟨_, answers_lit (f := encPairFlush e) hp hr rfl rfl hne, collects_encLitLast hs⟩
  | grow h0 h1 hcap =>
    subst hcur hcnt
    have hr : encRuleIn (.byte e.cur) e = some .grow := by
      simp only [encRuleIn, if_neg h0, if_neg h1, if_neg hcap, if_true]
    exact ⟨_, answers_of_step hp hr rfl, hp, hs, hheld, rfl, rfl⟩
  | cap =>
    subst hcur
    have hr : encRuleIn (.byte e.cur) e = some .cap := by simp [encRuleIn, hcnt]
    exact ⟨_, answers_run (f := encCap e) hp hr rfl rfl, afterEmission_collect hs, hs, hheld, rfl, rfl⟩
  | runClose h0 h1 hb =>
    subst hcur hcnt
    have hr : encRuleIn (.byte b) e = some .runClose := by
      simp only [encRuleIn, if_neg h0, if_neg h1, if_neg hb]
    exact ⟨_, answers_run (f := encRunClose b e) hp hr rfl rfl, afterEmission_collect hs, hs, hheld, rfl, rfl⟩
  | single hb hle =>
    subst hcur hheld
    rw [hlen] at hle
    have hr : encRuleIn (.byte b) e = some .single := by
      simp only [encRuleIn, hcnt, if_neg h10, if_neg hb, if_pos hle, if_true]
    have he : encApply .single (.byte b) e = .next { appended e with cur := b, cnt := 1 } := by
      simp only [encApply, encSingle, appendSingle_eq_appended (Nat.le_succ_of_le hle), andThen_next, tokenByte]
    exact ⟨_, answers_of_step hp hr he, hp, hs, heldBytes_appended (Nat.le_succ_of_le hle), rfl, rfl⟩
  | singleCap hb hle =>
    subst hcur hheld
    rw [hlen] at hle
    have hlen' : e.litLen = 126 := BitVec.eq_of_toNat_eq hle
    have hr : encRuleIn (.byte b) e = some .singleCap := by simp [encRuleIn, hcnt, hb, hlen']
    have he : encApply .singleCap (.byte b) e = .next { appended e with cur := b, cnt := 1, ephase := .litHdr } := by
      simp only [encApply, encSingleCap, appendSingle_eq_appended hle.le, andThen_next, tokenByte]
    have hheld := heldBytes_appended hle.le
    have hout := answers_lit hp hr he rfl (hheld.trans_ne (by simp))
    exact ⟨_, hheld ▸ hout, collects_encLitLast (f := { appended e with cur := b, cnt := 1, ephase := .litHdr }) hs⟩

/-- `END` goes out, and the encoder is idle (R168). -/
theorem putsOut_end (hp : f.ephase = .endOut) : PutsOut f [.eom] (encEndOut f) :=
  putsOut_of_step (by simp [Encoder.offer, hp]) (by simp [encRuleOut, hp, encStep, encApply])

/-- `END` is answered with the chunks that the greedy parse then writes and with `END` (R160 to R162). -/
theorem Collects.ends (hc : Collects e p) (hp : p.Valid) (h : p.Ends cs) :
    ∃ f, Answers .eom e (streamTokens cs ++ [.eom]) f ∧ EncIdle f := by
  have hlen := length_heldBytes e
  obtain ⟨hph, hs, hheld, hcur, hcnt⟩ := hc
  have h10 : ¬ (1 : Count) = 0 := by decide
  cases h with
  | empty v =>
    have hr : encRuleIn .eom e = some .endEmpty := by simp only [encRuleIn, hcnt, if_true]
    exact ⟨_, (answers_of_step hph hr rfl).putsOut (putsOut_end rfl), rfl, hcnt⟩
  | run v h0 h1 =>
    subst hcur hcnt
    have hr : encRuleIn .eom e = some .endRun := by simp only [encRuleIn, if_neg h0, if_neg h1]
    have hout := answers_run (f := encEndRun e) hph hr rfl rfl
    exact ⟨_, hout.putsOut (putsOut_end (f := encRunVal (encEndRun e)) rfl), rfl, rfl⟩
  | lit held v =>
    subst hcur hheld
    have hle : e.litLen.toNat ≤ 126 := hlen ▸ hp.len
    have hr : encRuleIn .eom e = some .endLit := by simp only [encRuleIn, hcnt, if_neg h10, if_true]
    have he : encApply .endLit .eom e = .next { setEosPend (appended e) with cnt := 0, ephase := .litHdr } := by
      simp only [encApply, encEndLit, appendSingle_eq_appended hle, andThen_next]
    have hheld := heldBytes_appended hle
    have hout := answers_lit hph hr he rfl (hheld.trans_ne (by simp))
    exact ⟨_, (hheld ▸ hout).putsOut (putsOut_end (f := encLitLast _) rfl), rfl, rfl⟩

/-! ### A whole message -/

/-- Bytes taken where the encoder collects are answered with the chunks that a greedy parse of the bytes pending and those
taken writes, but for those that it writes of the bytes then pending. -/
theorem Collects.run_bytes (bs : List Byte) : ∀ {e : Encoder} {p : Pending}, Collects e p → p.Valid →
    ∃ f q cs, Collects f q ∧ q.Valid ∧
      (∀ {F}, ParsesGreedily F → F (p.bytes ++ bs) = cs ++ F q.bytes) ∧
      ∀ k o, encUnit.Run (bs.map .byte) ⟨e, k, o⟩ ⟨f, k + bs.length, o ++ streamTokens cs⟩ := by
  induction bs with
  | nil =>
    intro e p hc hp
    refine ⟨e, p, [], hc, hp, fun _ => by rw [List.append_nil]; rfl, fun k o => ?_⟩
    rw [show streamTokens [] = [] from rfl, List.append_nil]
    exact .nil _
  | cons b bs ih =>
    intro e p hc hp
    obtain ⟨cs, q, h⟩ := hp.exists_takes b
    obtain ⟨f, hanswers, hf⟩ := hc.takes h
    obtain ⟨g, q', cs', hg, hq', hparse, hrun⟩ := ih hf (h.valid hp)
    refine ⟨g, q', cs ++ cs', hg, hq', fun hF => ?_, fun k o => ?_⟩
    · rw [hF.takes h hp, hparse hF, List.append_assoc]
    · have hrun := (hanswers k o).trans (hrun _ _)
      rw [List.append_assoc, ← streamTokens_append, positionAfter, Nat.add_assoc, Nat.add_comm 1] at hrun
      exact hrun

end

/-- An idle encoder takes the whole message and puts out its encoding (R132). -/
theorem run_message_of_idle (data : List Byte) {s : State} (hi : EncInv s.enc) (h : EncIdle s.enc) :
    ∃ y : Side Encoder Token, encUnit.Run (messageTokens data) (encSide s) y ∧ y.reg.ephase = .collect ∧
      ∀ t : State, encSide t = y → EncodesMessage data s t := by
  obtain ⟨f, q, cs, hf, hq, hparse, hbytes⟩ := (collects_of_idle hi h).run_bytes data (Pending.valid_nil s.enc.cur 0)
  obtain ⟨ds, hds⟩ := hq.exists_ends
  obtain ⟨g, hend, hidle⟩ := hf.ends hq hds
  have hchunks : encodeChunks data = cs ++ ds :=
    (hparse encodeChunks_parsesGreedily).trans (congrArg (cs ++ ·) (encodeChunks_parsesGreedily.ends hds hq))
  have hout : streamTokens cs ++ (streamTokens ds ++ [.eom]) = (encodeBytes data).map .byte ++ [.eom] := by
    rw [← List.append_assoc, ← streamTokens_append, ← hchunks]
    rfl
  have hrun := (hbytes s.encK s.env.eoOut).trans (hend _ _)
  rw [List.append_assoc, hout, ← List.append_assoc] at hrun
  refine ⟨_, hrun, hidle.1, fun t ht => ?_⟩
  obtain ⟨henc, hk, hout⟩ := Side.ext_iff.1 ht
  exact ⟨hout, (show t.enc = g from henc) ▸ hidle, hk⟩

/-! ### A host that feeds the encoder -/

theorem core_run_succ {s a : State} (h : step s = .next a) (n : Nat) :
    Sys2Proof.core.run (n + 1) s = Sys2Proof.core.run n a := by
  have hstep : Sys2Proof.core.step s = .next a := h
  simp only [Host.Core.run, hstep]

section
variable {s : State} {words : List TokenWord} {rest : List HostEvent}

/-- With no word left and nothing offered, the host goes on to what is next on its agenda. -/
theorem step_feedEnc_nil (ha : s.env.agenda = .feedEnc [] :: rest) (hr : s.enc.inReady = true) :
    step s = .next (advance rest s) :=
  step_of_fetch (is := []) (by simp [fetch, ha, feedEncFetch, hr])

/-- A feeding host has the next token taken. -/
theorem step_feedEnc_takes {t : Token} {y : Side Encoder Token} (h : encUnit.Takes t (encSide s) y)
    (ha : s.env.agenda = .feedEnc (tokenWord t :: words) :: rest) :
    ∃ a, step s = .next a ∧ a.env.agenda = .feedEnc words :: rest ∧ encSide a = y ∧ decSide a = decSide s := by
  have hp : s.enc.ephase = .collect := (encoder_inReady_iff _).1 h.ready
  obtain ⟨-, -, hfeed⟩ := stepRunsDecodedInstruction s quietPins rest
  have hstep := hfeed _ _ ha h.ready
  rw [decodeToken_tokenWord, exec_on_ei, takeEi_steps (s := advance (.feedEnc words :: rest) s) hp h.step] at hstep
  exact ⟨_, hstep, rfl, Side.ext rfl h.pos.symm h.out.symm, rfl⟩

/-- A feeding host accepts what is offered. -/
theorem step_feedEnc_puts {t : Token} {y : Side Encoder Token} (h : encUnit.Puts t (encSide s) y)
    (ha : s.env.agenda = .feedEnc words :: rest) :
    ∃ a, step s = .next a ∧ a.env.agenda = .feedEnc words :: rest ∧ encSide a = y ∧ decSide a = decSide s := by
  have hr : s.enc.inReady = false := h.ready
  have hp : s.enc.ephase ≠ .collect := fun hp => by simp [(encoder_inReady_iff _).2 hp] at hr
  have hf : fetch s = ⟨false, [eoInstr s], advance (.feedEnc words :: rest) s⟩ := by
    simp [fetch, ha, feedEncFetch, hr]
  have hstep := step_of_fetch hf
  rw [execAll_singleton, eoInstr_offer h.offer, exec_on_eo,
    acceptEo_steps (s := advance (.feedEnc words :: rest) s) hp h.offer h.step] at hstep
  exact ⟨_, hstep, rfl, Side.ext rfl h.pos.symm h.out.symm, rfl⟩

end

/-- A run of the encoder is made by a host that feeds it the tokens and never stalls; nothing else moves. -/
theorem core_run_feedEnc {ts : List Token} {x y : Side Encoder Token} (h : encUnit.Run ts x y)
    (hy : y.reg.ephase = .collect) {rest : List HostEvent} : ∀ {s : State}, encSide s = x →
    s.env.agenda = .feedEnc (ts.map tokenWord) :: rest →
    ∃ n t, Sys2Proof.core.run n s = .next t ∧ t.env.agenda = rest ∧ encSide t = y ∧ decSide t = decSide s := by
  induction h with
  | nil x =>
    rintro s rfl ha
    exact ⟨1, _, core_run_succ (step_feedEnc_nil ha ((encoder_inReady_iff _).2 hy)) 0, rfl, rfl, rfl⟩
  | take h _ ih =>
    rintro s rfl ha
    obtain ⟨a, hstep, hagenda, hside, hdec⟩ := step_feedEnc_takes h ha
    obtain ⟨n, t, hn, hrest, ht, hdec'⟩ := ih hy hside hagenda
    exact ⟨n + 1, t, (core_run_succ hstep n).trans hn, hrest, ht, hdec'.trans hdec⟩
  | put h _ ih =>
    rintro s rfl ha
    obtain ⟨a, hstep, hagenda, hside, hdec⟩ := step_feedEnc_puts h ha
    obtain ⟨n, t, hn, hrest, ht, hdec'⟩ := ih hy hside hagenda
    exact ⟨n + 1, t, (core_run_succ hstep n).trans hn, hrest, ht, hdec'.trans hdec⟩

theorem messageWords_eq (body : List Byte) : messageWords body = (messageTokens body).map tokenWord := by
  simp [messageWords, byteWords, messageTokens]

/-- Settles O57: the run that answers the message with its greedy parse is made by the feeding host, and every run of
edges that takes the message ends where it does. -/
theorem encoderComputesEncode : Obligations.EncoderComputesEncode := by
  intro s data hi hidle
  obtain ⟨y, hrun, hy, hencodes⟩ := run_message_of_idle data hi.enc hidle
  refine ⟨fun rest ha => ?_, fun ps r hps hr htaken hlast => ?_⟩
  · obtain ⟨n, t, hn, hrest, ht, hdec⟩ := core_run_feedEnc hrun hy rfl (messageWords_eq data ▸ ha)
    exact ⟨n, t, hn, hrest, hencodes t ht, decSide_eq.1 hdec⟩
  · have hedges := (runEdges_runs hps hr).1
    rw [htaken] at hedges
    exact hencodes _ (hedges.unique ((encoder_inReady_iff _).2 hlast) hrun ((encoder_inReady_iff _).2 hy))

end Sys2Proof.Proofs
end

section
/-! The invariant (R169, R235): every step rule of the encoder keeps it, phase by phase, and with the decoder's part every
instruction and every step. Where it holds, whatever the host has a step run completes. -/

namespace Sys2Proof.Proofs

open Sys2Proof.Machine Sys2Proof.Laws

/-! ### What the encoder's invariant asks for, phase by phase (R169) -/

/-- No two neighbours among the first `n` entries of the buffer are equal. -/
def NoPair (m : Memory) (n : Nat) : Prop := ∀ k < n, k + 1 < n → Memory.read m k ≠ Memory.read m (k + 1)

section
variable {e f : Encoder}

theorem encInv_of_collect (hp : e.ephase = .collect) (hs : e.eosPend = false) (hrd : e.litRd = 0)
    (hlen : e.litLen.toNat ≤ 126) (hempty : e.cnt ≠ 1 → e.litLen = 0) (hpair : NoPair e.litBuf e.litLen.toNat)
    (hlast : 1 ≤ e.litLen.toNat → Memory.read e.litBuf (e.litLen.toNat - 1) ≠ e.cur) (hwf : Memory.wf e.litBuf) :
    EncInv e :=
  ⟨by simp [hrd], fun _ => ⟨hs, hrd⟩, fun _ => hlen, fun _ => hempty, by simp [hp], by simp [hp], by simp [hp],
    by simp [hp], fun _ => hpair, fun _ _ => hlast, hwf⟩

/-- With an empty literal segment nothing is asked of the candidate. -/
theorem encInv_of_collect_empty (hp : e.ephase = .collect) (hs : e.eosPend = false) (hrd : e.litRd = 0)
    (hlen : e.litLen = 0) (hwf : Memory.wf e.litBuf) : EncInv e :=
  encInv_of_collect hp hs hrd (by simp [hlen]) (fun _ => hlen) (by simp [NoPair, hlen]) (by simp [hlen]) hwf

theorem encInv_of_run (hp : e.ephase = .runHdr ∨ e.ephase = .runVal) (hem : 2 ≤ e.emCnt.toNat) (hlen : e.litLen = 0)
    (hrd : e.litRd = 0) (hcnt : pendingCount e false) (hwf : Memory.wf e.litBuf) : EncInv e := by
  refine ⟨by simp [hrd], ?_, ?_, ?_, fun _ => ⟨hem, hlen, hrd, hcnt⟩, ?_, ?_, ?_, by simp [hlen], by simp [hlen], hwf⟩ <;>
    rcases hp with hp | hp <;> simp [hp]

theorem encInv_of_litHdr (hp : e.ephase = .litHdr) (hlen : 1 ≤ e.litLen.toNat) (hrd : e.litRd = 0)
    (hcnt : pendingCount e true) (hpair : NoPair e.litBuf e.litLen.toNat) (hwf : Memory.wf e.litBuf) : EncInv e :=
  ⟨by simp [hrd], by simp [hp], by simp [hp], by simp [hp], by simp [hp], fun _ => ⟨hlen, hrd, hcnt⟩, by simp [hp],
    by simp [hp], fun _ => hpair, by simp [hp], hwf⟩

theorem encInv_of_litPay (hp : e.ephase = .litPay) (hrd : e.litRd.toNat < e.litLen.toNat)
    (hcnt : pendingCount e true) (hpair : NoPair e.litBuf e.litLen.toNat) (hwf : Memory.wf e.litBuf) : EncInv e :=
  ⟨by have := e.litLen.isLt; omega, by simp [hp], by simp [hp], by simp [hp], by simp [hp], by simp [hp],
    fun _ => ⟨hrd, hcnt⟩, by simp [hp], fun _ => hpair, by simp [hp], hwf⟩

theorem encInv_of_endOut (hp : e.ephase = .endOut) (hs : e.eosPend = true) (hcnt : e.cnt = 0) (hlen : e.litLen = 0)
    (hrd : e.litRd = 0) (hwf : Memory.wf e.litBuf) : EncInv e :=
  ⟨by simp [hrd], by simp [hp], by simp [hp], by simp [hp], by simp [hp], by simp [hp], by simp [hp],
    fun _ => ⟨hs, hcnt, hlen, hrd⟩, by simp [hlen], by simp [hlen], hwf⟩

/-- After the last byte of a chunk the literal segment is empty, and only an encoder that has taken `END` holds no
candidate (R164, R167). -/
theorem encInv_of_afterEmission (hp : e.ephase = afterEmission e) (hlen : e.litLen = 0) (hrd : e.litRd = 0)
    (hcnt : e.eosPend = true → e.cnt = 0) (hwf : Memory.wf e.litBuf) : EncInv e := by
  cases hs : e.eosPend with
  | true => exact encInv_of_endOut (by rw [hp, afterEmission, if_pos hs]) hs (hcnt hs) hlen hrd hwf
  | false => exact encInv_of_collect_empty (hp.trans (afterEmission_collect hs)) hs hrd hlen hwf

/-- With `END` taken no candidate is left, whichever kind of chunk goes out. -/
theorem cnt_of_pendingCount {two : Bool} (h : pendingCount e two) (hs : e.eosPend = true) : e.cnt = 0 := by
  simpa [pendingCount, hs] using h

theorem pendingCount_one {two : Bool} (hs : e.eosPend = false) (h1 : e.cnt = 1) : pendingCount e two := by
  simp [pendingCount, hs, h1]

/-! ### The append of a single keeps the segment in order (R158, R159, R162) -/

theorem read_appended (k : Nat) :
    Memory.read (appended e).litBuf k = if k = e.litLen.toNat then e.cur else Memory.read e.litBuf k :=
  read_write ..

theorem litLen_appended (hlen : e.litLen.toNat ≤ 126) : (appended e).litLen.toNat = e.litLen.toNat + 1 :=
  append_litLen hlen

theorem last_appended (hlen : e.litLen.toNat ≤ 126) :
    Memory.read (appended e).litBuf ((appended e).litLen.toNat - 1) = e.cur := by
  rw [litLen_appended hlen, Nat.add_sub_cancel, read_appended, if_pos rfl]

/-- The candidate differs from the entry it is put behind. -/
theorem noPair_appended (hi : EncInv e) (hp : e.ephase = .collect) (h1 : e.cnt = 1) :
    NoPair (appended e).litBuf (appended e).litLen.toNat := by
  have hlast := hi.lastDiffers hp (by rw [h1]; decide)
  rw [litLen_appended (hi.collectLen hp)]
  intro k _ hk
  rw [read_appended, read_appended, if_neg (by omega)]
  split_ifs with hend
  · simpa [← hend] using hlast (by omega)
  · exact hi.noPair (.inl hp) k (by omega) (by omega)

theorem wf_appended (hi : EncInv e) (hp : e.ephase = .collect) : Memory.wf (appended e).litBuf :=
  wf_write hi.bufWf _ (Nat.lt_succ_of_le (hi.collectLen hp))

/-! ### Every rule of the encoder keeps its invariant -/

/-- A token taken in `E_COLLECT` (R152 to R162). -/
theorem encStep_in_keeps {t : Token} (hi : EncInv e) (hp : e.ephase = .collect)
    (h : encStep (encRuleIn t e) t e = .next f) : EncInv f := by
  obtain ⟨hs, hrd⟩ := hi.collectFlags hp
  have hwf := hi.bufWf
  have hempty : e.cnt ≠ 1 → e.litLen = 0 := hi.collectEmpty hp
  have hmax := hi.collectLen hp
  have hpos : 1 ≤ (appended e).litLen.toNat := by rw [litLen_appended hmax]; exact Nat.le_add_left ..
  cases t with
  | byte b =>
    rcases encStep_byte h with ⟨h0, rfl⟩ | ⟨h1, -, hl, rfl⟩ | ⟨h1, -, hl, rfl⟩ | ⟨-, h1, -, -, rfl⟩ | ⟨hc, -, rfl⟩ |
      ⟨h0, h1, -, rfl⟩ | ⟨h1, hb, hl, rfl⟩ | ⟨h1, -, -, rfl⟩
    · exact encInv_of_collect_empty hp hs hrd (hempty (by rw [h0]; decide)) hwf
    · exact encInv_of_collect_empty hp hs hrd hl hwf
    · exact encInv_of_litHdr rfl (count_pos hl) hrd (by simp [pendingCount, encPairFlush, hs])
        (hi.noPair (.inl hp)) hwf
    · exact encInv_of_collect_empty hp hs hrd (hempty h1) hwf
    · exact encInv_of_run (.inl rfl) (Nat.le_add_left 2 125) (hempty (by rw [hc]; decide)) hrd (pendingCount_one hs rfl) hwf
    · exact encInv_of_run (.inl rfl) (Pending.two_le_count h0 h1) (hempty h1) hrd (pendingCount_one hs rfl) hwf
    · exact encInv_of_collect hp hs hrd ((litLen_appended hmax).trans_le (Nat.succ_le_succ hl))
        (fun h => absurd rfl h) (noPair_appended hi hp h1) (fun _ => (last_appended hmax).trans_ne (Ne.symm hb))
        (wf_appended hi hp)
    · exact encInv_of_litHdr rfl (hpos) hrd (pendingCount_one hs rfl) (noPair_appended hi hp h1) (wf_appended hi hp)
  | eom =>
    rcases encStep_eom h with ⟨h0, rfl⟩ | ⟨h0, h1, rfl⟩ | ⟨h1, -, rfl⟩
    · exact encInv_of_endOut rfl rfl h0 (hempty (by rw [h0]; decide)) hrd hwf
    · exact encInv_of_run (.inl rfl) (Pending.two_le_count h0 h1) (hempty h1) hrd rfl hwf
    · exact encInv_of_litHdr rfl (hpos) hrd rfl (noPair_appended hi hp h1) (wf_appended hi hp)

/-- An output step (R163 to R168). -/
theorem encStep_out_keeps {t : Token} (hi : EncInv e) (h : encStep (encRuleOut e) t e = .next f) : EncInv f := by
  have hwf := hi.bufWf
  rcases encStep_out h with ⟨hp, rfl⟩ | ⟨hp, rfl⟩ | ⟨hp, rfl⟩ | ⟨hp, hlt, rfl⟩ | ⟨hp, -, rfl⟩ | ⟨hp, rfl⟩
  · obtain ⟨hem, hlen, hrd, hcnt⟩ := hi.runOut (.inl hp)
    exact encInv_of_run (.inr rfl) hem hlen hrd hcnt hwf
  · obtain ⟨-, hlen, hrd, hcnt⟩ := hi.runOut (.inr hp)
    exact encInv_of_afterEmission rfl hlen hrd (cnt_of_pendingCount hcnt) hwf
  · obtain ⟨hlen, -, hcnt⟩ := hi.litHdr hp
    exact encInv_of_litPay rfl hlen hcnt (hi.noPair (.inr (.inl hp))) hwf
  · obtain ⟨-, hcnt⟩ := hi.litPay hp
    have hrd : (encLitPay e).litRd.toNat = e.litRd.toNat + 1 :=
      append_litLen (by have := e.litLen.isLt; omega)
    exact encInv_of_litPay hp (hrd.trans_lt hlt) hcnt (hi.noPair (.inr (.inr hp))) hwf
  · obtain ⟨-, hcnt⟩ := hi.litPay hp
    exact encInv_of_afterEmission rfl rfl rfl (cnt_of_pendingCount hcnt) hwf
  · obtain ⟨-, -, hlen, hrd⟩ := hi.endOut hp
    exact encInv_of_collect_empty rfl rfl hrd hlen hwf

end

/-! ### A chunk from a chunk boundary to the next (R193, R194) -/

section
variable {s : State}

/-- A byte that a rule is for is taken by that rule. -/
theorem takeDi_of_rule {b : Byte} {r : DecRule} (hr : s.dec.inReady = true)
    (h : decRuleIn (.byte b) s.dec = some r) :
    takeDi (.byte b) s = .next { s with dec := decApply r b s.dec, decK := s.decK + 1 } :=
  takeDi_steps hr (by rw [h]; rfl)

/-- The header of a run chunk is taken (R222). -/
theorem takeDi_runHeader (hp : s.dec.dphase = .hdr) (count : Count) :
    takeDi (.byte (runHeader count)) s =
      .next { s with dec := { s.dec with dcount := count, dphase := .runVal }, decK := s.decK + 1 } := by
  rw [takeDi_of_rule (r := .hdrRun) (by simp [Decoder.inReady, hp]) (by simp [decRuleIn, hp]), decApply, decHdrRun,
    headerCount_runHeader]

/-- The header of a literal chunk is taken (R223, R224). -/
theorem takeDi_litHeader (hp : s.dec.dphase = .hdr) (count : Count) :
    takeDi (.byte (litHeader count)) s =
      .next { s with
        dec := { s.dec with dcount := count, dphase := if count = 0 then .hdr else .litIn }, decK := s.decK + 1 } := by
  have hr : s.dec.inReady = true := by simp [Decoder.inReady, hp]
  by_cases h0 : count = 0#7
  · rw [takeDi_of_rule (r := .hdrLit0) hr (by simp [decRuleIn, hp, h0])]
    simp [decApply, decHdrLit0, h0, ← hp]
  · rw [takeDi_of_rule (r := .hdrLit) hr (by simp [decRuleIn, hp, h0])]
    simp [decApply, decHdrLit, h0]

/-- The value of a run chunk is taken (R226, R227). -/
theorem takeDi_runVal (hp : s.dec.dphase = .runVal) (v : Byte) :
    takeDi (.byte v) s =
      .next { s with
        dec := { s.dec with dval := v, dphase := if s.dec.dcount = 0 then .hdr else .runOut }, decK := s.decK + 1 } := by
  have hr : s.dec.inReady = true := by simp [Decoder.inReady, hp]
  by_cases h0 : s.dec.dcount = 0#7
  · rw [takeDi_of_rule (r := .runVal0) hr (by simp [decRuleIn, hp, h0])]
    simp [decApply, decRunVal0, h0]
  · rw [takeDi_of_rule (r := .runVal) hr (by simp [decRuleIn, hp, h0])]
    simp [decApply, decRunVal, h0]

theorem exec_run_of_hdr (hp : s.dec.dphase = .hdr) (count : Count) (v : Byte) :
    exec (.run count v) s =
      .next { s with
        dec := { s.dec with dcount := 0, dval := v }
        decK := s.decK + 2
        env := { s.env with doOut := s.env.doOut ++ List.replicate count.toNat (DoToken.byte v) } } := by
  change execRun count v s = _
  rw [execRun, if_pos hp, takeDi_runHeader hp, andThen_next, takeDi_runVal rfl, andThen_next]
  by_cases h0 : count = 0
  · simp [h0, putCopies, ← hp]
  · obtain ⟨n, hn⟩ := Nat.exists_eq_add_of_le' (count_pos h0)
    rw [hn, putCopies_runOut n _ (if_neg h0) hn]
    simp [← hp]

theorem exec_lit_of_hdr (hp : s.dec.dphase = .hdr) {count : Count} {payload : List Byte}
    (hl : payload.length = count.toNat) :
    exec (.lit count payload) s =
      .next { s with
        dec := { s.dec with dcount := 0, dval := payload.getLast?.getD s.dec.dval }
        decK := s.decK + (1 + count.toNat)
        env := { s.env with doOut := s.env.doOut ++ payload.map DoToken.byte } } := by
  change execLit count payload s = _
  rw [execLit, if_pos hl, if_pos hp, takeDi_litHeader hp, andThen_next]
  cases payload with
  | nil =>
    have h0 : count = 0 := BitVec.eq_of_toNat_eq hl.symm
    simp [h0, passPayload, ← hp]
  | cons b bs =>
    rw [passPayload_litIn bs b _ (if_neg (count_ne_zero hl.symm)) hl.symm]
    simp [← hl, ← hp, List.getLast?_eq_some_getLast, Nat.add_assoc, Nat.add_comm 1]

/-- A chunk runs from a chunk boundary only, and ends at one. -/
theorem exec_chunk_hdr {i : Instr} {t : State} (hi : (∃ n p, i = .lit n p) ∨ ∃ n v, i = .run n v)
    (h : exec i s = .next t) : s.dec.dphase = .hdr ∧ t.dec.dphase = .hdr := by
  rcases hi with ⟨n, p, rfl⟩ | ⟨n, v, rfl⟩
  · have hx : execLit n p s = .next t := h
    unfold execLit at hx
    split_ifs at hx with hl hp
    rw [exec_lit_of_hdr hp hl] at h
    cases h
    exact ⟨hp, hp⟩
  · have hx : execRun n v s = .next t := h
    unfold execRun at hx
    split_ifs at hx with hp
    rw [exec_run_of_hdr hp] at h
    cases h
    exact ⟨hp, hp⟩

theorem exec_chunk_completes {i : Instr} (hi : isChunk i = true) (hp : s.dec.dphase = .hdr) :
    ∃ t, exec i s = .next t := by
  cases i with
  | lit n p => exact ⟨_, exec_lit_of_hdr hp (by simpa [isChunk, Instr.wf] using hi)⟩
  | run n v => exact ⟨_, exec_run_of_hdr hp n v⟩
  | byte p b => cases hi
  | endMsg p => cases hi
  | byteDo b => cases hi
  | endDo err => cases hi

end

/-! ### The machine keeps its invariant -/

section
variable {s a : State}

/-- Settles O2: after reset nothing is held and nothing is under way in either unit. -/
theorem resetMeetsInvariant : Obligations.ResetMeetsInvariant :=
  ⟨encInv_of_collect_empty rfl rfl rfl rfl wf_nil, ⟨by simp, by simp, by simp, by simp⟩⟩

theorem exec_keeps_inv (i : Instr) : Keeps Inv (exec i) := by
  refine exec_keeps (fun tok s s' hi hs => ?_) (fun tok s s' hi hs => ?_) (fun tok s s' hi hs => ?_)
    (fun tok s s' hi hs => ?_) i
  · rcases takeEi_next hs with ⟨-, rfl⟩ | ⟨hp, e, he, rfl⟩
    · exact hi
    · exact ⟨encStep_in_keeps hi.enc hp he, hi.dec⟩
  · rcases acceptEo_next hs with ⟨-, rfl⟩ | ⟨-, -, e, he, rfl⟩
    · exact hi
    · exact ⟨encStep_out_keeps hi.enc he, hi.dec⟩
  · rcases takeDi_next hs with ⟨-, rfl⟩ | ⟨-, d, hd, rfl⟩
    · exact hi
    · exact ⟨hi.enc, decStep_in_keeps hi.dec hd⟩
  · obtain ⟨d, hd, rfl⟩ := putDo_next hs
    exact ⟨hi.enc, decStep_out_keeps hi.dec hd⟩

theorem fetch_after_inv (hi : Inv s) : Inv (fetch s).after :=
  ⟨(fetch_after_enc s).symm ▸ hi.enc, (fetch_after_dec s).symm ▸ hi.dec⟩

/-- Settles O40: a step is an edge with `rst = 1`, after which both units meet their invariants, or instructions that
each keep it. -/
theorem stepKeepsInvariant : Obligations.StepKeepsInvariant := by
  intro s t hi hs
  cases hr : (fetch s).rst with
  | true =>
    rw [step_of_rst hr] at hs
    cases hs
    exact ⟨encInv_reset _, decInv_reset _⟩
  | false =>
    rw [step_of_not_rst hr] at hs
    exact execAll_keeps exec_keeps_inv _ (fetch_after_inv hi) hs

/-! ### `D_END` is entered by taking `END` (R235) -/

/-- A token that takes the decoder to `D_END` is `END`; `end_err` is then set exactly by R228 and R231. -/
theorem decStep_in_endOut {t : Token} {d g : Decoder} (hi : DecInv d) (hp : d.dphase ≠ .endOut)
    (h : decStep (decRuleIn t d) (tokenByte t) d = .next g) (hg : g.dphase = .endOut) :
    g.endErr = true ↔ d.dphase = .runVal ∨ d.dphase = .litIn := by
  cases t with
  | byte b =>
    rcases decStep_byte h with ⟨-, -, rfl⟩ | ⟨-, -, -, rfl⟩ | ⟨-, -, -, rfl⟩ | ⟨-, -, rfl⟩ | ⟨-, -, rfl⟩ | ⟨-, rfl⟩
    case inr.inl => exact absurd hg hp
    all_goals cases hg
  | eom =>
    rcases decStep_eom h with ⟨hh, rfl⟩ | ⟨hh, rfl⟩ | ⟨hh, rfl⟩
    · simp [decHdrEnd, hi.endErr hp, hh]
    · simp [decRunTrunc, hh]
    · simp [decLitTrunc, hh]

/-- An output step leads to an input phase or to the next copy. -/
theorem decStep_out_ne_endOut {d g : Decoder} {b : Byte} (h : decStep (decRuleOut d) b d = .next g) :
    g.dphase ≠ .endOut := by
  rcases decStep_out h with ⟨-, -, rfl⟩ | ⟨-, -, rfl⟩ | ⟨-, rfl⟩
  · unfold decRunOut; dsimp only; split_ifs <;> simp
  · unfold decLitOut; dsimp only; split_ifs <;> simp
  · simp [decEndOut]

theorem takeDi_endOut {tok : Token} {t : State} (hi : DecInv s.dec) (hp : s.dec.dphase ≠ .endOut)
    (h : takeDi tok s = .next t) (ht : t.dec.dphase = .endOut) :
    t.dec.endErr = true ↔ s.dec.dphase = .runVal ∨ s.dec.dphase = .litIn := by
  rcases takeDi_next h with ⟨-, rfl⟩ | ⟨-, d, hd, rfl⟩
  · exact absurd ht hp
  · exact decStep_in_endOut hi hp hd ht

theorem acceptDo_endOut {tok : DoToken} {t : State} (hp : s.dec.dphase ≠ .endOut) (h : acceptDo tok s = .next t) :
    t.dec.dphase ≠ .endOut := by
  rcases acceptDo_next h with ⟨-, rfl⟩ | ⟨-, d, hd, rfl⟩
  · exact hp
  · exact decStep_out_ne_endOut hd

theorem exec_endOut {i : Instr} {t : State} (hi : DecInv s.dec) (hp : s.dec.dphase ≠ .endOut)
    (h : exec i s = .next t) (ht : t.dec.dphase = .endOut) :
    t.dec.endErr = true ↔ s.dec.dphase = .runVal ∨ s.dec.dphase = .litIn := by
  cases hu : isEncInstr i with
  | true =>
    rw [(exec_enc_frame hu h).1] at ht
    exact absurd ht hp
  | false =>
    cases i with
    | lit n p => simp [(exec_chunk_hdr (.inl ⟨n, p, rfl⟩) h).2] at ht
    | run n v => simp [(exec_chunk_hdr (.inr ⟨n, v, rfl⟩) h).2] at ht
    | byte p b =>
      cases p with
      | ei => cases hu
      | eo => cases hu
      | di => exact takeDi_endOut hi hp h ht
    | endMsg p =>
      cases p with
      | ei => cases hu
      | eo => cases hu
      | di => exact takeDi_endOut hi hp h ht
    | byteDo b => exact absurd ht (acceptDo_endOut hp h)
    | endDo err => exact absurd ht (acceptDo_endOut hp h)

/-- Settles O39: each of the four transfers keeps the invariant, and `D_END` is entered by `END` on `di` only. -/
theorem execKeepsInvariant : Obligations.ExecKeepsInvariant :=
  fun i _ _ hi h => ⟨exec_keeps_inv i hi h, fun hp ht => exec_endOut hi.dec hp h ht⟩

/-! ### Where the invariant holds, what a step runs completes (R170, R236) -/

theorem takeEi_completes (hi : EncInv s.enc) (tok : Token) : ∃ t, takeEi tok s = .next t := by
  by_cases hp : s.enc.ephase = .collect
  · obtain ⟨e, he⟩ := encStep_in_completes hi hp tok
    exact ⟨_, takeEi_steps hp he⟩
  · exact ⟨_, takeEi_waits tok hp⟩

theorem encStep_out_completes {e : Encoder} (hi : EncInv e) (hp : e.ephase ≠ .collect) (t : Token) :
    ∃ f, encStep (encRuleOut e) t e = .next f := by
  unfold encRuleOut
  cases hq : e.ephase with
  | collect => exact absurd hq hp
  | litPay =>
    have hlt := (hi.litPay hq).1
    by_cases hm : e.litRd.toNat + 1 < e.litLen.toNat
    · exact ⟨_, by simp only [morePayload, hm, decide_true, if_true]; rfl⟩
    · have hl : e.litRd.toNat + 1 = e.litLen.toNat := by omega
      exact ⟨_, by simp only [morePayload, lastPayload, hl, lt_irrefl, decide_false, beq_self_eq_true]; rfl⟩
  | runHdr => exact ⟨_, rfl⟩
  | runVal => exact ⟨_, rfl⟩
  | litHdr => exact ⟨_, rfl⟩
  | endOut => exact ⟨_, rfl⟩

/-- The token on the lines of `eo` is the offered one, and its transfer completes. -/
theorem exec_eoInstr_completes (hi : EncInv s.enc) (hr : s.enc.inReady = false) (ha : a.enc = s.enc) :
    ∃ t, exec (eoInstr s) a = .next t := by
  have hp : s.enc.ephase ≠ .collect := fun hp => by simp [(encoder_inReady_iff _).2 hp] at hr
  obtain ⟨tok, ho⟩ := Option.isSome_iff_exists.1
    ((encoder_offer_isSome hi).trans ((encoder_outValid_iff _).2 hr))
  obtain ⟨e, he⟩ := encStep_out_completes hi hp tok
  rw [eoInstr_offer ho, exec_on_eo]
  rw [← ha] at hp ho he
  exact ⟨_, acceptEo_steps hp ho he⟩

/-- In an input phase of the decoder a rule applies to every token, whatever its registers (R236). -/
theorem exists_decRuleIn {d : Decoder} (hr : d.inReady = true) (tok : Token) : ∃ r, decRuleIn tok d = some r := by
  unfold decRuleIn
  cases hp : d.dphase with
  | hdr =>
    cases tok with
    | byte b => dsimp only; split_ifs <;> exact ⟨_, rfl⟩
    | eom => exact ⟨_, rfl⟩
  | runVal =>
    cases tok with
    | byte b => dsimp only; split_ifs <;> exact ⟨_, rfl⟩
    | eom => exact ⟨_, rfl⟩
  | litIn => cases tok <;> exact ⟨_, rfl⟩
  | runOut => simp [Decoder.inReady, hp] at hr
  | litOut => simp [Decoder.inReady, hp] at hr
  | endOut => simp [Decoder.inReady, hp] at hr

theorem takeDi_completes (tok : Token) (s : State) : ∃ t, takeDi tok s = .next t := by
  cases hr : s.dec.inReady with
  | false => exact ⟨_, takeDi_waits tok hr⟩
  | true =>
    obtain ⟨r, h⟩ := exists_decRuleIn hr tok
    exact ⟨_, takeDi_steps hr (by rw [h]; rfl)⟩

/-- Where its invariant holds the decoder's output steps complete (R236). -/
theorem decStep_out_completes {d : Decoder} (hi : DecInv d) (hr : d.inReady = false) (b : Byte) :
    ∃ g, decStep (decRuleOut d) b d = .next g := by
  have hpos : 1 ≤ d.dcount.toNat → d.dcount ≠ 0 := fun h h0 => by simp [h0] at h
  unfold decRuleOut
  cases hp : d.dphase with
  | runOut => exact ⟨_, by simp only [if_neg (hpos (hi.dcount (.inl hp)))]; rfl⟩
  | litOut => exact ⟨_, by simp only [if_neg (hpos (hi.dcount (.inr (.inr hp))))]; rfl⟩
  | endOut => exact ⟨_, rfl⟩
  | hdr => simp [Decoder.inReady, hp] at hr
  | runVal => simp [Decoder.inReady, hp] at hr
  | litIn => simp [Decoder.inReady, hp] at hr

theorem acceptDo_completes {u : DoToken} (hi : DecInv s.dec) (ho : s.dec.offer = some u) :
    ∃ t, acceptDo u s = .next t := by
  obtain ⟨d, hd⟩ := decStep_out_completes hi (decoder_inReady_of_offer ho) 0
  exact ⟨_, by simp only [acceptDo, ho, if_true]; exact putDo_steps u hd⟩

/-- The token on the lines of `do` is the offered one, and its transfer completes. -/
theorem execAll_doInstr_completes (hi : DecInv s.dec) (hr : s.dec.inReady = false) (ha : a.dec = s.dec) :
    ∃ t, execAll (doInstr s) a = .next t := by
  obtain ⟨u, hu⟩ := exists_decoder_offer hr
  rw [doInstr_offer hu, execAll_singleton, exec_onDo]
  exact acceptDo_completes (ha.symm ▸ hi) (ha.symm ▸ hu)

/-- The encoder's transfer at an edge. -/
theorem execAll_encEdge_completes (hi : EncInv s.enc) (ha : a.enc = s.enc) (p : PinsIn) :
    ∃ t, execAll (encEdge p s) a = .next t := by
  unfold encEdge
  split_ifs with hr hv ho
  · rw [execAll_singleton, decodeToken, exec_on_ei]
    exact takeEi_completes (ha.symm ▸ hi) _
  · exact ⟨a, rfl⟩
  · rw [execAll_singleton]
    exact exec_eoInstr_completes hi (by simpa using hr) ha
  · exact ⟨a, rfl⟩

/-- The decoder's transfer at an edge. -/
theorem execAll_decEdge_completes (hi : DecInv s.dec) (ha : a.dec = s.dec) (p : PinsIn) :
    ∃ t, execAll (decEdge p s) a = .next t := by
  unfold decEdge
  split_ifs with hr hv ho
  · rw [execAll_singleton, decodeToken, exec_on_di]
    exact takeDi_completes _ _
  · exact ⟨a, rfl⟩
  · exact execAll_doInstr_completes hi (by simpa using hr) ha
  · exact ⟨a, rfl⟩

/-- A clock edge without reset (R63). -/
theorem step_nextEdge_completes (hi : Inv s) {p : PinsIn} {rest : List HostEvent} (hn : NextEdge s p rest)
    (hr : p.rst = false) : ∃ t, step s = .next t := by
  obtain ⟨a, ha⟩ := execAll_encEdge_completes (a := advance rest s) hi.enc rfl p
  obtain ⟨hdec, -, -⟩ := decSide_eq.1 (execAll_encInstrs encEdge_isEnc ha)
  obtain ⟨t, ht⟩ := execAll_decEdge_completes hi.dec hdec p
  exact ⟨t, by rw [step_nextEdge hn hr, ha, andThen_next, ht]⟩

/-- A move of a host that feeds the encoder. -/
theorem execAll_feedEncFetch_completes (hi : EncInv s.enc) (words : List TokenWord) (rest : List HostEvent) :
    ∃ t, execAll (feedEncFetch words rest s).instrs (feedEncFetch words rest s).after = .next t := by
  unfold feedEncFetch
  split_ifs with hr
  · cases words with
    | nil => exact ⟨_, rfl⟩
    | cons w ws =>
      rw [execAll_singleton, decodeToken, exec_on_ei]
      exact takeEi_completes (s := advance (.feedEnc ws :: rest) s) hi _
  · rw [execAll_singleton]
    exact exec_eoInstr_completes hi (by simpa using hr) rfl

theorem execAll_feedDecToken_completes (words : List TokenWord) (rest : List HostEvent) (s : State) :
    ∃ t, execAll (feedDecToken words rest s).instrs (feedDecToken words rest s).after = .next t := by
  cases words with
  | nil => exact ⟨_, rfl⟩
  | cons w ws =>
    simp only [feedDecToken, execAll_singleton, decodeToken, exec_on_di]
    exact takeDi_completes _ _

/-- A move of a host that feeds the decoder: a chunk, a token, or the token on `do`. -/
theorem execAll_feedDecFetch_completes (hi : DecInv s.dec) (words : List TokenWord) (rest : List HostEvent) :
    ∃ t, execAll (feedDecFetch words rest s).instrs (feedDecFetch words rest s).after = .next t := by
  unfold feedDecFetch
  split_ifs with hr hp
  · split
    · rename_i hchunk
      rw [execAll_singleton]
      exact exec_chunk_completes (decodeChunk_isChunk hchunk) hp
    · exact execAll_feedDecToken_completes words rest s
  · exact execAll_feedDecToken_completes words rest s
  · exact execAll_doInstr_completes hi (by simpa using hr) rfl

end

/-- Settles O41, by what the host does next: each instruction fetched is a transfer that a rule applies to, or a chunk at
a chunk boundary. -/
theorem stepAlwaysCompletes : Obligations.StepAlwaysCompletes := by
  intro s hi
  cases hr : (fetch s).rst with
  | true => exact ⟨_, step_of_rst hr⟩
  | false =>
    cases ha : s.env.agenda with
    | nil => exact ⟨advance [] s, step_of_fetch (is := []) (by simp only [fetch, ha])⟩
    | cons ev rest =>
      have hrst : ∀ p, (edgeFetch p rest s).rst = false → p.rst = false := fun p h => by
        cases hp : p.rst with
        | false => rfl
        | true => simp [edgeFetch, hp] at h
      cases ev with
      | edge p => exact step_nextEdge_completes hi (.inl ha) (hrst p (by simpa only [fetch, ha] using hr))
      | loopEdge p =>
        exact step_nextEdge_completes hi (.inr ⟨p, ha, rfl⟩) (hrst (wired p s) (by simpa only [fetch, ha] using hr))
      | feedEnc words =>
        rw [step_of_not_rst hr]
        simp only [fetch, ha]
        exact execAll_feedEncFetch_completes hi.enc words rest
      | feedDec words =>
        rw [step_of_not_rst hr]
        simp only [fetch, ha]
        exact execAll_feedDecFetch_completes hi.dec words rest

end Sys2Proof.Proofs
end

section
/-! What the encoder has put out and what it still owes (R171, R37): the chunks put out so far are the front of the greedy
parse, they decode to the bytes they stand for, and the rest of the parse is what the registers would give on `END`. -/

namespace Sys2Proof.Proofs

open Sys2Proof.Machine Sys2Proof.Laws

/-! ### Decoding a sequence of chunks (R198) -/

/-- One pass of the decoder's loop reads one chunk. -/
theorem decodeLoop_chunk {c : Instr} (hc : isChunk c = true) (n : Nat) (rest out : List Byte) :
    decodeLoop (n + 1) (chunkBytes c ++ rest) out = decodeLoop n rest (out ++ chunkOutput c) := by
  cases c with
  | lit count payload =>
    have hl : payload.length = count.toNat := by simpa [isChunk, Instr.wf] using hc
    simp [chunkBytes, encode, chunkOutput, decodeLoop, ← hl]
  | run count value => simp [chunkBytes, encode, chunkOutput, decodeLoop]
  | byte p b => cases hc
  | endMsg p => cases hc
  | byteDo b => cases hc
  | endDo err => cases hc

theorem chunkBytes_length_pos {c : Instr} (hc : isChunk c = true) : 1 ≤ (chunkBytes c).length := by
  cases c with
  | lit count payload => simp [chunkBytes, encode]
  | run count value => simp [chunkBytes, encode]
  | byte p b => cases hc
  | endMsg p => cases hc
  | byteDo b => cases hc
  | endDo err => cases hc

theorem streamBytes_append (cs ds : List Instr) : streamBytes (cs ++ ds) = streamBytes cs ++ streamBytes ds := by
  simp [streamBytes]

/-- As many passes as there are chunks read the chunks, whatever follows. -/
theorem decodeLoop_stream (cs : List Instr) : (∀ c ∈ cs, isChunk c = true) → ∀ (n : Nat) (rest out : List Byte),
    decodeLoop (n + cs.length) (streamBytes cs ++ rest) out = decodeLoop n rest (out ++ cs.flatMap chunkOutput) := by
  induction cs with
  | nil => simp [streamBytes]
  | cons c cs ih =>
    intro hcs n rest out
    obtain ⟨hc, hcs⟩ := List.forall_mem_cons.1 hcs
    have hbytes : streamBytes (c :: cs) ++ rest = chunkBytes c ++ (streamBytes cs ++ rest) := by simp [streamBytes]
    rw [hbytes, List.length_cons, ← Nat.add_assoc, decodeLoop_chunk hc, ih hcs, List.flatMap_cons, List.append_assoc]

theorem length_le_streamBytes (cs : List Instr) (hcs : ∀ c ∈ cs, isChunk c = true) :
    cs.length ≤ (streamBytes cs).length := by
  induction cs with
  | nil => exact le_rfl
  | cons c cs ih =>
    obtain ⟨hc, hcs⟩ := List.forall_mem_cons.1 hcs
    have hpos := chunkBytes_length_pos hc
    have hle := ih hcs
    simp only [streamBytes, List.flatMap_cons, List.length_append, List.length_cons] at hle ⊢
    omega

/-- `cs` are complete chunks that stand for the bytes `bs`. -/
structure StandsFor (cs : List Instr) (bs : List Byte) : Prop where
  chunks : ∀ c ∈ cs, isChunk c = true
  output : cs.flatMap chunkOutput = bs

theorem decodeBytes_of_standsFor {cs : List Instr} {bs : List Byte} (h : StandsFor cs bs) :
    decodeBytes (streamBytes cs) = .ok bs := by
  obtain ⟨n, hn⟩ := Nat.exists_eq_add_of_le' (length_le_streamBytes cs h.chunks)
  have hloop := decodeLoop_stream cs h.chunks n [] []
  rw [List.append_nil, ← hn, List.nil_append, h.output] at hloop
  rw [decodeBytes, hloop]
  cases n <;> rfl

/-! ### A greedy parse stands for its input -/

theorem standsFor_nil : StandsFor [] [] := ⟨by simp, rfl⟩

theorem StandsFor.append {cs ds : List Instr} {as bs : List Byte} (hc : StandsFor cs as) (hd : StandsFor ds bs) :
    StandsFor (cs ++ ds) (as ++ bs) :=
  ⟨List.forall_mem_append.2 ⟨hc.chunks, hd.chunks⟩, by rw [List.flatMap_append, hc.output, hd.output]⟩

/-- The chunks in front of others stand for the bytes in front. -/
theorem StandsFor.of_append {cs ds : List Instr} {as bs : List Byte} (h : StandsFor (cs ++ ds) as)
    (hd : StandsFor ds bs) : ∃ out, StandsFor cs out ∧ as = out ++ bs := by
  refine ⟨_, ⟨(List.forall_mem_append.1 h.chunks).1, rfl⟩, ?_⟩
  rw [← h.output, List.flatMap_append, hd.output]

theorem standsFor_run (count : Count) (v : Byte) :
    StandsFor [.run count v] (List.replicate count.toNat v) := ⟨by simp [isChunk], by simp [chunkOutput]⟩

theorem standsFor_litOf {xs : List Byte} (h : xs.length ≤ Config.cap) : StandsFor [litOf xs] xs := by
  have hmod : xs.length % 128 = xs.length := Nat.mod_eq_of_lt (Nat.lt_succ_of_le h)
  exact ⟨by simp [isChunk, Instr.wf, litOf, hmod], by simp [chunkOutput, litOf]⟩

namespace Pending

/-- What is written when a byte is taken stands for the bytes that are then no longer pending. -/
theorem Takes.standsFor {b : Byte} {p q : Pending} {cs : List Instr} (h : Takes b p cs q) (hp : p.Valid) :
    ∃ out, StandsFor cs out ∧ p.bytes ++ [b] = out ++ q.bytes := by
  cases h with
  | first v => exact ⟨_, standsFor_nil, rfl⟩
  | pair => exact ⟨_, standsFor_nil, rfl⟩
  | pairFlush hne => exact ⟨_, standsFor_litOf (Nat.le_succ_of_le hp.len), by simp [bytes]⟩
  | @grow cnt h0 h1 hcap =>
    have hlt : cnt.toNat ≤ 126 :=
      Nat.le_of_lt_succ (lt_of_le_of_ne (count_le_cap cnt) fun h => hcap (BitVec.eq_of_toNat_eq h))
    exact ⟨_, standsFor_nil, by simp only [bytes, append_litLen hlt, List.replicate_succ', List.nil_append]⟩
  | cap => exact ⟨_, standsFor_run 127 b, rfl⟩
  | @runClose cnt v h0 h1 hb => exact ⟨_, standsFor_run cnt v, rfl⟩
  | single hb hlen => exact ⟨_, standsFor_nil, by simp [bytes]⟩
  | @singleCap held v hb hlen => exact ⟨_, standsFor_litOf (xs := held ++ [v]) (by simp [hlen]), by simp [bytes]⟩

theorem Ends.standsFor {p : Pending} {cs : List Instr} (h : Ends p cs) (hp : p.Valid) : StandsFor cs p.bytes := by
  cases h with
  | empty v => exact standsFor_nil
  | @run cnt v h0 h1 => exact standsFor_run cnt v
  | lit held v => exact standsFor_litOf (by simpa using Nat.succ_le_succ hp.len)

end Pending

theorem ParsesGreedily.standsFor_pending {F : List Byte → List Instr} (hF : ParsesGreedily F) (rest : List Byte) :
    ∀ {p : Pending}, p.Valid → StandsFor (F (p.bytes ++ rest)) (p.bytes ++ rest) := by
  induction rest with
  | nil =>
    intro p hp
    obtain ⟨cs, h⟩ := hp.exists_ends
    rw [List.append_nil, hF.ends h hp]
    exact h.standsFor hp
  | cons b rest ih =>
    intro p hp
    obtain ⟨cs, q, h⟩ := hp.exists_takes b
    obtain ⟨out, hout, hbytes⟩ := h.standsFor hp
    have hsplit : p.bytes ++ b :: rest = out ++ (q.bytes ++ rest) := by
      rw [← List.append_assoc, ← hbytes, List.append_assoc, List.singleton_append]
    rw [hF.takes h hp, hsplit]
    exact hout.append (ih (h.valid hp))

/-- A greedy parse writes complete chunks that stand for its input. -/
theorem ParsesGreedily.standsFor {F : List Byte → List Instr} (hF : ParsesGreedily F) (data : List Byte) :
    StandsFor (F data) data :=
  hF.standsFor_pending data (Pending.valid_nil 0 0)

/-! ### What the registers owe (R171) -/

/-- The bytes owed are those of the chunks that `END` would have written. -/
theorem Collects.streamBytes_ends {e : Encoder} {p : Pending} {cs : List Instr} (hc : Collects e p)
    (h : p.Ends cs) : streamBytes cs = owedBytes e := by
  have hlen := length_heldBytes e
  obtain ⟨-, -, hheld, hcur, hcnt⟩ := hc
  cases h with
  | empty v => exact (if_pos hcnt).symm
  | run v h0 h1 =>
    subst hcur hcnt
    rw [owedBytes, if_neg h0, if_neg h1]
    rfl
  | lit held v =>
    subst hcur hheld
    have h1 : e.cnt = 1 := hcnt
    have hcount : BitVec.ofNat 7 (heldBytes e ++ [e.cur]).length = e.litLen + 1 := by
      rw [List.length_append, hlen, BitVec.ofNat_add, BitVec.ofNat_toNat, BitVec.setWidth_eq]
      rfl
    rw [owedBytes, if_neg (by rw [h1]; decide), if_pos h1, ← hcount]
    simp only [streamBytes, List.flatMap_singleton, chunkBytes, litOf, encode, List.cons_append]

/-- Settles O58: what has been put out is the front of `encode(p)`, and the bytes pending are the ones it does not stand
for. -/
theorem encoderOwesTheRest : Obligations.EncoderOwesTheRest := by
  intro s p rest hi hidle hk ha
  obtain ⟨f, q, cs, hf, hq, hparse, hrun⟩ :=
    (collects_of_idle hi.enc hidle).run_bytes p (Pending.valid_nil s.enc.cur 0)
  have hwords : byteWords p = (p.map Token.byte).map tokenWord := by simp [byteWords]
  obtain ⟨n, t, hn, hrest, ht, -⟩ := core_run_feedEnc (hrun s.encK s.env.eoOut) hf.ephase rfl (hwords ▸ ha)
  obtain ⟨henc, hpos, hout⟩ := Side.ext_iff.1 ht
  obtain rfl : t.enc = f := henc
  obtain ⟨ds, hds⟩ := hq.exists_ends
  have hchunks : encodeChunks p = cs ++ ds :=
    (hparse encodeChunks_parsesGreedily).trans (congrArg (cs ++ ·) (encodeChunks_parsesGreedily.ends hds hq))
  obtain ⟨out, hcs, hp⟩ :=
    (hchunks ▸ encodeChunks_parsesGreedily.standsFor p).of_append (hds.standsFor hq)
  refine ⟨n, t, streamBytes cs, out, hn, hrest, hf.ephase, hout, ?_, ?_, decodeBytes_of_standsFor hcs, ?_⟩
  · exact hpos.trans (by simp [hk])
  · rw [encodeBytes, hchunks, streamBytes_append, hf.streamBytes_ends hds]
  · rw [hp, Pending.bytes, hf.held, hf.cur, hf.cnt, List.append_assoc]

end Sys2Proof.Proofs
end

section
/-! The encoder's step rules (R152 to R168): the guard of a rule, as the rule words it, is the machine's choice of that rule
(R170), and a rule whose guard holds gives the state after the transfer. -/

namespace Sys2Proof.Proofs

open Sys2Proof.Machine Sys2Proof.Laws

/-! ### The comparisons of the rules on counters -/

section
variable {c : Count}

theorem one_le_toNat_iff : 1 ≤ c.toNat ↔ c ≠ 0 := ⟨fun h h0 => by simp [h0] at h, count_pos⟩

theorem two_le_toNat_iff : 2 ≤ c.toNat ↔ c ≠ 0 ∧ c ≠ 1 :=
  ⟨fun h => ⟨fun h0 => by simp [h0] at h, fun h1 => by simp [h1] at h⟩, fun h => Pending.two_le_count h.1 h.2⟩

theorem toNat_le_126_iff : c.toNat ≤ 126 ↔ c ≠ 127 :=
  ⟨fun h h127 => by simp [h127] at h,
    fun h => Nat.le_of_lt_succ (lt_of_le_of_ne (Pending.count_le_cap c) fun h' => h (BitVec.eq_of_toNat_eq h'))⟩

end

/-! ### The guards are the machine's choice (R170) -/

section
variable {e : Encoder} {t : Token} {r : EncRule}

/-- In `E_COLLECT` a rule whose guard holds is the one the machine applies. -/
theorem encRuleIn_of_guard (h : encGuard r (some t) e = true) : encRuleIn t e = some r := by
  have h10 : ¬ (1 : Count) = 0 := by decide
  cases t with
  | byte b =>
    cases r <;> simp only [encGuard, Bool.and_eq_true, beq_iff_eq, bne_iff_ne, decide_eq_true_eq, reduceCtorEq,
      one_le_toNat_iff, two_le_toNat_iff, toNat_le_126_iff] at h
    case first => exact if_pos h.2
    case pair =>
      obtain ⟨⟨⟨-, h1⟩, hb⟩, hl⟩ := h
      simp only [encRuleIn, h1, if_neg h10, hb, hl, if_true]
    case pairFlush =>
      obtain ⟨⟨⟨-, h1⟩, hb⟩, hl⟩ := h
      simp only [encRuleIn, h1, if_neg h10, hb, if_neg hl, if_true]
    case grow =>
      obtain ⟨⟨⟨-, h0, h1⟩, h127⟩, hb⟩ := h
      simp only [encRuleIn, if_neg h0, if_neg h1, hb, if_neg h127, if_true]
    case cap =>
      obtain ⟨⟨-, h127⟩, hb⟩ := h
      simp [encRuleIn, h127, hb]
    case runClose =>
      obtain ⟨⟨-, h0, h1⟩, hb⟩ := h
      simp only [encRuleIn, if_neg h0, if_neg h1, if_neg hb]
    case single =>
      obtain ⟨⟨⟨-, h1⟩, hb⟩, hl⟩ := h
      simp only [encRuleIn, h1, if_neg h10, if_neg hb, if_pos hl, if_true]
    case singleCap =>
      obtain ⟨⟨⟨-, h1⟩, hb⟩, hl⟩ := h
      simp [encRuleIn, h1, hb, hl]
  | eom =>
    cases r <;> simp only [encGuard, Bool.and_eq_true, beq_iff_eq, decide_eq_true_eq, reduceCtorEq,
      two_le_toNat_iff] at h
    case endEmpty => exact if_pos h.2
    case endRun =>
      obtain ⟨-, h0, h1⟩ := h
      simp only [encRuleIn, if_neg h0, if_neg h1]
    case endLit => simp only [encRuleIn, h.2, if_neg h10, if_true]

/-- The rule the machine applies to a token is one whose guard holds. -/
theorem guard_of_encRuleIn (hp : e.ephase = .collect) (h : encRuleIn t e = some r) : encGuard r (some t) e = true := by
  cases t with
  | byte b =>
    dsimp only [encRuleIn] at h
    split_ifs at h with h0 h1 hb hl hl hl hb h127 <;> cases h <;>
      simp only [encGuard, hp, beq_self_eq_true, Bool.true_and, Bool.and_eq_true, beq_iff_eq, bne_iff_ne,
        decide_eq_true_eq, one_le_toNat_iff, two_le_toNat_iff, toNat_le_126_iff]
    · exact h0
    · exact ⟨⟨h1, hb⟩, hl⟩
    · exact ⟨⟨h1, hb⟩, hl⟩
    · exact ⟨⟨h1, hb⟩, hl⟩
    · exact ⟨⟨h1, hb⟩, ‹_›⟩
    · exact ⟨h127, hb⟩
    · exact ⟨⟨⟨h0, h1⟩, h127⟩, hb⟩
    · exact ⟨⟨h0, h1⟩, hb⟩
  | eom =>
    dsimp only [encRuleIn] at h
    split_ifs at h with h0 h1 <;> cases h <;>
      simp only [encGuard, hp, beq_self_eq_true, Bool.true_and, beq_iff_eq, decide_eq_true_eq, two_le_toNat_iff]
    · exact h0
    · exact h1
    · exact ⟨h0, h1⟩

/-- The same for output steps. -/
theorem encRuleOut_of_guard (h : encGuard r none e = true) : encRuleOut e = some r := by
  cases r <;> simp only [encGuard, Bool.and_eq_true, beq_iff_eq, decide_eq_true_eq, reduceCtorEq] at h
  case litPay => simp [encRuleOut, h.1, morePayload, h.2]
  case litLast => simp [encRuleOut, h.1, morePayload, lastPayload, h.2]
  all_goals simp only [encRuleOut, h]

theorem guard_of_encRuleOut (h : encRuleOut e = some r) : encGuard r none e = true := by
  unfold encRuleOut at h
  cases hp : e.ephase <;> simp only [hp] at h
  case litPay =>
    split_ifs at h with hm hl <;> cases h
    · simpa [encGuard, hp, morePayload] using hm
    · simpa [encGuard, hp, lastPayload] using hl
  all_goals cases h <;> simp only [encGuard, hp, beq_self_eq_true]

end

/-- Settles O22: a rule applies in every state that meets R169, its guard holds, and another guard that held would be the
machine's choice as well. -/
theorem encoderRulesExhaustiveExclusive : Obligations.EncoderRulesExhaustiveExclusive := by
  intro e hi
  refine ⟨fun hp t => ?_, fun hp => ?_⟩
  · obtain ⟨f, hf⟩ := encStep_in_completes hi hp t
    cases hr : encRuleIn t e with
    | none => rw [hr] at hf; cases hf
    | some r =>
      exact ⟨r, rfl, guard_of_encRuleIn hp hr, fun q hq => Option.some.inj ((encRuleIn_of_guard hq).symm.trans hr)⟩
  · obtain ⟨f, hf⟩ := encStep_out_completes hi hp .eom
    cases hr : encRuleOut e with
    | none => rw [hr] at hf; cases hf
    | some r =>
      exact ⟨r, rfl, guard_of_encRuleOut hr, fun q hq => Option.some.inj ((encRuleOut_of_guard hq).symm.trans hr)⟩


/-! ### A token taken in `E_COLLECT` (R152 to R162) -/

section
variable {s : State} {t : Token} {r : EncRule} {f : Encoder}

/-- A rule whose guard holds gives the registers after the transfer on `ei`; nothing but the position moves with them. -/
theorem exec_ei_of_guard (hp : s.enc.ephase = .collect) (hg : encGuard r (some t) s.enc = true)
    (he : encApply r t s.enc = .next f) :
    exec (t.on .ei) s = .next { s with enc := f, encK := positionAfter t s.encK } := by
  rw [exec_on_ei]
  exact takeEi_steps hp (by rw [encRuleIn_of_guard hg]; exact he)

/-- A rule whose guard holds gives the registers after the transfer of the offered token on `eo`. -/
theorem exec_eo_of_guard (ho : s.enc.offer = some t) (hg : encGuard r none s.enc = true)
    (he : encApply r t s.enc = .next f) :
    exec (t.on .eo) s = .next { s with enc := f, env := { s.env with eoOut := s.env.eoOut ++ [t] } } := by
  have hp : s.enc.ephase ≠ .collect := fun hp => by simp [Encoder.offer, hp] at ho
  rw [exec_on_eo]
  exact acceptEo_steps hp ho (by rw [encRuleOut_of_guard hg]; exact he)

end

/-- Settles O14, by the guards of R152, R153 and R155. -/
theorem encoderCandidateGrows : Obligations.EncoderCandidateGrows := by
  refine fun b s hp => ⟨fun h0 => ?_, fun h1 hb hl => ?_, fun h2 h126 hb => ⟨?_, append_litLen h126⟩⟩
  · exact exec_ei_of_guard (t := .byte b) (r := .first) hp (by simp [encGuard, hp, h0]) rfl
  · exact exec_ei_of_guard (t := .byte b) (r := .pair) hp (by simp [encGuard, hp, h1, hb, hl]) rfl
  · exact exec_ei_of_guard (t := .byte b) (r := .grow) hp (by simp [encGuard, hp, h2, h126, hb]) rfl

/-- Settles O17, by the guards of R160 to R162. -/
theorem encoderTakesEnd : Obligations.EncoderTakesEnd := by
  refine fun s hp => ⟨fun h0 => ?_, fun h2 => ?_, fun h1 hl => ⟨?_, append_litLen hl⟩⟩
  · exact exec_ei_of_guard (t := .eom) (r := .endEmpty) hp (by simp [encGuard, hp, h0]) rfl
  · exact exec_ei_of_guard (t := .eom) (r := .endRun) hp (by simp [encGuard, hp, h2]) rfl
  · exact exec_ei_of_guard (t := .eom) (r := .endLit) hp (by simp [encGuard, hp, h1])
      (by rw [encApply, encEndLit, appendSingle_next hl]; rfl)

/-! ### What the encoder drives (R172) -/

section
variable {e : Encoder} {s : State}

theorem offer_runHdr (hp : e.ephase = .runHdr) : e.offer = some (.byte (runHeader e.emCnt)) := by
  simp [Encoder.offer, Encoder.outByte, hp]

theorem offer_runVal (hp : e.ephase = .runVal) : e.offer = some (.byte e.emVal) := by
  simp [Encoder.offer, Encoder.outByte, hp]

theorem offer_litHdr (hp : e.ephase = .litHdr) : e.offer = some (.byte (litHeader e.litLen)) := by
  simp [Encoder.offer, Encoder.outByte, hp]

theorem offer_litPay (hp : e.ephase = .litPay) (hr : e.litRd.toNat ≤ 126) :
    e.offer = some (.byte (Memory.read e.litBuf e.litRd.toNat)) := by
  have hlt : e.litRd.toNat < Config.litBufDepth := Nat.lt_succ_of_le hr
  simp [Encoder.offer, Encoder.outByte, hp, hlt]

theorem offer_endOut (hp : e.ephase = .endOut) : e.offer = some .eom := by
  simp [Encoder.offer, hp]

/-- An offered byte stands on the lines of `eo`. -/
theorem pins_of_offer_byte {b : Byte} (h : s.enc.offer = some (.byte b)) : s.pins.eoEos = false ∧ s.pins.eoData = b := by
  simp [State.pins, eoLines_of_offer h, tokenWord]

theorem pins_of_offer_eom (h : s.enc.offer = some .eom) : s.pins.eoEos = true ∧ s.pins.eoData = 0 := by
  simp [State.pins, eoLines_of_offer h, tokenWord]

/-- `ei_ready` and `eo_valid` in the five output phases (R64). -/
theorem pins_of_output_phase (h : s.enc.ephase ≠ .collect) : s.pins.eiReady = false ∧ s.pins.eoValid = true := by
  simp [State.pins, Encoder.inReady, Encoder.outValid, h]

end

/-- Settles O5, phase by phase: the lines of `eo` carry the token the phase offers. -/
theorem encoderPinTable : Obligations.EncoderPinTable := by
  intro s
  refine ⟨fun hp => ?_, fun hp => ?_, fun hp => ?_, fun hp => ?_, fun hp => ?_, fun hp => ?_⟩
  · simp [State.pins, Encoder.inReady, Encoder.outValid, hp]
  all_goals obtain ⟨hr, hv⟩ := pins_of_output_phase (s := s) (by simp [hp])
  · exact ⟨hr, hv, pins_of_offer_byte (offer_runHdr hp)⟩
  · exact ⟨hr, hv, pins_of_offer_byte (offer_runVal hp)⟩
  · exact ⟨hr, hv, pins_of_offer_byte (offer_litHdr hp)⟩
  · exact ⟨hr, hv, fun hrd => pins_of_offer_byte (offer_litPay hp hrd)⟩
  · exact ⟨hr, hv, pins_of_offer_eom (offer_endOut hp)⟩

/-! ### A token put out (R163 to R168) -/

/-- Settles O18, by the guards of R163 and R164. -/
theorem encoderPutsRunChunk : Obligations.EncoderPutsRunChunk := by
  refine fun s => ⟨fun hp => ⟨?_, fun h2 => ?_⟩, fun hp => ?_⟩
  · exact exec_eo_of_guard (r := .runHdr) (offer_runHdr hp) (by simp [encGuard, hp]) rfl
  · exact (Nat.add_le_add_left h2 128).trans_eq (runHeader_toNat s.enc.emCnt).symm
  · exact exec_eo_of_guard (r := .runVal) (offer_runVal hp) (by simp [encGuard, hp]) rfl

/-- Settles O19, by the guards of R165 to R167. -/
theorem encoderPutsLiteralChunk : Obligations.EncoderPutsLiteralChunk := by
  intro s
  have hmax := Pending.count_le_cap s.enc.litLen
  refine ⟨fun hp => ⟨?_, fun h1 => ?_⟩, fun hp hlt => ⟨?_, append_litLen (by omega)⟩, fun hp hlast => ?_⟩
  · exact exec_eo_of_guard (r := .litHdr) (offer_litHdr hp) (by simp [encGuard, hp]) rfl
  · rw [← litHeader, litHeader_toNat]
    exact ⟨h1, hmax⟩
  · exact exec_eo_of_guard (r := .litPay) (offer_litPay hp (by omega)) (by simp [encGuard, hp, hlt]) rfl
  · exact exec_eo_of_guard (r := .litLast) (offer_litPay hp (by omega)) (by simp [encGuard, hp, hlast]) rfl

/-- Settles O20, by the guard of R168; R169 gives the other registers their reset values in `E_END`. -/
theorem encoderPutsEnd : Obligations.EncoderPutsEnd := by
  intro s hp
  have hexec := exec_eo_of_guard (r := .endOut) (offer_endOut hp) (by simp [encGuard, hp]) rfl
  refine ⟨hexec, fun hi t ht => ?_⟩
  obtain ⟨-, hcnt, hlen, hrd⟩ := hi.endOut hp
  cases hexec.symm.trans ht
  exact ⟨⟨rfl, hcnt⟩, rfl, hcnt, hlen, hrd, rfl⟩

/-! ### What closes a literal segment or a run (R154, R156 to R159) -/

section
variable {s : State}

/-- A literal chunk that goes out before `END` leaves the encoder collecting with an empty segment (R165 to R167). -/
theorem execAll_litChunk_collects (hi : EncInv s.enc) (hp : s.enc.ephase = .litHdr) (hs : s.enc.eosPend = false) :
    ∃ t, execAll ((litHeader s.enc.litLen :: heldBytes s.enc).map (Instr.byte .eo)) s = .next t ∧
      t.enc.ephase = .collect ∧ t.enc.cur = s.enc.cur ∧ t.enc.cnt = s.enc.cnt ∧ t.enc.litLen = 0 := by
  obtain ⟨-, -, hexec⟩ := literalChunkDrains s hi hp
  exact ⟨_, hexec, by simp [hs], rfl, rfl, rfl⟩

/-- A run chunk that goes out before `END` leaves the encoder collecting (R163, R164). -/
theorem execAll_runChunk_collects (hp : s.enc.ephase = .runHdr) (hs : s.enc.eosPend = false) :
    ∃ t, execAll [.byte .eo (runHeader s.enc.emCnt), .byte .eo s.enc.emVal] s = .next t ∧
      t.enc.ephase = .collect ∧ t.enc.cur = s.enc.cur ∧ t.enc.cnt = s.enc.cnt ∧ t.enc.litLen = s.enc.litLen := by
  have hhdr := ((encoderPutsRunChunk s).1 hp).1
  have hval := (encoderPutsRunChunk (afterBytes (encRunHdr s.enc) [runHeader s.enc.emCnt] s)).2 rfl
  have hphase : (encRunVal (encRunHdr s.enc)).ephase = .collect := afterEmission_collect hs
  exact ⟨_, (congrArg (andThen · _) hhdr).trans ((execAll_singleton ..).trans hval), hphase, rfl, rfl, rfl⟩

/-- The registers after the transfer on `ei` meet R169 again. -/
theorem encInv_of_guard {e f : Encoder} {t : Token} {r : EncRule} (hi : EncInv e) (hp : e.ephase = .collect)
    (hg : encGuard r (some t) e = true) (he : encApply r t e = .next f) : EncInv f :=
  encStep_in_keeps hi hp (by rw [encRuleIn_of_guard hg]; exact he)

end

/-- Settles O15, by the guards of R154, R156 and R157; the chunk then goes out. -/
theorem encoderClosesSegmentOrRun : Obligations.EncoderClosesSegmentOrRun := by
  refine fun b s hp => ⟨fun h1 hb hl => ?_, fun h127 hb => ?_, fun h2 hb => ?_⟩
  · have hg : encGuard .pairFlush (some (.byte b)) s.enc = true := by simp [encGuard, hp, h1, hb, hl]
    have hexec := exec_ei_of_guard (t := .byte b) hp hg rfl
    refine ⟨hexec, fun hi => ?_⟩
    obtain ⟨t, ht, hcollect, hcur, hcnt, hlen⟩ := execAll_litChunk_collects
      (s := { s with enc := encPairFlush s.enc, encK := s.encK + 1 }) (encInv_of_guard hi hp hg rfl) rfl
      (hi.collectFlags hp).1
    exact ⟨t, (congrArg (andThen · _) hexec).trans ht, hcollect, hcur.trans hb.symm, hcnt, hlen⟩
  · have hg : encGuard .cap (some (.byte b)) s.enc = true := by simp [encGuard, hp, h127, hb]
    have hexec := exec_ei_of_guard (t := .byte b) hp hg rfl
    refine ⟨hexec, fun hi => ?_⟩
    obtain ⟨t, ht, hcollect, hcur, hcnt, hlen⟩ := execAll_runChunk_collects
      (s := { s with enc := encCap s.enc, encK := s.encK + 1 }) rfl (hi.collectFlags hp).1
    have hheader : runHeader (encCap s.enc).emCnt = 0xFF := show runHeader 127 = 0xFF by decide
    rw [hheader] at ht
    have hempty : s.enc.litLen = 0 := hi.collectEmpty hp (by rw [h127]; decide)
    subst hb
    exact ⟨t, (congrArg (andThen · _) hexec).trans ht, hcollect, hcur, hcnt, hlen.trans hempty⟩
  · exact exec_ei_of_guard (t := .byte b) (r := .runClose) hp (by simp [encGuard, hp, h2, hb]) rfl

/-- Settles O16, by the guards of R158 and R159; at 127 bytes the literal chunk then goes out. -/
theorem encoderSingleJoinsLiteral : Obligations.EncoderSingleJoinsLiteral := by
  refine fun b s hp h1 hb => ⟨fun hl => ⟨?_, append_litLen (Nat.le_succ_of_le hl)⟩, fun hl => ?_⟩
  · exact exec_ei_of_guard (t := .byte b) (r := .single) hp (by simp [encGuard, hp, h1, hb, hl])
      (by rw [encApply, encSingle, appendSingle_next (Nat.le_succ_of_le hl)]; rfl)
  · have hmax : s.enc.litLen.toNat ≤ 126 := by rw [hl]; decide
    have hg : encGuard .singleCap (some (.byte b)) s.enc = true := by simp [encGuard, hp, h1, hb, hl]
    have he : encApply .singleCap (.byte b) s.enc =
        .next { appended s.enc with cur := b, cnt := 1, ephase := .litHdr } := by
      rw [encApply, encSingleCap, appendSingle_eq_appended hmax]
      rfl
    have hexec := exec_ei_of_guard (t := .byte b) hp hg he
    refine ⟨hexec.trans (by rw [appended, hl]; rfl), fun hi => ?_⟩
    obtain ⟨t, ht, hcollect, hcur, hcnt, hlen⟩ := execAll_litChunk_collects
      (s := { s with enc := { appended s.enc with cur := b, cnt := 1, ephase := .litHdr }, encK := s.encK + 1 })
      (encInv_of_guard hi hp hg he) rfl (hi.collectFlags hp).1
    have hheader : litHeader (appended s.enc).litLen = 0x7F := by rw [appended, hl]; rfl
    have hheld : heldBytes { appended s.enc with cur := b, cnt := 1, ephase := .litHdr } =
        heldBytes s.enc ++ [s.enc.cur] := heldBytes_appended hmax
    rw [hheader, hheld] at ht
    exact ⟨t, (congrArg (andThen · _) hexec).trans ht, hcollect, hcur, hcnt, hlen⟩

end Sys2Proof.Proofs
end

section
/-! DECODE as a function of the whole byte sequence (R197, R201). A byte sequence is complete chunks and what is left
after them, and what is left says whether DECODE succeeds. -/

namespace Sys2Proof.Proofs

open Sys2Proof.Machine Sys2Proof.Laws

/-! ### Complete chunks and what is left after them (R96, R101) -/

theorem cases_of_isChunk {i : Instr} (hi : isChunk i = true) :
    (∃ count payload, i = .lit count payload ∧ payload.length = count.toNat) ∨ ∃ count v, i = .run count v := by
  cases i with
  | lit count payload => exact .inl ⟨count, payload, rfl, by simpa [isChunk, Instr.wf] using hi⟩
  | run count v => exact .inr ⟨count, v, rfl⟩
  | byte p b => cases hi
  | endMsg p => cases hi
  | byteDo b => cases hi
  | endDo err => cases hi

/-- What DECODE gives for the output `out`: an error where there is a cause. -/
def answer : Option Cause → List Byte → DecodeResult
  | none, out => .ok out
  | some c, out => .err c out

/-- The bytes left after the last complete chunk of a sequence, the cause for which they fail, and those of them that
are put out. -/
inductive Leftover : List Byte → Option Cause → List Byte → Prop
  | none : Leftover [] none []
  | run {h : Byte} (hf : headerFlag h = true) : Leftover [h] (some .truncRun) []
  | lit {h : Byte} {p : List Byte} (hf : headerFlag h = false) (hp : p.length < (headerCount h).toNat) :
      Leftover (h :: p) (some .truncLit) p

/-- A chunk read off the front of a byte sequence is its first bytes. -/
theorem eq_append_of_decodeChunk {s more : List Byte} {i : Instr} (h : decodeChunk s = .ok (i, more)) :
    s = chunkBytes i ++ more := by
  cases s with
  | nil => cases h
  | cons b rest =>
    cases hf : headerFlag b with
    | true =>
      cases rest with
      | nil => simp [decodeChunk, hf] at h
      | cons v more' =>
        cases (decodeChunk_run hf v more').symm.trans h
        simp [chunkBytes, encode, runHeader_headerCount hf]
    | false =>
      simp only [decodeChunk, hf, Bool.false_eq_true, if_false] at h
      split_ifs at h
      cases h
      simp [chunkBytes, encode, litHeader_headerCount hf]

/-- Where no chunk can be read, the bytes are left over. -/
theorem leftover_of_decodeChunk {s : List Byte} {r : Reject} (h : decodeChunk s = .error r) :
    ∃ c extra, Leftover s c extra := by
  cases s with
  | nil => exact ⟨_, _, .none⟩
  | cons b rest =>
    cases hf : headerFlag b with
    | true =>
      cases rest with
      | nil => exact ⟨_, _, .run hf⟩
      | cons v more => cases (decodeChunk_run hf v more).symm.trans h
    | false =>
      simp only [decodeChunk, hf, Bool.false_eq_true, if_false] at h
      split_ifs at h with hlt
      exact ⟨_, _, .lit hf hlt⟩

/-- Every byte sequence is complete chunks and what is left after them. -/
theorem exists_leftover (s : List Byte) : ∃ cs tail c extra,
    (∀ i ∈ cs, isChunk i = true) ∧ Leftover tail c extra ∧ s = streamBytes cs ++ tail := by
  cases hd : decodeChunk s with
  | error r =>
    obtain ⟨c, extra, hl⟩ := leftover_of_decodeChunk hd
    exact ⟨[], s, c, extra, by simp, hl, rfl⟩
  | ok im =>
    obtain ⟨i, more⟩ := im
    have hs := eq_append_of_decodeChunk hd
    have hi := decodeChunk_isChunk hd
    have hshorter : more.length < s.length := by
      have hpos := chunkBytes_length_pos hi
      rw [hs, List.length_append]
      omega
    obtain ⟨cs, tail, c, extra, hcs, hl, hmore⟩ := exists_leftover more
    exact ⟨i :: cs, tail, c, extra, List.forall_mem_cons.2 ⟨hi, hcs⟩, hl, by simp [hs, hmore, streamBytes]⟩
termination_by s.length

/-! ### What DECODE makes of them (R197, R198) -/

theorem decodeLoop_leftover {tail extra : List Byte} {c : Option Cause} (h : Leftover tail c extra) {n : Nat}
    (hn : tail.length ≤ n) (out : List Byte) : decodeLoop n tail out = answer c (out ++ extra) := by
  cases h with
  | none => cases n <;> simp [decodeLoop, answer]
  | run hf =>
    obtain ⟨n, rfl⟩ := Nat.exists_eq_add_of_le' hn
    simp [decodeLoop, hf, answer]
  | lit hf hp =>
    obtain ⟨n, rfl⟩ := Nat.exists_eq_add_of_le' ((Nat.le_add_left 1 _).trans hn)
    simp [decodeLoop, hf, hp, answer]

theorem decodeBytes_of_leftover {cs : List Instr} {tail extra : List Byte} {c : Option Cause}
    (hcs : ∀ i ∈ cs, isChunk i = true) (h : Leftover tail c extra) :
    decodeBytes (streamBytes cs ++ tail) = answer c (cs.flatMap chunkOutput ++ extra) := by
  obtain ⟨n, hn⟩ := Nat.exists_eq_add_of_le' (length_le_streamBytes cs hcs)
  have hlen : (streamBytes cs ++ tail).length = tail.length + n + cs.length := by rw [List.length_append]; omega
  rw [decodeBytes, hlen, decodeLoop_stream cs hcs, List.nil_append, decodeLoop_leftover h (Nat.le_add_right _ _)]

theorem answer_inj {c c' : Option Cause} {out out' : List Byte} (h : answer c out = answer c' out') :
    c = c' ∧ out = out' := by
  cases c <;> cases c' <;> cases h <;> exact ⟨rfl, rfl⟩

/-- What is left after the complete chunks says what DECODE gives. -/
theorem decodeBytes_eq_answer_iff {s out : List Byte} {c : Option Cause} : decodeBytes s = answer c out ↔
    ∃ cs tail extra, (∀ i ∈ cs, isChunk i = true) ∧ Leftover tail c extra ∧ s = streamBytes cs ++ tail ∧
      out = cs.flatMap chunkOutput ++ extra := by
  constructor
  · intro h
    obtain ⟨cs, tail, c', extra, hcs, hl, rfl⟩ := exists_leftover s
    obtain ⟨rfl, hout⟩ := answer_inj (h.symm.trans (decodeBytes_of_leftover hcs hl))
    exact ⟨cs, tail, extra, hcs, hl, rfl, hout⟩
  · rintro ⟨cs, tail, extra, hcs, hl, rfl, rfl⟩
    exact decodeBytes_of_leftover hcs hl

/-- Settles O55: each case is one kind of leftover. -/
theorem decodeThreeCases : Obligations.DecodeThreeCases := by
  intro s out
  simp only [← headerCount_eq_extractLsb']
  refine ⟨(decodeBytes_eq_answer_iff (c := none)).trans ⟨?_, ?_⟩,
    (decodeBytes_eq_answer_iff (c := some .truncRun)).trans ⟨?_, ?_⟩,
    (decodeBytes_eq_answer_iff (c := some .truncLit)).trans ⟨?_, ?_⟩⟩
  · rintro ⟨cs, _, _, hcs, ⟨⟩, rfl, rfl⟩
    exact ⟨cs, hcs, List.append_nil _, List.append_nil _⟩
  · rintro ⟨cs, hcs, rfl, rfl⟩
    exact ⟨cs, [], [], hcs, .none, by simp, by simp⟩
  · rintro ⟨cs, _, _, hcs, _ | hf, rfl, rfl⟩
    exact ⟨cs, _, hcs, hf, rfl, List.append_nil _⟩
  · rintro ⟨cs, h, hcs, hf, rfl, rfl⟩
    exact ⟨cs, [h], [], hcs, .run hf, rfl, by simp⟩
  · rintro ⟨cs, _, p, hcs, _ | _ | ⟨hf, hp⟩, rfl, rfl⟩
    exact ⟨cs, _, p, hcs, hf, hp, rfl, rfl⟩
  · rintro ⟨cs, h, p, hcs, hf, hp, rfl, rfl⟩
    exact ⟨cs, h :: p, p, hcs, .lit hf hp, rfl, rfl⟩

/-! ### The expansion of DECODE (R201) -/

/-- A chunk puts out at most 127 bytes for every two of its own. -/
theorem length_chunkOutput_le {i : Instr} (hi : isChunk i = true) :
    (chunkOutput i).length ≤ 127 * ((chunkBytes i).length / 2) := by
  rcases cases_of_isChunk hi with ⟨count, payload, rfl, hl⟩ | ⟨count, v, rfl⟩
  · have hmax := Pending.count_le_cap count
    simp only [chunkOutput, chunkBytes, encode, List.length_cons]
    omega
  · simpa [chunkOutput, chunkBytes, encode] using Pending.count_le_cap count

theorem length_flatMap_chunkOutput_le (cs : List Instr) (hcs : ∀ i ∈ cs, isChunk i = true) :
    (cs.flatMap chunkOutput).length ≤ 127 * ((streamBytes cs).length / 2) := by
  induction cs with
  | nil => exact Nat.zero_le _
  | cons i cs ih =>
    obtain ⟨hi, hcs⟩ := List.forall_mem_cons.1 hcs
    have hchunk := length_chunkOutput_le hi
    have hrest := ih hcs
    simp only [streamBytes, List.flatMap_cons, List.length_append] at hrest ⊢
    omega

theorem standsFor_replicate_run (n : Nat) (count : Count) (v : Byte) :
    StandsFor (List.replicate n (.run count v)) (List.replicate (count.toNat * n) v) := by
  induction n with
  | zero => exact standsFor_nil
  | succ n ih =>
    rw [Nat.mul_succ, List.replicate_succ', ← List.replicate_append_replicate]
    exact ih.append (standsFor_run count v)

/-- Settles O56: the bound holds chunk by chunk, and a chunk RUN 127 reaches it. -/
theorem decodeExpansionBound : Obligations.DecodeExpansionBound := by
  refine ⟨fun s out h => ?_, fun n v => decodeBytes_of_standsFor (standsFor_replicate_run n 127 v)⟩
  obtain ⟨cs, hcs, rfl, rfl⟩ := (decodeThreeCases s out).1.1 h
  exact length_flatMap_chunkOutput_le cs hcs

end Sys2Proof.Proofs
end

section
/-! A chunk at level S (R193, R194), whole or cut short by `END`: the transfers it is made of, the state they lead to,
and the run of the decoder that they are. -/

namespace Sys2Proof.Proofs

open Sys2Proof.Machine Sys2Proof.Laws

/-! ### Transfers one after the other -/

/-- The instructions `is`, run in turn, lead from `s` to `t`, and are a run of the decoder that takes the tokens
`ts`. -/
structure Transfers (is : List Instr) (ts : List Token) (s t : State) : Prop where
  exec : execAll is s = .next t
  run : decUnit.Run ts (decSide s) (decSide t)

section
variable {s t u : State}

theorem Transfers.trans {is js : List Instr} {ts us : List Token} (h : Transfers is ts s t) (h' : Transfers js us t u) :
    Transfers (is ++ js) (ts ++ us) s u :=
  ⟨by rw [execAll_append, h.exec, andThen_next, h'.exec], h.run.trans h'.run⟩

theorem transfers_of_takeDi {tok : Token} (hr : s.dec.inReady = true) (h : takeDi tok s = .next t) :
    Transfers [tok.on .di] [tok] s t :=
  ⟨by rw [execAll_singleton, exec_on_di, h], .take (takes_of_takeDi hr h) (.nil _)⟩

theorem transfers_of_putDo {v : DoToken} (ho : s.dec.offer = some v) (h : putDo v s = .next t) :
    Transfers [v.onDo] [] s t := by
  have ha : acceptDo v s = .next t := by simp only [acceptDo, ho, if_true, h]
  exact ⟨by rw [execAll_singleton, exec_onDo, ha], (puts_of_acceptDo (decoder_inReady_of_offer ho) ha).run⟩

theorem decoder_inReady_of_hdr {d : Decoder} (hp : d.dphase = .hdr) : d.inReady = true := by simp [Decoder.inReady, hp]

/-! ### The payload of a literal chunk (R230, R232) -/

/-- The payload bytes `bs` have passed through the decoder. -/
def afterPayload (bs : List Byte) (s : State) : State :=
  { s with
    dec := { s.dec with
      dcount := s.dec.dcount - BitVec.ofNat 7 bs.length, dval := bs.getLast?.getD s.dec.dval
      dphase := if s.dec.dcount - BitVec.ofNat 7 bs.length = 0 then .hdr else .litIn }
    decK := s.decK + bs.length
    env := { s.env with doOut := s.env.doOut ++ bs.map DoToken.byte } }

theorem afterPayload_nil (hp : s.dec.dphase = if s.dec.dcount = 0 then .hdr else .litIn) : afterPayload [] s = s := by
  have hsub : s.dec.dcount - BitVec.ofNat 7 ([] : List Byte).length = s.dec.dcount := BitVec.sub_zero _
  simp only [afterPayload, hsub, ← hp, List.map_nil, List.append_nil]
  rfl

theorem afterPayload_cons (b : Byte) (bs : List Byte) (s : State) :
    afterPayload bs (afterPayload [b] s) = afterPayload (b :: bs) s := by
  have hcount : s.dec.dcount - 1#7 - BitVec.ofNat 7 bs.length = s.dec.dcount - BitVec.ofNat 7 (bs.length + 1) := by
    bv_omega
  simp [afterPayload, hcount, List.getLast?_cons, Nat.add_assoc, Nat.add_comm 1]

theorem transfers_litByte (hp : s.dec.dphase = .litIn) (h0 : s.dec.dcount ≠ 0) (b : Byte) :
    Transfers [.byte .di b, .byteDo b] [.byte b] s (afterPayload [b] s) := by
  have hin := transfers_of_takeDi (by simp [Decoder.inReady, hp]) (takeDi_litIn (b := b) hp)
  have hout := transfers_of_putDo (s := { s with dec := decLitIn b s.dec, decK := s.decK + 1 }) (v := .byte b) rfl
    (putDo_litOut rfl h0)
  have hlast : s.dec.dcount - 1#7 = 0#7 ↔ s.dec.dcount = 1#7 := sub_eq_zero
  have hend : outputDo (.byte b) { s with dec := decLitOut (decLitIn b s.dec), decK := s.decK + 1 } =
      afterPayload [b] s := by
    by_cases h1 : s.dec.dcount = 1#7 <;> simp [outputDo, decLitOut, decLitIn, afterPayload, hlast, h1]
  rw [← hend]
  exact hin.trans hout

/-- Payload bytes pass through one by one, as many as the chunk has or fewer. -/
theorem transfers_payload (bs : List Byte) : ∀ {s : State},
    s.dec.dphase = (if s.dec.dcount = 0 then .hdr else .litIn) → bs.length ≤ s.dec.dcount.toNat →
    Transfers (bs.flatMap fun b => [.byte .di b, .byteDo b]) (bs.map .byte) s (afterPayload bs s) := by
  induction bs with
  | nil =>
    intro s hp _
    rw [afterPayload_nil hp]
    exact ⟨rfl, .nil _⟩
  | cons b bs ih =>
    intro s hp hle
    rw [List.length_cons] at hle
    have h0 : s.dec.dcount ≠ 0 := by rintro h0; simp [h0] at hle
    have hpred : bs.length ≤ (s.dec.dcount - 1#7).toNat := by bv_omega
    rw [← afterPayload_cons]
    exact (transfers_litByte (hp.trans (if_neg h0)) h0 b).trans (ih rfl hpred)

/-- The header of a literal chunk and payload bytes, as many as it counts or fewer (R194). -/
theorem transfers_lit (hp : s.dec.dphase = .hdr) {count : Count} {payload : List Byte}
    (hle : payload.length ≤ count.toNat) :
    Transfers (.byte .di (litHeader count) :: payload.flatMap fun b => [.byte .di b, .byteDo b])
      ((litHeader count :: payload).map .byte) s
      (afterPayload payload { s with
        dec := { s.dec with dcount := count, dphase := if count = 0 then .hdr else .litIn }, decK := s.decK + 1 }) :=
  (transfers_of_takeDi (decoder_inReady_of_hdr hp) (takeDi_litHeader hp count)).trans
    (transfers_payload payload rfl hle)

/-! ### A chunk cut short (R193, R194) -/

theorem transfers_of_decRuleIn {tok : Token} {r : DecRule} (hr : s.dec.inReady = true)
    (h : decRuleIn tok s.dec = some r) : Transfers [tok.on .di] [tok] s
      { s with dec := decApply r (tokenByte tok) s.dec, decK := positionAfter tok s.decK } :=
  transfers_of_takeDi hr (takeDi_steps hr (by rw [h]; rfl))

/-- `END` at a chunk boundary (R225). -/
theorem transfers_eom_hdr (hp : s.dec.dphase = .hdr) :
    Transfers [.endMsg .di] [.eom] s { s with dec := decHdrEnd s.dec, decK := 0 } :=
  transfers_of_decRuleIn (tok := .eom) (r := .hdrEnd) (decoder_inReady_of_hdr hp) (by simp only [decRuleIn, hp])

/-- `END` where a value byte is required (R228). -/
theorem transfers_eom_runVal (hp : s.dec.dphase = .runVal) :
    Transfers [.endMsg .di] [.eom] s { s with dec := raiseMalformed .truncRun s.dec, decK := 0 } :=
  transfers_of_decRuleIn (tok := .eom) (r := .runTrunc) (by simp [Decoder.inReady, hp]) (by simp only [decRuleIn, hp])

/-- `END` where a payload byte is required (R231). -/
theorem transfers_eom_litIn (hp : s.dec.dphase = .litIn) :
    Transfers [.endMsg .di] [.eom] s { s with dec := raiseMalformed .truncLit s.dec, decK := 0 } :=
  transfers_of_decRuleIn (tok := .eom) (r := .litTrunc) (by simp [Decoder.inReady, hp]) (by simp only [decRuleIn, hp])

/-- The header of a run chunk, then `END`. -/
theorem transfers_runTrunc (hp : s.dec.dphase = .hdr) (count : Count) :
    Transfers [.byte .di (runHeader count), .endMsg .di] [.byte (runHeader count), .eom] s
      { s with dec := raiseMalformed .truncRun { s.dec with dcount := count, dphase := .runVal }, decK := 0 } :=
  (transfers_of_takeDi (decoder_inReady_of_hdr hp) (takeDi_runHeader hp count)).trans (transfers_eom_runVal rfl)

/-- The header of a literal chunk, fewer payload bytes than it counts, then `END`. -/
theorem transfers_litTrunc (hp : s.dec.dphase = .hdr) {count : Count} {payload : List Byte}
    (hlt : payload.length < count.toNat) :
    Transfers (.byte .di (litHeader count) :: (payload.flatMap fun b => [.byte .di b, .byteDo b]) ++ [.endMsg .di])
      ((litHeader count :: payload).map .byte ++ [.eom]) s
      { s with
        dec := raiseMalformed .truncLit { s.dec with
          dcount := count - BitVec.ofNat 7 payload.length, dval := payload.getLast?.getD s.dec.dval }
        decK := 0
        env := { s.env with doOut := s.env.doOut ++ payload.map DoToken.byte } } := by
  have hleft : ¬ count - BitVec.ofNat 7 payload.length = 0 := by bv_omega
  exact (transfers_lit hp hlt.le).trans (transfers_eom_litIn (if_neg hleft))

end

/-- `raiseMalformed` as R285 writes it. -/
theorem raiseMalformed_eq (c : Cause) (d : Decoder) :
    raiseMalformed c d = { d with
      decFaultCode := if d.decFault = false then causeCode c else d.decFaultCode
      decFault := true, endErr := true, dphase := .endOut } := by
  cases h : d.decFault <;> simp [raiseMalformed, setEndErr, recordFault, h]

/-- Settles O29: the header and the value are taken and the copies put out, or `END` is taken for the value. -/
theorem runChunkEmitsCopies : Obligations.RunChunkEmitsCopies := fun count v s hp =>
  ⟨exec_run_of_hdr hp count v, (transfers_runTrunc hp count).exec.trans (by rw [raiseMalformed_eq]; rfl)⟩

/-- Settles O30: the payload passes through byte by byte, up to its end or to `END`. -/
theorem litChunkEmitsPayload : Obligations.LitChunkEmitsPayload := fun count payload s hp =>
  ⟨exec_lit_of_hdr hp, fun hlt => (transfers_litTrunc hp hlt).exec.trans (by rw [raiseMalformed_eq]; rfl)⟩

/-- Settles O31: the two guards of the chunk instructions. -/
theorem chunkNeedsBoundary : Obligations.ChunkNeedsBoundary := fun _ _ _ _ =>
  ⟨fun hp => if_neg hp, fun hl hp => (if_pos hl).trans (if_neg hp), fun hl => if_neg hl⟩

end Sys2Proof.Proofs
end

section
/-! DECODE at level S (R202, R237). From a chunk boundary to the next a chunk is a run of the decoder that takes the
chunk's bytes, so a whole message is one: its complete chunks, what is left after them, and `END`. A host that feeds the
message makes this run, a whole chunk at a time where it can, and every run of edges is fixed by the tokens it takes
(R66). -/

namespace Sys2Proof.Proofs

open Sys2Proof.Machine Sys2Proof.Laws

/-- A run that begins with the tokens of another goes on from where that one ends. -/
theorem PortUnit.Run.of_append {α β : Type} {U : PortUnit α β} {x y z : Side α β} {us ts : List Token}
    (h : U.Run us x z) (hz : U.ready z.reg = true) (hy : U.ready y.reg = true) :
    U.Run (us ++ ts) x y → U.Run ts z y := by
  induction h with
  | nil x => exact id
  | take h _ ih =>
    intro h'
    cases h' with
    | take h1 hr => cases h.unique h1; exact ih hz hr
    | put h1 _ => exact absurd h.ready (by simp [h1.ready])
  | @put u us x _ _ h _ ih =>
    intro h'
    generalize hl : us ++ ts = l at h'
    cases h' with
    | nil => simp [h.ready] at hy
    | take h1 _ => exact absurd h1.ready (by simp [h.ready])
    | put h1 hr => cases h.unique h1; exact ih hz (hl ▸ hr)

/-! ### A chunk is a run of the decoder (R237) -/

section
variable {s t : State}

theorem run_of_putCopies (n : Nat) : ∀ {s : State}, putCopies n s = .next t →
    decUnit.Run [] (decSide s) (decSide t) := by
  induction n with
  | zero => intro s h; cases h; exact .nil _
  | succ n ih =>
    intro s h
    rw [putCopies] at h
    cases ho : s.dec.offer with
    | none => simp [ho] at h
    | some u =>
      simp only [ho] at h
      obtain ⟨a, ha, h⟩ := andThen_eq_next.1 h
      exact (transfers_of_putDo ho ha).run.trans (ih h)

theorem run_of_exec_run {count : Count} {v : Byte} (hp : s.dec.dphase = .hdr) (h : exec (.run count v) s = .next t) :
    decUnit.Run [.byte (runHeader count), .byte v] (decSide s) (decSide t) := by
  have hx : execRun count v s = .next t := h
  have hhdr := takeDi_runHeader hp count
  rw [execRun, if_pos hp, hhdr, andThen_next] at hx
  obtain ⟨a, hval, hcopies⟩ := andThen_eq_next.1 hx
  exact .take (takes_of_takeDi (decoder_inReady_of_hdr hp) hhdr)
    (.take (takes_of_takeDi rfl hval) (run_of_putCopies _ hcopies))

theorem run_of_exec_lit {count : Count} {payload : List Byte} (hp : s.dec.dphase = .hdr)
    (hl : payload.length = count.toNat) (h : exec (.lit count payload) s = .next t) :
    decUnit.Run ((litHeader count :: payload).map .byte) (decSide s) (decSide t) := by
  have hleft : count - BitVec.ofNat 7 payload.length = 0#7 := by
    rw [hl, BitVec.ofNat_toNat, BitVec.setWidth_eq]
    exact sub_self count
  have hrun := (transfers_lit hp hl.le).run
  cases (exec_lit_of_hdr hp hl).symm.trans h
  have hend : decSide (afterPayload payload { s with
      dec := { s.dec with dcount := count, dphase := if count = 0 then .hdr else .litIn }, decK := s.decK + 1 }) =
      ⟨{ s.dec with dcount := 0, dval := payload.getLast?.getD s.dec.dval }, s.decK + (1 + count.toNat),
        s.env.doOut ++ payload.map DoToken.byte⟩ := by
    simp [decSide, afterPayload, hleft, ← hp, ← hl, Nat.add_assoc]
  rw [hend] at hrun
  exact hrun

/-- A chunk that runs as one instruction is a run that takes its bytes. -/
theorem run_of_exec_chunk {i : Instr} (hi : isChunk i = true) (hp : s.dec.dphase = .hdr) (h : exec i s = .next t) :
    decUnit.Run ((chunkBytes i).map .byte) (decSide s) (decSide t) := by
  rcases cases_of_isChunk hi with ⟨count, payload, rfl, hl⟩ | ⟨count, v, rfl⟩
  · exact run_of_exec_lit hp hl h
  · exact run_of_exec_run hp h

end

/-! ### A whole message is a run of the decoder -/

/-- From `s` to `t` the bytes `out` are put out, and of the decoder's registers only `dcount` and `dval` change. -/
structure Passed (out : List Byte) (s t : State) : Prop where
  dec : ∃ n v, t.dec = { s.dec with dcount := n, dval := v }
  doOut : t.env.doOut = s.env.doOut ++ out.map DoToken.byte

section
variable {s t u : State}

theorem passed_refl (s : State) : Passed [] s s := ⟨⟨_, _, rfl⟩, (List.append_nil _).symm⟩

theorem Passed.trans {as bs : List Byte} (h : Passed as s t) (h' : Passed bs t u) : Passed (as ++ bs) s u := by
  obtain ⟨⟨n, v, hdec⟩, hout⟩ := h
  obtain ⟨⟨n', v', hdec'⟩, hout'⟩ := h'
  exact ⟨⟨n', v', by rw [hdec', hdec]⟩, by rw [hout', hout, List.map_append, List.append_assoc]⟩

theorem Passed.hdr {out : List Byte} (h : Passed out s t) (hp : s.dec.dphase = .hdr) : t.dec.dphase = .hdr := by
  obtain ⟨⟨n, v, hdec⟩, -⟩ := h
  rw [hdec]
  exact hp

theorem exec_chunk_passed {i : Instr} (hi : isChunk i = true) (hp : s.dec.dphase = .hdr) :
    ∃ t, exec i s = .next t ∧ Passed (chunkOutput i) s t := by
  rcases cases_of_isChunk hi with ⟨count, payload, rfl, hl⟩ | ⟨count, v, rfl⟩
  · exact ⟨_, exec_lit_of_hdr hp hl, ⟨_, _, rfl⟩, rfl⟩
  · exact ⟨_, exec_run_of_hdr hp count v, ⟨_, _, rfl⟩, by simp [chunkOutput]⟩

/-- Complete chunks are taken and their output is put out. -/
theorem run_stream (cs : List Instr) (hcs : ∀ i ∈ cs, isChunk i = true) : ∀ {s : State}, s.dec.dphase = .hdr →
    ∃ t, decUnit.Run ((streamBytes cs).map .byte) (decSide s) (decSide t) ∧ Passed (cs.flatMap chunkOutput) s t := by
  induction cs with
  | nil => intro s _; exact ⟨s, .nil _, passed_refl s⟩
  | cons i cs ih =>
    intro s hp
    obtain ⟨hi, hcs⟩ := List.forall_mem_cons.1 hcs
    obtain ⟨a, hexec, ha⟩ := exec_chunk_passed hi hp
    obtain ⟨t, hrun, ht⟩ := ih hcs (ha.hdr hp)
    refine ⟨t, ?_, ha.trans ht⟩
    have hstream := (run_of_exec_chunk hi hp hexec).trans hrun
    rw [← List.map_append] at hstream
    exact hstream

/-- The decoder when `END` has been taken: the exception is raised where there is a cause (R225, R228, R231). -/
def ended : Option Cause → Decoder → Decoder
  | none, d => decHdrEnd d
  | some c, d => raiseMalformed c d

/-- What is left after the complete chunks is taken with `END`. -/
theorem run_leftover {tail extra : List Byte} {c : Option Cause} (h : Leftover tail c extra)
    (hp : s.dec.dphase = .hdr) : ∃ a t, decUnit.Run (messageTokens tail) (decSide s) (decSide t) ∧
      Passed extra s a ∧ t = { a with dec := ended c a.dec, decK := 0 } := by
  cases h with
  | none => exact ⟨s, _, (transfers_eom_hdr hp).run, passed_refl s, rfl⟩
  | @run b hf =>
    have hrun := (transfers_runTrunc hp (headerCount b)).run
    rw [runHeader_headerCount hf] at hrun
    exact ⟨{ s with dec := { s.dec with dcount := headerCount b } }, _, hrun,
      ⟨⟨_, _, rfl⟩, (List.append_nil _).symm⟩, rfl⟩
  | @lit b _ hf hlt =>
    have hrun := (transfers_litTrunc hp hlt).run
    rw [litHeader_headerCount hf] at hrun
    exact ⟨{ s with
      dec := { s.dec with
        dcount := headerCount b - BitVec.ofNat 7 extra.length, dval := extra.getLast?.getD s.dec.dval }
      env := { s.env with doOut := s.env.doOut ++ extra.map DoToken.byte } }, _, hrun, ⟨⟨_, _, rfl⟩, rfl⟩, rfl⟩

/-- `END(end_err)` goes out (R233). -/
theorem puts_end {d : Decoder} (hp : d.dphase = .endOut) (k : Nat) (out : List DoToken) :
    decUnit.Puts (.eom d.endErr) ⟨d, k, out⟩ ⟨endMessage d, k, out ++ [.eom d.endErr]⟩ :=
  ⟨by simp [decUnit, Decoder.inReady, hp], by simp [decUnit, Decoder.offer, hp],
    by simp [decUnit, decRuleOut, hp, decStep, decApply, decEndOut], rfl, rfl⟩

theorem ended_dphase (c : Option Cause) (d : Decoder) : (ended c d).dphase = .endOut := by cases c <;> rfl

theorem ended_endErr {c : Option Cause} {d : Decoder} (h : d.endErr = false) : (ended c d).endErr = c.isSome := by
  cases c with
  | none => exact h
  | some c => rfl

/-- R202 from what the registers and the tokens put out are after the message. -/
theorem decodesMessage_of_answer {body out : List Byte} {c : Option Cause} (h : decodeBytes body = answer c out)
    {n : Count} {v : Byte} (hdec : t.dec = endMessage (ended c { s.dec with dcount := n, dval := v }))
    (hout : t.env.doOut = s.env.doOut ++ out.map DoToken.byte ++ [.eom c.isSome]) (hk : t.decK = 0) :
    DecodesMessage body s t := by
  refine ⟨fun out' h' => ?_, fun c' out' h' => ?_, by rw [hdec]; rfl, hk⟩
  · obtain ⟨rfl, rfl⟩ := answer_inj (c' := none) (h.symm.trans h')
    exact ⟨hout, by rw [hdec]; rfl, by rw [hdec]; rfl⟩
  · obtain ⟨rfl, rfl⟩ := answer_inj (c' := some c') (h.symm.trans h')
    exact ⟨hout, by rw [hdec]; rfl, by rw [hdec]; rfl⟩

/-- An idle decoder takes the whole message and answers it with DECODE of its body (R202). -/
theorem run_message_of_decIdle (body : List Byte) (hi : DecInv s.dec) (h : DecIdle s.dec) :
    ∃ y : Side Decoder DoToken, decUnit.Run (messageTokens body) (decSide s) y ∧ y.reg.dphase = .hdr ∧
      ∀ t : State, decSide t = y → DecodesMessage body s t := by
  obtain ⟨cs, tail, c, extra, hcs, hl, rfl⟩ := exists_leftover body
  obtain ⟨b, hstream, hb⟩ := run_stream cs hcs h
  obtain ⟨a, e, htail, ha, rfl⟩ := run_leftover hl (hb.hdr h)
  obtain ⟨⟨n, v, hdec⟩, hout⟩ := hb.trans ha
  have herr : (ended c a.dec).endErr = c.isSome := ended_endErr (by rw [hdec]; exact hi.endErr (by simp [h]))
  have hrun := (hstream.trans htail).trans (puts_end (ended_dphase c a.dec) 0 a.env.doOut).run
  rw [List.append_nil, herr] at hrun
  refine ⟨_, by simpa [messageTokens] using hrun, rfl, fun t ht => ?_⟩
  obtain ⟨hreg, hk, hdo⟩ := Side.ext_iff.1 ht
  exact decodesMessage_of_answer (decodeBytes_of_leftover hcs hl) (hreg.trans (by rw [hdec])) (hdo.trans (by rw [hout]))
    hk

end

/-! ### A host that feeds the decoder -/

section
variable {s : State} {words : List TokenWord} {rest : List HostEvent}

/-- With no word left and nothing offered, the host goes on to what is next on its agenda. -/
theorem step_feedDec_nil (ha : s.env.agenda = .feedDec [] :: rest) (hr : s.dec.inReady = true) :
    step s = .next (advance rest s) := by
  refine step_of_fetch (is := []) ?_
  have hchunk : decodeChunk (leadingBytes []) = .error .emptyStream := rfl
  simp only [fetch, ha, feedDecFetch, hr, hchunk, feedDecToken, if_true, ite_self]

/-- A feeding host has the next token taken where there is no chunk to run. -/
theorem step_feedDec_takes {t : Token} {y : Side Decoder DoToken} (h : decUnit.Takes t (decSide s) y)
    (ha : s.env.agenda = .feedDec (tokenWord t :: words) :: rest)
    (hchunk : s.dec.dphase = .hdr → ∃ r, decodeChunk (leadingBytes (tokenWord t :: words)) = .error r) :
    ∃ a, step s = .next a ∧ a.env.agenda = .feedDec words :: rest ∧ decSide a = y ∧ encSide a = encSide s := by
  have hr : s.dec.inReady = true := h.ready
  have hf : fetch s = ⟨false, [decodeToken .di (tokenWord t)], advance (.feedDec words :: rest) s⟩ := by
    simp only [fetch, ha, feedDecFetch, hr, if_true]
    split_ifs with hp
    · obtain ⟨r, hchunk⟩ := hchunk hp
      simp only [hchunk, feedDecToken]
    · rfl
  have hstep := step_of_fetch hf
  rw [execAll_singleton, decodeToken_tokenWord, exec_on_di,
    takeDi_steps (s := advance (.feedDec words :: rest) s) hr h.step] at hstep
  exact ⟨_, hstep, rfl, Side.ext rfl h.pos.symm h.out.symm, rfl⟩

/-- A feeding host accepts what is offered. -/
theorem step_feedDec_puts {u : DoToken} {y : Side Decoder DoToken} (h : decUnit.Puts u (decSide s) y)
    (ha : s.env.agenda = .feedDec words :: rest) :
    ∃ a, step s = .next a ∧ a.env.agenda = .feedDec words :: rest ∧ decSide a = y ∧ encSide a = encSide s := by
  have hr : s.dec.inReady = false := h.ready
  have ho : s.dec.offer = some u := h.offer
  have hf : fetch s = ⟨false, doInstr s, advance (.feedDec words :: rest) s⟩ := by
    simp [fetch, ha, feedDecFetch, hr]
  have hstep := step_of_fetch hf
  rw [doInstr_offer ho, execAll_singleton, exec_onDo, acceptDo] at hstep
  simp only [advance_dec, ho, if_true] at hstep
  rw [putDo_steps (s := advance (.feedDec words :: rest) s) u h.step] at hstep
  exact ⟨_, hstep, rfl, Side.ext rfl h.pos.symm h.out.symm, rfl⟩

theorem decode_chunkBytes {i : Instr} (hi : isChunk i = true) : decode (.chunk (chunkBytes i)) = .ok i := by
  rcases cases_of_isChunk hi with ⟨count, payload, rfl, hl⟩ | ⟨count, v, rfl⟩
  · exact decodeEncodeRoundTrip (.lit count payload) hi
  · exact decodeEncodeRoundTrip (.run count v) rfl

theorem isEncInstr_of_isChunk {i : Instr} (hi : isChunk i = true) : isEncInstr i = false := by
  rcases cases_of_isChunk hi with ⟨count, payload, rfl, hl⟩ | ⟨count, v, rfl⟩ <;> rfl

/-- At a chunk boundary a feeding host has a whole chunk run. -/
theorem step_feedDec_chunk {i : Instr} (hi : isChunk i = true) (hp : s.dec.dphase = .hdr)
    (ha : s.env.agenda = .feedDec (byteWords (chunkBytes i) ++ words) :: rest) :
    ∃ a, step s = .next a ∧ a.env.agenda = .feedDec words :: rest ∧ encSide a = encSide s ∧ a.dec.dphase = .hdr ∧
      decUnit.Run ((chunkBytes i).map .byte) (decSide s) (decSide a) := by
  have hstep := step_of_fetch (fetch_feedDec_chunk ha hp (decode_chunkBytes hi))
  obtain ⟨a, hexec, hpassed⟩ := exec_chunk_passed (s := advance (.feedDec words :: rest) s) hi hp
  rw [execAll_singleton, hexec] at hstep
  obtain ⟨henc, hk, hout, hagenda, -⟩ := exec_dec_frame (isEncInstr_of_isChunk hi) hexec
  exact ⟨a, hstep, hagenda, encSide_eq.2 ⟨henc, hk, hout⟩, hpassed.hdr hp,
    run_of_exec_chunk (s := advance (.feedDec words :: rest) s) hi hp hexec⟩

end

/-- The bytes in front of the first `END` are tokens in front. -/
theorem exists_eq_leadingBytes_append (ts : List Token) :
    ∃ us, ts = (leadingBytes (ts.map tokenWord)).map .byte ++ us := by
  induction ts with
  | nil => exact ⟨[], rfl⟩
  | cons t ts ih =>
    cases t with
    | byte b =>
      obtain ⟨us, hus⟩ := ih
      refine ⟨us, ?_⟩
      simp only [List.map_cons, leadingBytes, tokenWord, lineEos_tokenLines, lineData_tokenLines, Bool.false_eq_true,
        if_false, List.cons_append, ← hus]
    | eom => exact ⟨.eom :: ts, by simp [leadingBytes, tokenWord]⟩

/-- Tokens begin with a whole chunk, or their words have none to run. -/
theorem begins_with_chunk_or_not (ts : List Token) :
    (∃ i us, isChunk i = true ∧ ts = (chunkBytes i).map .byte ++ us) ∨
      ∃ r, decodeChunk (leadingBytes (ts.map tokenWord)) = .error r := by
  cases hd : decodeChunk (leadingBytes (ts.map tokenWord)) with
  | error r => exact .inr ⟨r, rfl⟩
  | ok im =>
    obtain ⟨i, more⟩ := im
    obtain ⟨us, hus⟩ := exists_eq_leadingBytes_append ts
    rw [eq_append_of_decodeChunk hd, List.map_append, List.append_assoc] at hus
    exact .inl ⟨i, _, decodeChunk_isChunk hd, hus⟩

/-- A run of the decoder is made by a host that feeds it the tokens and never stalls, a whole chunk at a time where it
can; nothing else moves. -/
theorem core_run_feedDec {y : Side Decoder DoToken} (hy : y.reg.inReady = true) {rest : List HostEvent} (m : Nat) :
    ∀ {ts : List Token} {x : Side Decoder DoToken}, decUnit.Run ts x y → ts.length = m →
    ∀ {s : State}, decSide s = x → s.env.agenda = .feedDec (ts.map tokenWord) :: rest →
    ∃ n t, Sys2Proof.core.run n s = .next t ∧ t.env.agenda = rest ∧ decSide t = y ∧ encSide t = encSide s := by
  induction m using Nat.strong_induction_on with
  | _ m ihm =>
    intro ts x h
    induction h with
    | nil x =>
      rintro - s rfl ha
      exact ⟨1, _, core_run_succ (step_feedDec_nil ha hy) 0, rfl, rfl, rfl⟩
    | put h _ ih =>
      rintro hm s rfl ha
      obtain ⟨a, hstep, hagenda, hside, henc⟩ := step_feedDec_puts h ha
      obtain ⟨n, t, hn, hrest, ht, henc'⟩ := ih hy ihm hm hside hagenda
      exact ⟨n + 1, t, (core_run_succ hstep n).trans hn, hrest, ht, henc'.trans henc⟩
    | @take t ts _ _ _ h hr =>
      rintro rfl s rfl ha
      by_cases hchunk : s.dec.dphase = .hdr ∧ ∃ i us, isChunk i = true ∧ t :: ts = (chunkBytes i).map .byte ++ us
      · obtain ⟨hp, i, us, hi, hts⟩ := hchunk
        have hrun := PortUnit.Run.take h hr
        have hwords : (t :: ts).map tokenWord = byteWords (chunkBytes i) ++ us.map tokenWord := by
          simp [hts, byteWords]
        have hshorter : us.length < (t :: ts).length := by
          have hpos := chunkBytes_length_pos hi
          simp only [hts, List.length_append, List.length_map]
          omega
        rw [hwords] at ha
        rw [hts] at hrun
        obtain ⟨a, hstep, hagenda, henc, hpa, hchunk⟩ := step_feedDec_chunk hi hp ha
        obtain ⟨n, t, hn, hrest, ht, henc'⟩ :=
          ihm _ hshorter (hchunk.of_append (decoder_inReady_of_hdr hpa) hy hrun) rfl rfl hagenda
        exact ⟨n + 1, t, (core_run_succ hstep n).trans hn, hrest, ht, henc'.trans henc⟩
      · obtain ⟨a, hstep, hagenda, hside, henc⟩ := step_feedDec_takes h ha fun hp =>
          (begins_with_chunk_or_not (t :: ts)).resolve_left fun hc => hchunk ⟨hp, hc⟩
        obtain ⟨n, t, hn, hrest, ht, henc'⟩ := ihm _ (Nat.lt_succ_self ts.length) hr rfl hside hagenda
        exact ⟨n + 1, t, (core_run_succ hstep n).trans hn, hrest, ht, henc'.trans henc⟩

/-- Settles O59: the run that answers the message with DECODE of its body is made by the feeding host, and every run of
edges that takes the message ends where it does. -/
theorem decoderComputesDecode : Obligations.DecoderComputesDecode := by
  intro s body hi hidle
  obtain ⟨y, hrun, hy, hdecodes⟩ := run_message_of_decIdle body hi.dec hidle
  have hready := decoder_inReady_of_hdr hy
  refine ⟨fun rest ha => ?_, fun ps r hps hr htaken hlast => ?_⟩
  · obtain ⟨n, t, hn, hrest, ht, henc⟩ := core_run_feedDec hready _ hrun rfl rfl (messageWords_eq body ▸ ha)
    exact ⟨n, t, hn, hrest, hdecodes t ht, encSide_eq.1 henc⟩
  · have hedges := (runEdges_runs hps hr).2
    rw [htaken] at hedges
    exact hdecodes _ (hedges.unique hlast hrun hready)

end Sys2Proof.Proofs
end

section
/-! The decoder's step rules (R222 to R234): the guard of a rule, as the rule words it, is the machine's choice of that rule
(R236), and a rule whose guard holds gives the state after the transfer. A chunk is its transfers (R237), and every
transfer moves the phase registers along the table of R238. -/

namespace Sys2Proof.Proofs

open Sys2Proof.Machine Sys2Proof.Laws

/-! ### What the decoder drives (R234) -/

section
variable {s : State}

theorem doLines_of_offer {u : DoToken} (h : s.dec.offer = some u) : s.doLines = doTokenWord u := by
  simp only [State.doLines, h]

/-- A byte is offered with `do_eos` and `do_err` at 0. -/
theorem pins_of_decoder_offer_byte {b : Byte} (h : s.dec.offer = some (.byte b)) :
    s.pins.doEos = false ∧ s.pins.doErr = false ∧ s.pins.doData = b := by
  simp [State.pins, doLines_of_offer h, doTokenWord]

theorem pins_of_decoder_offer_eom {err : Bool} (h : s.dec.offer = some (.eom err)) :
    s.pins.doEos = true ∧ s.pins.doErr = err ∧ s.pins.doData = 0 := by
  simp [State.pins, doLines_of_offer h, doTokenWord]

/-- `di_ready` and `do_valid` while a token is offered (R64). -/
theorem pins_of_decoder_offer {u : DoToken} (h : s.dec.offer = some u) :
    s.pins.diReady = false ∧ s.pins.doValid = true :=
  ⟨decoder_inReady_of_offer h, (decoder_outValid_iff _).2 (decoder_inReady_of_offer h)⟩

theorem decoder_offer_byte {d : Decoder} (hp : d.dphase = .runOut ∨ d.dphase = .litOut) :
    d.offer = some (.byte d.dval) := by
  rcases hp with hp | hp <;> simp only [Decoder.offer, hp]

theorem decoder_offer_endOut {d : Decoder} (hp : d.dphase = .endOut) : d.offer = some (.eom d.endErr) := by
  simp only [Decoder.offer, hp]

end

/-- Settles O6, phase by phase: the lines of `do` carry the token the phase offers. -/
theorem decoderPinTable : Obligations.DecoderPinTable := by
  intro s
  refine ⟨fun hp => ?_, fun hp => ?_, fun hp => ?_, rfl, rfl⟩
  · have hready : s.dec.inReady = true := by simpa [Decoder.inReady, or_assoc] using hp
    exact ⟨hready, by simp [State.pins, decoder_outValid_eq, hready]⟩
  · obtain ⟨hready, hvalid⟩ := pins_of_decoder_offer (decoder_offer_byte hp)
    exact ⟨hready, hvalid, pins_of_decoder_offer_byte (decoder_offer_byte hp)⟩
  · obtain ⟨hready, hvalid⟩ := pins_of_decoder_offer (decoder_offer_endOut hp)
    exact ⟨hready, hvalid, pins_of_decoder_offer_eom (decoder_offer_endOut hp)⟩

/-! ### The guards are the machine's choice (R236) -/

/-- The one header of a literal chunk without payload (R224), by its two fields. -/
theorem header_eq_zero_iff {h : Byte} : h = 0 ↔ h.getLsbD 7 = false ∧ headerCount h = 0 :=
  ⟨fun h0 => by rw [h0]; decide, fun ⟨hf, hc⟩ => by rw [← litHeader_headerCount hf, hc]; rfl⟩

section
variable {d : Decoder} {t : Token} {r : DecRule}

/-- In an input phase a rule whose guard holds is the one the machine applies. -/
theorem decRuleIn_of_guard (hg : decGuard r (some t) d = true) : decRuleIn t d = some r := by
  cases t with
  | byte b =>
    cases r <;> simp only [decGuard, Bool.and_eq_true, Bool.not_eq_true', beq_iff_eq, decide_eq_true_eq, reduceCtorEq,
      one_le_toNat_iff, header_eq_zero_iff] at hg
    case hdrRun => simp only [decRuleIn, hg.1, headerFlag, hg.2, if_true]
    case hdrLit =>
      obtain ⟨⟨hp, hf⟩, hc⟩ := hg
      simp only [decRuleIn, hp, headerFlag, hf, if_neg hc, Bool.false_eq_true, if_false]
    case hdrLit0 =>
      obtain ⟨hp, hf, hc⟩ := hg
      simp only [decRuleIn, hp, headerFlag, hf, hc, Bool.false_eq_true, if_false, if_true]
    case runVal => simp only [decRuleIn, hg.1, if_neg hg.2]
    case runVal0 => simp only [decRuleIn, hg.1, hg.2, if_true]
    case litIn => simp only [decRuleIn, hg]
  | eom =>
    cases r <;> simp only [decGuard, beq_iff_eq, reduceCtorEq] at hg
    all_goals simp only [decRuleIn, hg]

/-- The rule the machine applies to a token is one whose guard holds. -/
theorem guard_of_decRuleIn (hr : decRuleIn t d = some r) : decGuard r (some t) d = true := by
  unfold decRuleIn at hr
  cases t with
  | byte b =>
    cases hp : d.dphase <;> simp only [hp, reduceCtorEq] at hr
    case hdr =>
      split_ifs at hr with hf hc <;> cases hr <;>
        simp only [decGuard, hp, beq_self_eq_true, Bool.true_and, Bool.and_eq_true, Bool.not_eq_true', beq_iff_eq,
          decide_eq_true_eq, one_le_toNat_iff, header_eq_zero_iff]
      · exact hf
      · exact ⟨Bool.eq_false_iff.2 hf, hc⟩
      · exact ⟨Bool.eq_false_iff.2 hf, hc⟩
    case runVal =>
      split_ifs at hr with hc <;> cases hr <;>
        simp only [decGuard, hp, beq_self_eq_true, Bool.true_and, beq_iff_eq, decide_eq_true_eq, one_le_toNat_iff]
      · exact hc
      · exact hc
    case litIn => cases hr; simp only [decGuard, hp, beq_self_eq_true]
  | eom =>
    cases hp : d.dphase <;> simp only [hp, reduceCtorEq] at hr
    all_goals cases hr; simp only [decGuard, hp, beq_self_eq_true]

/-- The same for output steps, where R235 keeps `dcount` from 0. -/
theorem decRuleOut_of_guard (hpos : d.dphase = .runOut ∨ d.dphase = .litOut → 1 ≤ d.dcount.toNat)
    (hg : decGuard r none d = true) : decRuleOut d = some r := by
  cases r <;> simp only [decGuard, beq_iff_eq, reduceCtorEq] at hg
  case runOut => simp only [decRuleOut, hg, if_neg (one_le_toNat_iff.1 (hpos (.inl hg)))]
  case litOut => simp only [decRuleOut, hg, if_neg (one_le_toNat_iff.1 (hpos (.inr hg)))]
  case endOut => simp only [decRuleOut, hg]

theorem guard_of_decRuleOut (hr : decRuleOut d = some r) : decGuard r none d = true := by
  unfold decRuleOut at hr
  cases hp : d.dphase <;> simp only [hp, reduceCtorEq] at hr
  case endOut => cases hr; simp only [decGuard, hp, beq_self_eq_true]
  all_goals split_ifs at hr; cases hr; simp only [decGuard, hp, beq_self_eq_true]

end

/-- Settles O28: a rule applies in every state that meets R235, its guard holds, and another guard that held would be the
machine's choice as well. -/
theorem decoderRulesExhaustiveExclusive : Obligations.DecoderRulesExhaustiveExclusive := by
  intro d hi
  refine ⟨fun hready t => ?_, fun hready => ?_⟩
  · obtain ⟨r, hr⟩ := exists_decRuleIn hready t
    exact ⟨r, hr, guard_of_decRuleIn hr, fun q hq => Option.some.inj ((decRuleIn_of_guard hq).symm.trans hr)⟩
  · have hpos : d.dphase = .runOut ∨ d.dphase = .litOut → 1 ≤ d.dcount.toNat :=
      fun hp => hi.dcount (hp.imp_right .inr)
    obtain ⟨g, hstep⟩ := decStep_out_completes hi hready 0
    cases hr : decRuleOut d with
    | none => rw [hr] at hstep; cases hstep
    | some r =>
      exact ⟨r, rfl, guard_of_decRuleOut hr,
        fun q hq => Option.some.inj ((decRuleOut_of_guard hpos hq).symm.trans hr)⟩

/-! ### A token taken or put out (R222 to R233) -/

section
variable {s : State} {r : DecRule}

theorem decoder_inReady_of_decRuleIn {d : Decoder} {t : Token} (h : decRuleIn t d = some r) : d.inReady = true := by
  cases hp : d.dphase <;> simp only [decRuleIn, hp, reduceCtorEq] at h <;> simp only [Decoder.inReady, hp] <;> rfl

/-- A rule whose guard holds gives the registers after the transfer on `di`; nothing but the position moves with them. -/
theorem exec_di_of_guard {t : Token} (hg : decGuard r (some t) s.dec = true) :
    exec (t.on .di) s =
      .next { s with dec := decApply r (tokenByte t) s.dec, decK := positionAfter t s.decK } := by
  have hr := decRuleIn_of_guard hg
  rw [exec_on_di]
  exact takeDi_steps (decoder_inReady_of_decRuleIn hr) (by rw [hr]; rfl)

/-- A rule whose guard holds gives the registers after the transfer of the offered token on `do`. -/
theorem exec_do_of_guard {u : DoToken} (ho : s.dec.offer = some u)
    (hpos : s.dec.dphase = .runOut ∨ s.dec.dphase = .litOut → 1 ≤ s.dec.dcount.toNat)
    (hg : decGuard r none s.dec = true) :
    exec u.onDo s = .next { s with dec := decApply r 0 s.dec, env := { s.env with doOut := s.env.doOut ++ [u] } } := by
  rw [exec_onDo, acceptDo, ho]
  exact (if_pos rfl).trans (putDo_steps u (by rw [decRuleOut_of_guard hpos hg]; rfl))

end

/-- Settles O23, by the guards of R222 to R225. -/
theorem decoderTakesHeader : Obligations.DecoderTakesHeader := by
  intro h s hp
  rw [← headerCount_eq_extractLsb']
  refine ⟨fun hf => ?_, fun hf hc => ?_, fun h0 => ?_, ?_⟩
  · exact exec_di_of_guard (t := .byte h) (r := .hdrRun) (by simp [decGuard, hp, hf])
  · exact exec_di_of_guard (t := .byte h) (r := .hdrLit) (by rw [decGuard, hp, hf, decide_eq_true hc]; rfl)
  · exact exec_di_of_guard (t := .byte h) (r := .hdrLit0) (by simp [decGuard, hp, h0])
  · exact exec_di_of_guard (t := .eom) (r := .hdrEnd) (by simp [decGuard, hp])

/-- Settles O24, by the guards of R226 and R227. -/
theorem decoderTakesRunValue : Obligations.DecoderTakesRunValue := by
  refine fun v s hp => ⟨fun hc => ?_, fun h0 => ?_⟩
  · exact exec_di_of_guard (t := .byte v) (r := .runVal) (by simp [decGuard, hp, hc])
  · exact exec_di_of_guard (t := .byte v) (r := .runVal0) (by simp [decGuard, hp, h0])

/-- Settles O25, by the guards of R229, R230 and R232. -/
theorem decoderStreamsPayload : Obligations.DecoderStreamsPayload := by
  refine fun s => ⟨fun b hp _ => ?_, fun hp hc => ?_, fun hp hc => ?_⟩
  · exact exec_di_of_guard (t := .byte b) (r := .litIn) (by simp [decGuard, hp])
  · exact exec_do_of_guard (r := .litOut) (decoder_offer_byte (.inr hp)) (fun _ => hc) (by simp [decGuard, hp])
  · exact exec_do_of_guard (r := .runOut) (decoder_offer_byte (.inl hp)) (fun _ => hc) (by simp [decGuard, hp])

/-- Settles O26, by the guards of R228 and R231; both rules raise the exception as R285 writes it. -/
theorem truncationRaisesMalformedStream : Obligations.TruncationRaisesMalformedStream := by
  refine fun s => ⟨fun hp => ?_, fun hp => ?_⟩
  · refine (exec_di_of_guard (t := .eom) (r := .runTrunc) (by simp [decGuard, hp])).trans ?_
    rw [decApply, decRunTrunc, raiseMalformed_eq]
    rfl
  · refine (exec_di_of_guard (t := .eom) (r := .litTrunc) (by simp [decGuard, hp])).trans ?_
    rw [decApply, decLitTrunc, raiseMalformed_eq]
    rfl

/-- Settles O27, by the guard of R233. -/
theorem decoderPutsEnd : Obligations.DecoderPutsEnd := fun s hp =>
  exec_do_of_guard (r := .endOut) (decoder_offer_endOut hp) (by simp [hp]) (by simp [decGuard, hp])

/-! ### A chunk is its transfers (R237) -/

/-- The copies of a run are transfers on `do` of the stored value, one by one. -/
theorem putCopies_eq_execAll (n : Nat) : ∀ {s : State},
    s.dec.dphase = (if s.dec.dcount = 0 then .hdr else .runOut) → s.dec.dcount.toNat = n →
    putCopies n s = execAll (List.replicate n (.byteDo s.dec.dval)) s := by
  induction n with
  | zero => exact fun _ _ => rfl
  | succ n ih =>
    intro s hphase hn
    have h0 := count_ne_zero hn
    have hp : s.dec.dphase = .runOut := hphase.trans (if_neg h0)
    have hput := putDo_runOut (t := .byte s.dec.dval) hp h0
    have hexec := (decoderStreamsPayload s).2.2 hp (one_le_toNat_iff.2 h0)
    have hlast : s.dec.dcount - 1#7 = 0#7 ↔ s.dec.dcount = 1#7 := sub_eq_zero
    simp only [putCopies, decoder_offer_byte (.inl hp), List.replicate_succ, execAll_cons]
    rw [hput, hexec]
    exact ih (s := outputDo (.byte s.dec.dval) { s with dec := decRunOut s.dec })
      (if_congr hlast.symm rfl rfl) (show (s.dec.dcount - 1#7).toNat = n by bv_omega)

/-- Settles O32: a RUN takes header and value and puts out its copies, and the payload of a LIT passes through byte by
byte. -/
theorem chunkIsItsTransfers : Obligations.ChunkIsItsTransfers := by
  refine fun s hp => ⟨fun count v => ?_, fun count payload hl => ?_⟩
  · have hhdr := takeDi_runHeader hp count
    have hin := ((transfers_of_takeDi (decoder_inReady_of_hdr hp) hhdr).trans
      (transfers_of_takeDi rfl (takeDi_runVal rfl v))).exec
    have hrun : exec (.run count v) s = execRun count v s := rfl
    rw [hrun, execRun, if_pos hp, hhdr, andThen_next, takeDi_runVal rfl, andThen_next, execAll_append]
    refine Eq.trans ?_ (congrArg (andThen · _) hin).symm
    exact putCopies_eq_execAll _ rfl rfl
  · have hleft : count - BitVec.ofNat 7 payload.length = 0#7 := by
      rw [hl, BitVec.ofNat_toNat, BitVec.setWidth_eq]
      exact sub_self count
    rw [exec_lit_of_hdr hp hl, (transfers_lit hp hl.le).exec]
    simp [afterPayload, hleft, ← hp, ← hl, Nat.add_assoc]

/-! ### The transition table (R238) -/

/-- The moves of `ephase` that the table of R238 lists, and staying. -/
abbrev EncMove (p q : EPhase) : Prop :=
  q = p ∨ (p, q) ∈
    [(EPhase.collect, EPhase.litHdr), (.collect, .runHdr), (.collect, .endOut), (.runHdr, .runVal), (.runVal, .collect),
     (.runVal, .endOut), (.litHdr, .litPay), (.litPay, .collect), (.litPay, .endOut), (.endOut, .collect)]

/-- The moves of `dphase` that the table of R238 lists, and staying. -/
abbrev DecMove (p q : DPhase) : Prop :=
  q = p ∨ (p, q) ∈
    [(DPhase.hdr, DPhase.runVal), (.hdr, .litIn), (.hdr, .endOut), (.runVal, .runOut), (.runVal, .hdr),
     (.runVal, .endOut), (.runOut, .hdr), (.litIn, .litOut), (.litIn, .endOut), (.litOut, .litIn), (.litOut, .hdr),
     (.endOut, .hdr)]

section
variable {e f : Encoder} {d g : Decoder} {t : Token}

theorem encStep_in_moves (hp : e.ephase = .collect) (h : encStep (encRuleIn t e) t e = .next f) :
    EncMove e.ephase f.ephase := by
  have hlit : EncMove e.ephase .litHdr := by rw [hp]; decide
  have hrun : EncMove e.ephase .runHdr := by rw [hp]; decide
  have hend : EncMove e.ephase .endOut := by rw [hp]; decide
  cases t with
  | byte b =>
    rcases encStep_byte h with ⟨-, rfl⟩ | ⟨-, -, -, rfl⟩ | ⟨-, -, -, rfl⟩ | ⟨-, -, -, -, rfl⟩ | ⟨-, -, rfl⟩ |
      ⟨-, -, -, rfl⟩ | ⟨-, -, -, rfl⟩ | ⟨-, -, -, rfl⟩
    · exact .inl rfl
    · exact .inl rfl
    · exact hlit
    · exact .inl rfl
    · exact hrun
    · exact hrun
    · exact .inl rfl
    · exact hlit
  | eom =>
    rcases encStep_eom h with ⟨-, rfl⟩ | ⟨-, -, rfl⟩ | ⟨-, -, rfl⟩
    · exact hend
    · exact hrun
    · exact hlit

/-- An emission ends in `E_COLLECT` or `E_END`, and so may leave any phase that the table lets go to both. -/
theorem encMove_afterEmission {p : EPhase} (hcollect : EncMove p .collect) (hend : EncMove p .endOut) (e : Encoder) :
    EncMove p (afterEmission e) := by
  unfold afterEmission
  split_ifs
  · exact hend
  · exact hcollect

theorem encStep_out_moves (h : encStep (encRuleOut e) t e = .next f) : EncMove e.ephase f.ephase := by
  rcases encStep_out h with ⟨hp, rfl⟩ | ⟨hp, rfl⟩ | ⟨hp, rfl⟩ | ⟨-, -, rfl⟩ | ⟨hp, -, rfl⟩ | ⟨hp, rfl⟩
  case inr.inr.inr.inl => exact .inl rfl
  all_goals rw [hp]
  · exact (by decide : EncMove .runHdr .runVal)
  · exact encMove_afterEmission (by decide) (by decide) e
  · exact (by decide : EncMove .litHdr .litPay)
  · exact encMove_afterEmission (by decide) (by decide) e
  · exact (by decide : EncMove .endOut .collect)

theorem decStep_in_moves (h : decStep (decRuleIn t d) (tokenByte t) d = .next g) : DecMove d.dphase g.dphase := by
  cases t with
  | byte b =>
    rcases decStep_byte h with ⟨hp, -, rfl⟩ | ⟨-, -, -, rfl⟩ | ⟨hp, -, -, rfl⟩ | ⟨hp, -, rfl⟩ | ⟨hp, -, rfl⟩ | ⟨hp, rfl⟩
    case inr.inl => exact .inl rfl
    all_goals rw [hp]
    · exact (by decide : DecMove .hdr .runVal)
    · exact (by decide : DecMove .hdr .litIn)
    · exact (by decide : DecMove .runVal .hdr)
    · exact (by decide : DecMove .runVal .runOut)
    · exact (by decide : DecMove .litIn .litOut)
  | eom =>
    rcases decStep_eom h with ⟨hp, rfl⟩ | ⟨hp, rfl⟩ | ⟨hp, rfl⟩ <;> rw [hp]
    · exact (by decide : DecMove .hdr .endOut)
    · exact (by decide : DecMove .runVal .endOut)
    · exact (by decide : DecMove .litIn .endOut)

theorem decStep_out_moves {b : Byte} (h : decStep (decRuleOut d) b d = .next g) : DecMove d.dphase g.dphase := by
  rcases decStep_out h with ⟨hp, -, rfl⟩ | ⟨hp, -, rfl⟩ | ⟨hp, rfl⟩ <;> rw [hp]
  · unfold decRunOut
    dsimp only
    split_ifs <;> decide
  · unfold decLitOut
    dsimp only
    split_ifs <;> decide
  · exact (by decide : DecMove .endOut .hdr)

end

section
variable {s t : State} {i : Instr}

theorem exec_moves_ephase (hi : isEncInstr i = true) (h : exec i s = .next t) : EncMove s.enc.ephase t.enc.ephase := by
  obtain ⟨tok, rfl | rfl⟩ := exists_on_of_isEncInstr hi
  · rw [exec_on_ei] at h
    rcases takeEi_next h with ⟨-, rfl⟩ | ⟨hp, e, he, rfl⟩
    · exact .inl rfl
    · exact encStep_in_moves hp he
  · rw [exec_on_eo] at h
    rcases acceptEo_next h with ⟨-, rfl⟩ | ⟨-, -, e, he, rfl⟩
    · exact .inl rfl
    · exact encStep_out_moves he

/-- The decoder's instructions are the two kinds of chunk and the transfers on its two ports. -/
theorem chunk_or_on_of_not_isEncInstr : ∀ {i : Instr}, isEncInstr i = false →
    ((∃ n p, i = .lit n p) ∨ ∃ n v, i = .run n v) ∨ (∃ tok : Token, i = tok.on .di) ∨ ∃ u : DoToken, i = u.onDo
  | .lit n p, _ => .inl (.inl ⟨n, p, rfl⟩)
  | .run n v, _ => .inl (.inr ⟨n, v, rfl⟩)
  | .byte .di b, _ => .inr (.inl ⟨.byte b, rfl⟩)
  | .endMsg .di, _ => .inr (.inl ⟨.eom, rfl⟩)
  | .byteDo b, _ => .inr (.inr ⟨.byte b, rfl⟩)
  | .endDo err, _ => .inr (.inr ⟨.eom err, rfl⟩)

theorem exec_moves_dphase (hi : isEncInstr i = false) (h : exec i s = .next t) :
    DecMove s.dec.dphase t.dec.dphase := by
  rcases chunk_or_on_of_not_isEncInstr hi with hchunk | ⟨tok, rfl⟩ | ⟨u, rfl⟩
  · obtain ⟨hs, ht⟩ := exec_chunk_hdr hchunk h
    exact .inl (ht.trans hs.symm)
  · rw [exec_on_di] at h
    rcases takeDi_next h with ⟨-, rfl⟩ | ⟨-, d, hd, rfl⟩
    · exact .inl rfl
    · exact decStep_in_moves hd
  · rw [exec_onDo] at h
    rcases acceptDo_next h with ⟨-, rfl⟩ | ⟨-, d, hd, rfl⟩
    · exact .inl rfl
    · exact decStep_out_moves hd

end

/-- Settles O36: an instruction moves the phase register of its own unit along the table and leaves the other's alone. -/
theorem phaseTransitionTable : Obligations.PhaseTransitionTable := by
  intro i s t h
  cases hi : isEncInstr i with
  | false =>
    exact ⟨.inl (by rw [(exec_dec_frame hi h).1]), exec_moves_dphase hi h, fun hchunk => exec_chunk_hdr hchunk h⟩
  | true =>
    exact ⟨exec_moves_ephase hi h, .inl (by rw [(exec_enc_frame hi h).1]), fun hchunk => exec_chunk_hdr hchunk h⟩

end Sys2Proof.Proofs
end

section
/-! Which chunks ENCODE writes (R260, R264, R270, R271, R273). Every input is a segment or run and then a shorter input,
so laws of the greedy parse go by induction along it. A chunk is written where R273 allows it, and in the output of a
sequence that R273 allows each chunk is found again as the segment or run that it stands for. -/

namespace Sys2Proof.Proofs

open Sys2Proof.Machine Sys2Proof.Laws

/-! ### Induction along the greedy parse -/

/-- The scan of R121: copies of `v`, up to another byte, the end of the input or the limit. -/
theorem exists_replicate_append (v : Byte) (n : Nat) : ∀ bs : List Byte,
    ∃ m rest, bs = List.replicate m v ++ rest ∧ m ≤ n ∧ (m = n ∨ rest.head? ≠ some v) := by
  induction n with
  | zero => exact fun bs => ⟨0, bs, rfl, le_rfl, .inl rfl⟩
  | succ n ih =>
    intro bs
    by_cases h : bs.head? = some v
    · obtain ⟨bs, rfl⟩ := List.head?_eq_some_iff.1 h
      obtain ⟨m, rest, rfl, hm, hends⟩ := ih bs
      exact ⟨m + 1, rest, rfl, Nat.succ_le_succ hm, hends.imp_left (congrArg (· + 1))⟩
    · exact ⟨0, bs, rfl, Nat.zero_le _, .inr h⟩

theorem isChain_append_take_one {xs tail : List Byte} : (xs ++ tail.take 1).IsChain (· ≠ ·) ↔
    xs.IsChain (· ≠ ·) ∧ ∀ x ∈ xs.getLast?, ∀ y ∈ tail.head?, x ≠ y := by
  rw [List.isChain_append]
  cases tail <;> simp

/-- The scan of R123: bytes that join the segment begun by `x`, up to a run, the end of the input or the limit. -/
theorem exists_lit_append (n : Nat) : ∀ {x : Byte} {bs : List Byte}, bs.head? ≠ some x →
    ∃ ys tail, bs = ys ++ tail ∧ ys.length ≤ n ∧ (x :: ys ++ tail.take 1).IsChain (· ≠ ·) ∧
      (ys.length = n ∨ tail = [] ∨ ∃ c l, tail = c :: c :: l) := by
  have hstop : ∀ {x : Byte} {bs : List Byte}, bs.head? ≠ some x → ([x] ++ bs.take 1).IsChain (· ≠ ·) :=
    fun h => isChain_append_take_one.2 ⟨.singleton _, by rintro _ ⟨⟩ y hy rfl; exact h hy⟩
  induction n with
  | zero => exact fun h => ⟨[], _, rfl, le_rfl, hstop h, .inl rfl⟩
  | succ n ih =>
    intro x bs h
    cases bs with
    | nil => exact ⟨[], [], rfl, Nat.zero_le _, hstop h, .inr (.inl rfl)⟩
    | cons c bs =>
      by_cases hc : bs.head? = some c
      · obtain ⟨l, rfl⟩ := List.head?_eq_some_iff.1 hc
        exact ⟨[], _, rfl, Nat.zero_le _, hstop h, .inr (.inr ⟨c, l, rfl⟩)⟩
      · obtain ⟨ys, tail, rfl, hlen, hchain, hends⟩ := ih hc
        have hxc : x ≠ c := fun hx => h (congrArg some hx.symm)
        exact ⟨c :: ys, tail, rfl, Nat.succ_le_succ hlen, List.isChain_cons_cons.2 ⟨hxc, hchain⟩,
          hends.imp_left (congrArg (· + 1))⟩

/-- At the front of a nonempty input stands a run or a literal segment (R122, R123). -/
theorem exists_segment (b : Byte) (bs : List Byte) :
    (∃ xs tail, b :: bs = xs ++ tail ∧ LitSegment xs tail) ∨
      ∃ (count : Count) (v : Byte) (rest : List Byte),
        b :: bs = List.replicate count.toNat v ++ rest ∧ RunSegment count.toNat v rest := by
  obtain ⟨m, rest, rfl, hm, hends⟩ := exists_replicate_append b 126 bs
  cases m with
  | zero =>
    obtain ⟨ys, tail, hbs, hlen, hchain, htail⟩ := exists_lit_append 126 (hends.resolve_left (by decide))
    refine .inl ⟨b :: ys, tail, congrArg (b :: ·) hbs, ?_⟩
    exact ⟨Nat.le_add_left 1 _, Nat.succ_le_succ hlen, hchain, htail.imp_left (congrArg (· + 1))⟩
  | succ m =>
    have hcount : (BitVec.ofNat 7 (m + 2)).toNat = m + 2 := Nat.mod_eq_of_lt (by omega)
    refine .inr ⟨BitVec.ofNat 7 (m + 2), b, rest, by rw [hcount]; rfl, ?_⟩
    rw [hcount]
    exact ⟨Nat.le_add_left 2 m, Nat.succ_le_succ hm, hends.imp_left (congrArg (· + 1))⟩

/-- Induction along the greedy parse: on the segment or run at the front and the bytes that follow it (R124). -/
theorem greedy_induction {P : List Byte → Prop} (nil : P [])
    (lit : ∀ xs tail, LitSegment xs tail → P tail → P (xs ++ tail))
    (run : ∀ (count : Count) v rest, RunSegment count.toNat v rest → P rest → P (List.replicate count.toNat v ++ rest))
    (data : List Byte) : P data := by
  induction h : data.length using Nat.strong_induction_on generalizing data with
  | _ n ih =>
    subst h
    cases data with
    | nil => exact nil
    | cons b bs =>
      obtain ⟨xs, tail, heq, hseg⟩ | ⟨count, v, rest, heq, hseg⟩ := exists_segment b bs
      · rw [heq] at ih ⊢
        have hpos := hseg.pos
        exact lit xs tail hseg (ih _ (by rw [List.length_append]; omega) tail rfl)
      · rw [heq] at ih ⊢
        have hpair := hseg.pair
        exact run count v rest hseg
          (ih _ (by rw [List.length_append, List.length_replicate]; omega) rest rfl)

/-! ### Round trip (R260, R271) -/

theorem flatMap_chunkOutput_encodeChunks (data : List Byte) : (encodeChunks data).flatMap chunkOutput = data :=
  (encodeChunks_parsesGreedily.standsFor data).output

theorem decodeBytes_encodeBytes (data : List Byte) : decodeBytes (encodeBytes data) = .ok data :=
  decodeBytes_of_standsFor (encodeChunks_parsesGreedily.standsFor data)

/-- Settles O50: an encoding stands for its input, which DECODE gives back; a RUN and a LIT of one byte decode alike. -/
theorem roundTrip : Obligations.RoundTrip := by
  refine ⟨decodeBytes_encodeBytes, fun a b h => ?_, [0x81, 5], [0x01, 5], ?_, ?_, by decide, by decide⟩
  · exact DecodeResult.ok.inj ((decodeBytes_encodeBytes a).symm.trans (h ▸ decodeBytes_encodeBytes b))
  · exact ⟨[.run 1 5], by decide, by decide⟩
  · exact ⟨[.lit 1 [5]], by decide, by decide⟩

/-! ### Canonical chunk sequences (R273) -/

section
variable {c d : Instr} {cs : List Instr} {count : Count} {v : Byte} {payload : List Byte}

theorem cases_of_canonicalChunk (h : canonicalChunk c) :
    (∃ count payload, c = .lit count payload ∧ 1 ≤ count.toNat ∧ payload.length = count.toNat ∧
      payload.IsChain (· ≠ ·)) ∨ ∃ count v, c = .run count v ∧ 2 ≤ count.toNat := by
  cases c with
  | lit count payload => exact .inl ⟨count, payload, rfl, h⟩
  | run count v => exact .inr ⟨count, v, rfl, h⟩
  | byte p b => exact h.elim
  | endMsg p => exact h.elim
  | byteDo b => exact h.elim
  | endDo err => exact h.elim

theorem isChunk_of_canonicalChunk (h : canonicalChunk c) : isChunk c = true := by
  obtain ⟨count, payload, rfl, -, hl, -⟩ | ⟨count, v, rfl, -⟩ := cases_of_canonicalChunk h
  · exact beq_iff_eq.2 hl
  · rfl

theorem chunkOutput_ne_nil (h : canonicalChunk c) : chunkOutput c ≠ [] := by
  obtain ⟨count, payload, rfl, hpos, hl, -⟩ | ⟨count, v, rfl, hpair⟩ := cases_of_canonicalChunk h
  · exact List.ne_nil_of_length_pos (hpos.trans hl.ge)
  · exact List.ne_nil_of_length_pos (by rw [chunkOutput, List.length_replicate]; omega)

theorem canonical_nil : Canonical [] := ⟨by simp, .nil⟩

theorem canonical_cons :
    Canonical (c :: cs) ↔ canonicalChunk c ∧ (∀ d ∈ cs.head?, canonicalNext c d) ∧ Canonical cs := by
  simp only [Canonical, List.forall_mem_cons, List.isChain_cons]
  tauto

/-- The first byte a chunk sequence stands for is the first one of its first chunk. -/
theorem head_flatMap_chunkOutput (h : Canonical cs) (hd : d ∈ cs.head?) :
    (cs.flatMap chunkOutput).head? = (chunkOutput d).head? := by
  obtain ⟨cs, rfl⟩ := List.head?_eq_some_iff.1 hd
  rw [List.flatMap_cons, List.head?_append_of_ne_nil _ (chunkOutput_ne_nil (canonical_cons.1 h).1)]

/-- In front of no further chunk there is no byte. -/
theorem exists_head_of_flatMap {y : Byte} (hy : y ∈ (cs.flatMap chunkOutput).head?) : ∃ d, d ∈ cs.head? := by
  cases cs with
  | nil => cases hy
  | cons d cs => exact ⟨d, rfl⟩

/-- Conditions (a) and (d) of R273 make a RUN chunk a run of the input. -/
theorem runSegment_of_canonical (h : Canonical (.run count v :: cs)) :
    RunSegment count.toNat v (cs.flatMap chunkOutput) := by
  obtain ⟨hpair, hnext, hcs⟩ := canonical_cons.1 h
  refine ⟨hpair, Pending.count_le_cap count, ?_⟩
  refine (Nat.lt_or_eq_of_le (Pending.count_le_cap count)).symm.imp_right fun hlt hv => ?_
  obtain ⟨d, hd⟩ := exists_head_of_flatMap hv
  exact hnext d hd hlt ((head_flatMap_chunkOutput hcs hd).symm.trans hv)

/-- Conditions (a) to (c) of R273 make a LIT chunk a literal segment of the input. -/
theorem litSegment_of_canonical (h : Canonical (.lit count payload :: cs)) :
    LitSegment payload (cs.flatMap chunkOutput) := by
  obtain ⟨⟨hpos, hl, hchain⟩, hnext, hcs⟩ := canonical_cons.1 h
  refine ⟨hpos.trans hl.ge, hl.le.trans (Pending.count_le_cap count), isChain_append_take_one.2 ⟨hchain, ?_⟩, ?_⟩
  · rintro x hx y hy rfl
    obtain ⟨d, hd⟩ := exists_head_of_flatMap hy
    exact (hnext d hd).1 (hx.trans (hy.symm.trans (head_flatMap_chunkOutput hcs hd)))
  · cases cs with
    | nil => exact .inr (.inl rfl)
    | cons d cs =>
      obtain ⟨n, q, rfl, -⟩ | ⟨n, v, rfl, hpair⟩ := cases_of_canonicalChunk (canonical_cons.1 hcs).1
      · exact .inl (hl.trans (congrArg BitVec.toNat ((hnext _ rfl).2 n q rfl)))
      · obtain ⟨m, hm⟩ := Nat.exists_eq_add_of_le' hpair
        refine .inr (.inr ⟨v, List.replicate m v ++ cs.flatMap chunkOutput, ?_⟩)
        rw [List.flatMap_cons, chunkOutput, hm]
        rfl

end

theorem encodeChunks_flatMap_chunkOutput (cs : List Instr) (h : Canonical cs) :
    encodeChunks (cs.flatMap chunkOutput) = cs := by
  induction cs with
  | nil => rfl
  | cons c cs ih =>
    obtain ⟨hc, -, hcs⟩ := canonical_cons.1 h
    obtain ⟨count, payload, rfl, -, hl, -⟩ | ⟨count, v, rfl, -⟩ := cases_of_canonicalChunk hc
    · have hlit := encodeChunks_parsesGreedily.lit (litSegment_of_canonical h)
      rwa [ih hcs, litOf, hl, BitVec.ofNat_toNat, BitVec.setWidth_eq] at hlit
    · have hrun := encodeChunks_parsesGreedily.run (runSegment_of_canonical h)
      rwa [ih hcs] at hrun

theorem two_le_runLen_pair (c : Byte) (l : List Byte) : 2 ≤ runLen (c :: c :: l) := by
  have hcount : countEqual c 126 (c :: l) = countEqual c 125 l + 1 := if_pos rfl
  change 2 ≤ 1 + countEqual c 126 (c :: l)
  omega

/-- A literal segment does not begin with two equal bytes. -/
theorem LitSegment.ne_pair {xs tail : List Byte} (h : LitSegment xs tail) (c : Byte) (l : List Byte) :
    xs ++ tail ≠ c :: c :: l := fun heq => by
  have hpair := two_le_runLen_pair c l
  rw [← heq, h.runLen_eq] at hpair
  omega

/-- Two equal bytes begin with a RUN chunk. -/
theorem head_encodeChunks_pair (c : Byte) (l : List Byte) :
    ∃ count, .run count c ∈ (encodeChunks (c :: c :: l)).head? :=
  ⟨_, congrArg some (if_pos (two_le_runLen_pair c l))⟩

theorem toNat_ofNat_length {xs : List Byte} (h : xs.length ≤ Config.cap) :
    (BitVec.ofNat 7 xs.length).toNat = xs.length := Nat.mod_eq_of_lt (Nat.lt_succ_of_le h)

/-- What the encoder emits is canonical. -/
theorem canonical_encodeChunks (data : List Byte) : Canonical (encodeChunks data) := by
  induction data using greedy_induction with
  | nil => exact canonical_nil
  | lit xs tail h ih =>
    obtain ⟨hchain, hlast⟩ := isChain_append_take_one.1 h.chain
    have hlen := toNat_ofNat_length h.cap
    rw [encodeChunks_parsesGreedily.lit h]
    refine canonical_cons.2 ⟨⟨h.pos.trans hlen.ge, hlen.symm, hchain⟩, fun d hd => ⟨?_, ?_⟩, ih⟩
    · rw [← head_flatMap_chunkOutput ih hd, flatMap_chunkOutput_encodeChunks]
      intro heq
      obtain ⟨x, hx⟩ := Option.ne_none_iff_exists'.1 (mt List.getLast?_eq_none_iff.1 (List.ne_nil_of_length_pos h.pos))
      exact hlast x hx x (heq.symm.trans hx) rfl
    · rintro n p rfl
      rcases h.ends with hcap | rfl | ⟨c, l, rfl⟩
      · rw [hcap]; rfl
      · cases hd
      · obtain ⟨m, hm⟩ := head_encodeChunks_pair c l
        cases hd.symm.trans hm
  | run count v rest h ih =>
    rw [encodeChunks_parsesGreedily.run h]
    refine canonical_cons.2 ⟨h.pair, fun d hd hlt => ?_, ih⟩
    rw [← head_flatMap_chunkOutput ih hd, flatMap_chunkOutput_encodeChunks]
    exact h.ends.resolve_left hlt.ne

/-- Settles O52: what the encoder emits is canonical, and a canonical sequence is the encoding of what it stands for. -/
theorem canonicalSequences : Obligations.CanonicalSequences := fun cs =>
  ⟨fun h => ⟨_, encodeChunks_flatMap_chunkOutput cs h⟩, fun ⟨b, hb⟩ => hb ▸ canonical_encodeChunks b⟩

/-- Settles O53: the ranges of a canonical chunk sequence, read off the header. -/
theorem encoderOutputIsWellFormed : Obligations.EncoderOutputIsWellFormed := by
  refine fun b => ⟨⟨_, (encodeChunks_parsesGreedily.standsFor b).chunks, rfl⟩, fun c hc => ?_⟩
  have hcanon := (canonical_encodeChunks b).1 c hc
  refine ⟨isChunk_of_canonicalChunk hcanon, ?_⟩
  obtain ⟨count, payload, rfl, hpos, -⟩ | ⟨count, v, rfl, hpair⟩ := cases_of_canonicalChunk hcanon
  · refine ⟨.inr ⟨count, payload, rfl, hpos⟩, litHeader count, payload, rfl, .inl ?_⟩
    rw [litHeader_toNat]
    exact ⟨hpos, Pending.count_le_cap count⟩
  · refine ⟨.inl ⟨count, v, rfl, hpair⟩, runHeader count, [v], rfl, .inr ?_⟩
    rw [runHeader_toNat]
    exact ⟨Nat.add_le_add_left hpair 128, Nat.add_le_add_left (Pending.count_le_cap count) 128⟩

/-- Settles O47: condition (b) of R273, and the worked examples run. -/
theorem sourceVectors : Obligations.SourceVectors := by
  refine ⟨fun b n p h => ?_, by decide, by decide, by decide, by decide, by decide⟩
  obtain ⟨-, -, hchain⟩ := (canonical_encodeChunks b).1 _ h
  exact hchain

end Sys2Proof.Proofs
end

section
/-! The bytes of an encoding, chunk by chunk (R262, R263), and how many they are (R269), along the greedy parse. -/

namespace Sys2Proof.Proofs

open Sys2Proof.Machine Sys2Proof.Laws

/-! ### The bytes of an encoding -/

theorem encodeBytes_nil : encodeBytes [] = [] := rfl

theorem encodeBytes_lit {xs tail : List Byte} (h : LitSegment xs tail) :
    encodeBytes (xs ++ tail) = litHeader (BitVec.ofNat 7 xs.length) :: xs ++ encodeBytes tail := by
  rw [encodeBytes, encodeChunks_parsesGreedily.lit h]
  rfl

theorem encodeBytes_run {count : Count} {v : Byte} {rest : List Byte} (h : RunSegment count.toNat v rest) :
    encodeBytes (List.replicate count.toNat v ++ rest) = runHeader count :: v :: encodeBytes rest := by
  rw [encodeBytes, encodeChunks_parsesGreedily.run h]
  rfl

/-- At most 127 bytes without equal neighbours are one literal segment when nothing follows. -/
theorem litSegment_nil {xs : List Byte} (hpos : 1 ≤ xs.length) (hcap : xs.length ≤ Config.cap)
    (hchain : xs.IsChain (· ≠ ·)) : LitSegment xs [] :=
  ⟨hpos, hcap, by simpa using hchain, .inr (.inl rfl)⟩

theorem encodeBytes_singleton (v : Byte) : encodeBytes [v] = [0x01, v] :=
  encodeBytes_lit (litSegment_nil (xs := [v]) (by simp) (by simp) (.singleton v))

/-- 127 bytes without equal neighbours are one literal chunk (R263). -/
theorem encodeBytes_litCap {xs tail : List Byte} (hlen : xs.length = 127)
    (hchain : (xs ++ tail.take 1).IsChain (· ≠ ·)) : encodeBytes (xs ++ tail) = 0x7F :: xs ++ encodeBytes tail := by
  rw [encodeBytes_lit ⟨by omega, hlen.le, hchain, .inl hlen⟩, hlen]
  rfl

/-- 127 equal bytes are one run chunk, whatever follows (R262). -/
theorem encodeBytes_runCap (v : Byte) (rest : List Byte) :
    encodeBytes (List.replicate 127 v ++ rest) = 0xFF :: v :: encodeBytes rest :=
  encodeBytes_run (count := 127) ⟨by decide, le_rfl, .inl rfl⟩

/-- Settles O48: the run chunk of 127 bytes, and the single that is left. -/
theorem runCapSplits : Obligations.RunCapSplits := fun v => by
  have h := encodeBytes_runCap v
  exact ⟨h [], (h [v]).trans (by rw [encodeBytes_singleton])⟩

/-- Settles O49: the literal chunk of 127 bytes, and the single that is left. -/
theorem literalCapSplits : Obligations.LiteralCapSplits := by
  refine fun b hchain => ⟨fun hlen => ?_, fun last hlen hlast => ?_⟩
  · have h := encodeBytes_litCap (tail := []) hlen (by simpa using hchain)
    rwa [List.append_nil, encodeBytes_nil, List.append_nil] at h
  · rw [encodeBytes_litCap (tail := [last]) hlen hlast, encodeBytes_singleton]

/-! ### The length of an encoding (R269) -/

theorem length_encodeBytes_lit {xs tail : List Byte} (h : LitSegment xs tail) :
    (encodeBytes (xs ++ tail)).length = 1 + xs.length + (encodeBytes tail).length := by
  rw [encodeBytes_lit h, List.length_append, List.length_cons, Nat.add_comm 1]

theorem length_encodeBytes_run {count : Count} {v : Byte} {rest : List Byte} (h : RunSegment count.toNat v rest) :
    (encodeBytes (List.replicate count.toNat v ++ rest)).length = 2 + (encodeBytes rest).length := by
  rw [encodeBytes_run h, List.length_cons, List.length_cons, Nat.add_comm 2]

/-- Every chunk has at least 2 bytes and covers at most 127. -/
theorem le_length_encodeBytes (data : List Byte) : 2 * ((data.length + 126) / 127) ≤ (encodeBytes data).length := by
  induction data using greedy_induction with
  | nil => exact le_rfl
  | lit xs tail h ih =>
    have hpos := h.pos
    have hcap := h.cap
    rw [length_encodeBytes_lit h, List.length_append]
    omega
  | run count v rest h ih =>
    have hcap := h.cap
    rw [length_encodeBytes_run h, List.length_append, List.length_replicate]
    omega

/-- A LIT chunk costs one byte more than it covers; before a RUN the two cover at least 3 bytes, so that an input which
begins with a RUN is encoded in fewer. -/
theorem length_encodeBytes_le (data : List Byte) : (encodeBytes data).length ≤ data.length + (data.length + 2) / 3 ∧
    ∀ c l, data = c :: c :: l → (encodeBytes data).length ≤ data.length + data.length / 3 := by
  induction data using greedy_induction with
  | nil => exact ⟨le_rfl, nofun⟩
  | lit xs tail h ih =>
    obtain ⟨hle, hpair⟩ := ih
    have hpos := h.pos
    refine ⟨?_, fun c l heq => absurd heq (h.ne_pair c l)⟩
    rw [length_encodeBytes_lit h, List.length_append]
    rcases h.ends with hcap | rfl | ⟨c, l, rfl⟩
    · have hlen : xs.length = 127 := hcap
      omega
    · rw [encodeBytes_nil, List.length_nil]
      omega
    · have hfewer := hpair c l rfl
      omega
  | run count v rest h ih =>
    obtain ⟨hle, -⟩ := ih
    have htwo := h.pair
    have hrun : (encodeBytes (List.replicate count.toNat v ++ rest)).length ≤
        count.toNat + rest.length + (count.toNat + rest.length) / 3 := by
      rw [length_encodeBytes_run h]
      omega
    rw [List.length_append, List.length_replicate]
    exact ⟨hrun.trans (by omega), fun _ _ _ => hrun⟩

/-- Equal bytes are chunks of 127, and one for what is left (R126). -/
theorem length_encodeBytes_replicate (v : Byte) (n : Nat) :
    (encodeBytes (List.replicate n v)).length = 2 * ((n + 126) / 127) := by
  induction n using Nat.strong_induction_on with
  | _ n ih =>
    rcases Nat.lt_or_ge n 127 with hlt | hge
    · rcases Nat.lt_or_ge n 2 with hsmall | hpair
      · interval_cases n
        · rfl
        · exact congrArg List.length (encodeBytes_singleton v)
      · have hcount : (BitVec.ofNat 7 n).toNat = n := Nat.mod_eq_of_lt (by omega)
        have hrun := length_encodeBytes_run (count := BitVec.ofNat 7 n) (v := v) (rest := [])
          ⟨hcount.symm ▸ hpair, Pending.count_le_cap _, .inr (by simp)⟩
        rw [List.append_nil, hcount] at hrun
        rw [hrun, encodeBytes_nil, List.length_nil]
        omega
    · obtain ⟨m, rfl⟩ := Nat.exists_eq_add_of_le hge
      rw [← List.replicate_append_replicate, encodeBytes_runCap, List.length_cons, List.length_cons,
        ih m (by omega)]
      omega

/-- The first `n` bytes of `a b b a b b a ...`. -/
def singleThenPair (a b : Byte) (n : Nat) : List Byte := (List.range n).map fun k => if k % 3 = 0 then a else b

theorem singleThenPair_add_three (a b : Byte) (n : Nat) :
    singleThenPair a b (n + 3) = a :: b :: b :: singleThenPair a b n := by
  simp only [singleThenPair, List.range_succ_eq_map, List.map_cons, List.map_map, Function.comp_def,
    Nat.succ_eq_add_one, Nat.add_assoc, Nat.reduceAdd, Nat.add_mod_right]
  rfl

/-- A single in front of a pair costs 2 bytes, and the pair 2. -/
theorem length_encodeBytes_singleThenPair {a b : Byte} (h : a ≠ b) (n : Nat) :
    (encodeBytes (singleThenPair a b n)).length = n + (n + 2) / 3 := by
  induction n using Nat.strong_induction_on with
  | _ n ih =>
    match n with
    | 0 => rfl
    | 1 => exact congrArg List.length (encodeBytes_singleton a)
    | 2 =>
      have hcap : [a, b].length ≤ Config.cap := Nat.le_add_right 2 125
      exact length_encodeBytes_lit (litSegment_nil (by simp) hcap (by simpa using h))
    | n + 3 =>
      have hlit : LitSegment [a] (b :: b :: singleThenPair a b n) :=
        ⟨by simp, by simp, by simpa using h, .inr (.inr ⟨b, _, rfl⟩)⟩
      have hhead : (singleThenPair a b n).head? ≠ some b := by
        cases n <;> simp [singleThenPair, List.range_succ_eq_map, h]
      have hrun := length_encodeBytes_run (count := 2) ⟨le_rfl, by decide, .inr hhead⟩
      have hn := ih n (by omega)
      rw [singleThenPair_add_three]
      calc (encodeBytes (a :: b :: b :: singleThenPair a b n)).length
          = 1 + 1 + (encodeBytes (b :: b :: singleThenPair a b n)).length := length_encodeBytes_lit hlit
        _ = 1 + 1 + (2 + (encodeBytes (singleThenPair a b n)).length) := congrArg (1 + 1 + ·) hrun
        _ = n + 3 + (n + 3 + 2) / 3 := by omega

/-- Settles O54: the bounds hold chunk by chunk; full RUN chunks reach the lower one, singles before pairs the upper. -/
theorem encodeLengthBounds : Obligations.EncodeLengthBounds := by
  refine ⟨fun b => ?_, fun n v => length_encodeBytes_replicate v n,
    fun n a b h => length_encodeBytes_singleThenPair h n⟩
  obtain ⟨hle, -⟩ := length_encodeBytes_le b
  exact ⟨le_length_encodeBytes b, hle, by omega⟩

end Sys2Proof.Proofs
end

section
/-! The round trip at level S (R260, R274): with `eo` wired to `di` each unit has a run of its own, and the link ties
the tokens that the one puts out to those that the other takes. -/

namespace Sys2Proof.Proofs

open Sys2Proof.Machine Sys2Proof.Laws

/-- At an edge with `eo` wired to `di`, the encoder puts out what the decoder takes. -/
theorem eoOut_of_wired_edge {p : PinsIn} {s t : State}
    (h : encUnit.Edge p.eiValid (eiToken p) (wired p s).eoReady (encSide s) (encSide t)) :
    t.env.eoOut = s.env.eoOut ++ decUnit.taken s.enc.outValid (diToken (wired p s)) (decSide s) := by
  cases h with
  | stays _ hout h =>
    obtain ⟨-, -, hsame⟩ := encSide_eq.1 h
    have hnone : decUnit.taken s.enc.outValid (diToken (wired p s)) (decSide s) = [] := by
      refine if_neg fun hcross => hout ?_
      obtain ⟨hready, hvalid⟩ := Bool.and_eq_true_iff.1 hcross
      exact ⟨(encoder_outValid_iff _).1 hvalid, hready⟩
    rw [hnone, List.append_nil, hsame]
  | takes _ h =>
    have hnone : s.enc.outValid = false := by rw [encoder_outValid_eq, show s.enc.inReady = true from h.ready]; rfl
    rw [hnone, PortUnit.taken, Bool.and_false]
    exact h.out.trans (List.append_nil _).symm
  | puts hready u h =>
    have htaken : decUnit.taken s.enc.outValid (diToken (wired p s)) (decSide s) = [u] := by
      rw [diToken_wired, eoLines_of_offer h.offer, wordToken_tokenWord]
      exact if_pos (Bool.and_eq_true_iff.2 ⟨hready, (encoder_outValid_iff _).2 h.ready⟩)
    rw [htaken]
    exact h.out

/-- With `eo` wired to `di`, over a run of edges without reset the link carries the same tokens on either side (R78). -/
theorem eoOut_of_wired_run {ps : List PinsIn} (hps : ∀ p ∈ ps, p.rst = false) {s : State} {r : EdgeRun}
    (h : runEdges true ps s = some r) : r.last.env.eoOut = s.env.eoOut ++ r.diTaken := by
  induction ps generalizing s r with
  | nil => cases h; exact (List.append_nil _).symm
  | cons p ps ih =>
    rw [runEdges] at h
    split at h
    · rename_i t ht
      obtain ⟨r', hr', rfl⟩ := Option.map_eq_some_iff.1 h
      have hrst : (wired p s).rst = false := hps p (by simp)
      obtain ⟨henc, -⟩ := step_nextEdge_moves (p := wired p s) (rest := [])
        (by exact .inr ⟨p, rfl, rfl⟩) hrst ht
      have hedge : t.env.eoOut = s.env.eoOut ++ diTransfers (wired p s) s :=
        (eoOut_of_wired_edge henc).trans (congrArg (s.env.eoOut ++ ·) (diTransfers_eq hrst s).symm)
      have hrest := ih (fun q hq => hps q (by simp [hq])) hr'
      rw [hedge, List.append_assoc] at hrest
      exact hrest
    · cases h
    · cases h

/-- Settles O60: the encoder answers the message with its encoding, the decoder takes just that over the link and
answers it with what it decodes to, which is the body of the message. -/
theorem hardwareRoundTrip : Obligations.HardwareRoundTrip := by
  intro s data ps r hi hencIdle hdecIdle hps hr htaken hencEnd hdecEnd
  obtain ⟨hencEdges, hdecEdges⟩ := runEdges_runs hps hr
  obtain ⟨y, hencRun, hy, hencodes⟩ := run_message_of_idle data hi.enc hencIdle
  obtain ⟨z, hdecRun, hz, hdecodes⟩ := run_message_of_decIdle (encodeBytes data) hi.dec hdecIdle
  rw [htaken] at hencEdges
  have henc := hencodes _
    (hencEdges.unique ((encoder_inReady_iff _).2 hencEnd.1) hencRun ((encoder_inReady_iff _).2 hy))
  have hlink : r.diTaken = messageTokens (encodeBytes data) :=
    List.append_cancel_left ((eoOut_of_wired_run hps hr).symm.trans (henc.out.trans (List.append_assoc _ _ _)))
  rw [hlink] at hdecEdges
  have hdec := hdecodes _
    (hdecEdges.unique (decoder_inReady_of_hdr hdecEnd) hdecRun (decoder_inReady_of_hdr hz))
  obtain ⟨hout, hfault, hcode⟩ := hdec.ok data (decodeBytes_encodeBytes data)
  exact ⟨hout, henc.out, hfault, hcode⟩

end Sys2Proof.Proofs
end

section
/-! When MalformedStream is raised (R282, R283): `END` taken on `di` inside a chunk raises it, and no other instruction
touches a decoder without error or fault on record in what it records. -/

namespace Sys2Proof.Proofs

open Sys2Proof.Machine Sys2Proof.Laws

/-- `END` on `di` where the value or a payload byte of a chunk is required. -/
def Truncates (i : Instr) (d : Decoder) : Prop := i = .endMsg .di ∧ (d.dphase = .runVal ∨ d.dphase = .litIn)

/-- No error is pending and no fault is on record; the code register holds `c`. -/
def FaultFree (c : BitVec 2) (d : Decoder) : Prop := d.endErr = false ∧ d.decFault = false ∧ d.decFaultCode = c

section
variable {c : BitVec 2} {d g : Decoder} {s t : State}

/-- Only R228 and R231 raise the exception among the rules for a token taken. -/
theorem decStep_in_keeps_faultFree {tok : Token} (hf : FaultFree c d) (hn : ¬ Truncates (tok.on .di) d)
    (h : decStep (decRuleIn tok d) (tokenByte tok) d = .next g) : FaultFree c g := by
  cases tok with
  | byte b =>
    rcases decStep_byte h with ⟨-, -, rfl⟩ | ⟨-, -, -, rfl⟩ | ⟨-, -, -, rfl⟩ | ⟨-, -, rfl⟩ | ⟨-, -, rfl⟩ | ⟨-, rfl⟩
    all_goals exact hf
  | eom =>
    rcases decStep_eom h with ⟨-, rfl⟩ | ⟨hp, -⟩ | ⟨hp, -⟩
    · exact hf
    · exact absurd ⟨rfl, .inl hp⟩ hn
    · exact absurd ⟨rfl, .inr hp⟩ hn

/-- An output step raises nothing; R233 clears `end_err`. -/
theorem decStep_out_keeps_faultFree {b : Byte} (hf : FaultFree c d) (h : decStep (decRuleOut d) b d = .next g) :
    FaultFree c g := by
  rcases decStep_out h with ⟨-, -, rfl⟩ | ⟨-, -, rfl⟩ | ⟨-, rfl⟩
  · exact hf
  · exact hf
  · exact ⟨rfl, hf.2⟩

/-- Of the decoder's registers a chunk instruction writes `dcount` and `dval` only. -/
theorem exec_chunk_dec {i : Instr} (hi : (∃ n p, i = .lit n p) ∨ ∃ n v, i = .run n v) (h : exec i s = .next t) :
    ∃ v, t.dec = { s.dec with dcount := 0, dval := v } := by
  have hp := (exec_chunk_hdr hi h).1
  rcases hi with ⟨n, p, rfl⟩ | ⟨n, v, rfl⟩
  · by_cases hl : p.length = n.toNat
    · rw [exec_lit_of_hdr hp hl] at h
      cases h
      exact ⟨_, rfl⟩
    · cases (if_neg hl).symm.trans h
  · rw [exec_run_of_hdr hp] at h
    cases h
    exact ⟨_, rfl⟩

/-- An instruction that is no `END` inside a chunk raises nothing. -/
theorem exec_keeps_faultFree {i : Instr} (hf : FaultFree c s.dec) (hn : ¬ Truncates i s.dec)
    (h : exec i s = .next t) : FaultFree c t.dec := by
  cases hi : isEncInstr i with
  | true =>
    rw [(exec_enc_frame hi h).1]
    exact hf
  | false =>
    rcases chunk_or_on_of_not_isEncInstr hi with hchunk | ⟨tok, rfl⟩ | ⟨u, rfl⟩
    · obtain ⟨v, hdec⟩ := exec_chunk_dec hchunk h
      rw [hdec]
      exact hf
    · rw [exec_on_di] at h
      rcases takeDi_next h with ⟨-, rfl⟩ | ⟨-, d, hd, rfl⟩
      · exact hf
      · exact decStep_in_keeps_faultFree hf hn hd
    · rw [exec_onDo] at h
      rcases acceptDo_next h with ⟨-, rfl⟩ | ⟨-, d, hd, rfl⟩
      · exact hf
      · exact decStep_out_keeps_faultFree hf hd

end

/-- Settles O37: `END` inside a chunk raises the exception as R228 and R231 say, and any other instruction leaves a
decoder without error or fault on record so, with the code it had. -/
theorem exceptionExactlyOnTruncation : Obligations.ExceptionExactlyOnTruncation := by
  intro i s t herr hfault h
  by_cases hi : Truncates i s.dec
  · obtain ⟨rfl, hp | hp⟩ := hi
    · cases ((truncationRaisesMalformedStream s).1 hp).symm.trans h
      simp [hp, hfault]
    · cases ((truncationRaisesMalformedStream s).2 hp).symm.trans h
      simp [hp, hfault]
  · obtain ⟨herr', hfault', hcode⟩ := exec_keeps_faultFree ⟨herr, hfault, rfl⟩ hi h
    exact ⟨iff_of_false (ne_true_of_eq_false herr') hi, iff_of_false (ne_true_of_eq_false hfault') hi,
      fun hend hp => absurd ⟨hend, .inl hp⟩ hi, fun hend hp => absurd ⟨hend, .inr hp⟩ hi, fun _ => hcode⟩

end Sys2Proof.Proofs
end

section
/-! The reset edge (R310 to R312): reset is looked at before either unit's pins, so the fetch runs no transfer, and what
the pins show afterwards follows from the reset values alone. -/

namespace Sys2Proof.Proofs

open Sys2Proof.Machine Sys2Proof.Laws

section
variable {s : State} {p : PinsIn} {rest : List HostEvent}

/-- At an edge with `rst = 1` no transfer is fetched, whatever the other pins (R63, R310). -/
theorem fetch_nextEdge_of_rst (hn : NextEdge s p rest) (hr : p.rst = true) : fetch s = ⟨true, [], advance rest s⟩ := by
  rcases hn with hn | ⟨q, hn, rfl⟩
  · simp [fetch, hn, edgeFetch, hr]
  · simp [fetch, hn, edgeFetch, hr]

/-- A step at an edge with `rst = 1` resets both units and does nothing else but move the host on. -/
theorem step_nextEdge_of_rst (hn : NextEdge s p rest) (hr : p.rst = true) :
    step s = .next (resetUnits (advance rest s)) := by
  have hf := fetch_nextEdge_of_rst hn hr
  rw [step_of_rst (by rw [hf]), hf]

/-- The units take their reset values whatever the free values are (R311). -/
theorem atReset_resetUnits (s : State) : AtReset (resetUnits s) where
  enc := ⟨rfl, rfl, rfl, rfl, rfl⟩
  dec := ⟨rfl, rfl, rfl, rfl⟩
  encK := rfl
  decK := rfl

/-- In the reset state both units are ready for a token, offer none and show no fault (R35, R64). -/
theorem pins_of_atReset (h : AtReset s) :
    s.pins.eiReady = true ∧ s.pins.eoValid = false ∧ s.pins.diReady = true ∧ s.pins.doValid = false ∧
      s.pins.decFault = false ∧ s.pins.decFaultCode = 0 := by
  have hei : s.enc.inReady = true := (encoder_inReady_iff _).2 h.enc.ephase
  have hdi : s.dec.inReady = true := decoder_inReady_of_hdr h.dec.dphase
  have heo : s.enc.outValid = false := by rw [encoder_outValid_eq, hei]; rfl
  have hdo : s.dec.outValid = false := by rw [decoder_outValid_eq, hdi]; rfl
  exact ⟨hei, heo, hdi, hdo, h.dec.decFault, h.dec.decFaultCode⟩

end

/-- Settles O3: the loop-back wiring leaves `rst` to the host, so either kind of edge resets both units, and the tokens
already put out are on the host's side, which reset leaves alone. -/
theorem resetEdgeWins : Obligations.ResetEdgeWins := by
  intro s p rest hr hagenda
  have hstep : step s = .next (resetUnits (advance rest s)) := by
    rcases hagenda with hedge | hloop
    · exact step_nextEdge_of_rst (.inl hedge) hr
    · have hwired : (wired p s).rst = true := hr
      exact step_nextEdge_of_rst (.inr ⟨p, hloop, rfl⟩) hwired
  have hreset := atReset_resetUnits (advance rest s)
  exact ⟨_, hstep, hreset, rfl, rfl, rfl, pins_of_atReset hreset⟩

end Sys2Proof.Proofs
end
